-- ==== Sys2Proof/Word.lean ====
section
/-! DEFINITION. The words of EPHB: bytes, 64-bit request beats, pin levels, and the rounding-up division by 8 of
00_scope.md R8. -/

namespace Sys2Proof

/-- A byte moved over the transport, a byte of a plane, or response data. -/
abbrev Byte := BitVec 8

/-- One beat of the request stream (30_encoding.md R100). -/
abbrev Beat := BitVec 64

/-- The level of a pin: `true` is 1 and `false` is 0. -/
abbrev Level := Bool

/-- `ceil8(w) = (w + 7) div 8` (00_scope.md R8). -/
def ceil8 (w : Nat) : Nat := (w + 7) / 8

end Sys2Proof
end

