-- ==== Sys2Proof/Syntax.lean ====
section
/-! DEFINITION. The sixteen requests of 30_encoding.md R103, with the operands each format carries (R101, R104). -/

namespace Sys2Proof

/-- One constructor per row of spec/opcode_table.json. -/
inductive Instr where
  | nop
  | init
  | hardReset
  | waitBusy
  | sendCmd (b : Byte)
  | sendData (b : Byte)
  /-- LEN32 is the number of payload bytes (R105). -/
  | sendBuf (payload : List Byte)
  | setPollLimit (val : BitVec 32)
  | fbCreate (w h : BitVec 16)
  | fbDestroy
  | fbClear (color : Byte)
  | fbPixel (x y : BitVec 16) (color : Byte)
  | fbRead (x y : BitVec 16)
  | attach
  | detach
  | update
  deriving DecidableEq, Repr

/-- The request's mnemonic (30_encoding.md R103). -/
def Instr.mnemonic : Instr → String
  | .nop            => "NOP"
  | .init           => "INIT"
  | .hardReset      => "HARD_RESET"
  | .waitBusy       => "WAIT_BUSY"
  | .sendCmd _      => "SEND_CMD"
  | .sendData _     => "SEND_DATA"
  | .sendBuf _      => "SEND_BUF"
  | .setPollLimit _ => "SET_POLL_LIMIT"
  | .fbCreate _ _   => "FB_CREATE"
  | .fbDestroy      => "FB_DESTROY"
  | .fbClear _      => "FB_CLEAR"
  | .fbPixel _ _ _  => "FB_PIXEL"
  | .fbRead _ _     => "FB_READ"
  | .attach         => "ATTACH"
  | .detach         => "DETACH"
  | .update         => "UPDATE"

end Sys2Proof
end

