-- ==== Sys2Proof/Decode.lean ====
section
/-! DEFINITION. The encoding of 30_encoding.md: header fields (R101), formats (R102), the opcode table (R103), payload beats
(R105, 20_memory.md R75), the decoder, total and rejecting by name (R106), and the encoder written from the same table. -/

namespace Sys2Proof

/-! ### Header fields (R101) -/

/-- `beat[7:0]` -/
def beatOp (h : Beat) : BitVec 8 := h.extractLsb' 0 8

/-- `beat[15:8]` -/
def beatImm8 (h : Beat) : Byte := h.extractLsb' 8 8

/-- `beat[47:32]` -/
def beatX (h : Beat) : BitVec 16 := h.extractLsb' 32 16

/-- `beat[63:48]` -/
def beatY (h : Beat) : BitVec 16 := h.extractLsb' 48 16

/-- `beat[63:32]`, the bits of {Y, X} read as LEN32 or VAL32 -/
def beatVal32 (h : Beat) : BitVec 32 := h.extractLsb' 32 32

/-! ### Payload (R105, 20_memory.md R75) -/

/-- The number of payload beats a header announces, "whatever the other header bits hold" (R105). -/
def payloadBeats (h : Beat) : Nat :=
  if beatOp h = 0x06 then ceil8 (beatVal32 h).toNat else 0

/-- Payload byte `m` is lane `m mod 8` of payload beat `m div 8` (20_memory.md R75). -/
def payloadByte (beats : List Beat) (m : Nat) : Byte :=
  (beats.getD (m / 8) 0).extractLsb' (8 * (m % 8)) 8

/-- Bytes 0 to LEN32 − 1 of the payload beats; unused lanes of the last beat are ignored (20_memory.md R75). -/
def payloadBytes (len : Nat) (beats : List Beat) : List Byte :=
  (List.range len).map (payloadByte beats)

/-! ### Formats (R102) and the opcode table (R103) -/

/-- The seven formats of R102. -/
inductive Format where
  | N | B | L | W | D | P | R
  deriving DecidableEq, Repr

/-- The bits the decoder compares: OP and every bit the format requires to be zero (R102). -/
def Format.mask : Format → Beat
  | .N => 0xFFFFFFFFFFFFFFFF
  | .B => 0xFFFFFFFFFFFF00FF
  | .L => 0x00000000FFFFFFFF
  | .W => 0x00000000FFFFFFFF
  | .D => 0x00000000FFFFFFFF
  | .P => 0x00000000FFFF00FF
  | .R => 0x00000000FFFFFFFF

/-- A row of R103, with the request it stands for. -/
structure OpRow where
  mnemonic : String
  op       : BitVec 8
  format   : Format
  /-- The request, from the header and its payload beats (R104, R105). -/
  build    : Beat → List Beat → Instr

/-- `match` of R102: "the opcode in bits [7:0] with every other masked bit 0". -/
def OpRow.pattern (r : OpRow) : Beat := r.op.setWidth 64

/-- "A header matches an opcode row when `(beat & mask) = match`" (R102). -/
def OpRow.accepts (r : OpRow) (h : Beat) : Bool := decide (h &&& r.format.mask = r.pattern)

/-- The opcode map of R103, in the table's order. -/
def opTable : List OpRow :=
  [ ⟨"NOP",            0x00, .N, fun _ _ => .nop⟩,
    ⟨"INIT",           0x01, .N, fun _ _ => .init⟩,
    ⟨"HARD_RESET",     0x02, .N, fun _ _ => .hardReset⟩,
    ⟨"WAIT_BUSY",      0x03, .N, fun _ _ => .waitBusy⟩,
    ⟨"SEND_CMD",       0x04, .B, fun h _ => .sendCmd (beatImm8 h)⟩,
    ⟨"SEND_DATA",      0x05, .B, fun h _ => .sendData (beatImm8 h)⟩,
    ⟨"SEND_BUF",       0x06, .L, fun h p => .sendBuf (payloadBytes (beatVal32 h).toNat p)⟩,
    ⟨"SET_POLL_LIMIT", 0x07, .W, fun h _ => .setPollLimit (beatVal32 h)⟩,
    ⟨"FB_CREATE",      0x10, .D, fun h _ => .fbCreate (beatX h) (beatY h)⟩,
    ⟨"FB_DESTROY",     0x11, .N, fun _ _ => .fbDestroy⟩,
    ⟨"FB_CLEAR",       0x12, .B, fun h _ => .fbClear (beatImm8 h)⟩,
    ⟨"FB_PIXEL",       0x13, .P, fun h _ => .fbPixel (beatX h) (beatY h) (beatImm8 h)⟩,
    ⟨"FB_READ",        0x14, .R, fun h _ => .fbRead (beatX h) (beatY h)⟩,
    ⟨"ATTACH",         0x20, .N, fun _ _ => .attach⟩,
    ⟨"DETACH",         0x21, .N, fun _ _ => .detach⟩,
    ⟨"UPDATE",         0x22, .N, fun _ _ => .update⟩ ]

/-! ### Decoding -/

/-- Why a header or a beat list is no request. The first two are ILLEGAL_OP (R106); the last two say that beats are
still to come (R315 (b)). -/
inductive DecodeError where
  | unassignedOp | mustBeZero | noHeader | payloadMissing
  deriving DecidableEq, Repr

/-- What the decoder answers. -/
inductive Decoded where
  | request (i : Instr)
  | rejected (e : DecodeError)
  deriving DecidableEq, Repr

/-- Decode a header with its payload beats, which `payloadBeats` counted (R105, R106). -/
def decodeRequest (h : Beat) (payload : List Beat) : Decoded :=
  match opTable.find? (fun r => r.op == beatOp h) with
  | none   => .rejected .unassignedOp
  | some r => if r.accepts h then .request (r.build h payload) else .rejected .mustBeZero

/-- Decode the request at the head of a beat list, and give the beats after it. Total on every list; the payload beats
of an illegal header are consumed too (R105). -/
def decodeBeats : List Beat → Decoded × List Beat
  | []        => (.rejected .noHeader, [])
  | h :: rest =>
    if rest.length < payloadBeats h then (.rejected .payloadMissing, h :: rest)
    else (decodeRequest h (rest.take (payloadBeats h)), rest.drop (payloadBeats h))

/-! ### Encoding (R101, R105, R111) -/

/-- A header from its fields: `OP | IMM8<<8 | X<<32 | Y<<48`, the reserved bits [31:16] zero (R101, R111). -/
def headerXY (op : BitVec 8) (imm : Byte) (x y : BitVec 16) : Beat := y ++ x ++ (0#16) ++ imm ++ op

/-- A header of formats L and W: `OP | LEN32<<32` (R111). -/
def headerVal (op : BitVec 8) (v : BitVec 32) : Beat := v ++ (0#24) ++ op

/-- Payload beat `j`: byte `8j + r` in lane `r`, unused lanes zero (20_memory.md R75). -/
def payloadBeat (bs : List Byte) (j : Nat) : Beat :=
  bs.getD (8 * j + 7) 0 ++ bs.getD (8 * j + 6) 0 ++ bs.getD (8 * j + 5) 0 ++ bs.getD (8 * j + 4) 0
    ++ bs.getD (8 * j + 3) 0 ++ bs.getD (8 * j + 2) 0 ++ bs.getD (8 * j + 1) 0 ++ bs.getD (8 * j) 0

/-- The payload beats of a byte list (R105). -/
def encodePayload (bs : List Byte) : List Beat := (List.range (ceil8 bs.length)).map (payloadBeat bs)

/-- The header of a request (R103, R111). -/
def encodeHeader : Instr → Beat
  | .nop            => headerXY 0x00 0 0 0
  | .init           => headerXY 0x01 0 0 0
  | .hardReset      => headerXY 0x02 0 0 0
  | .waitBusy       => headerXY 0x03 0 0 0
  | .sendCmd b      => headerXY 0x04 b 0 0
  | .sendData b     => headerXY 0x05 b 0 0
  | .sendBuf bs     => headerVal 0x06 (BitVec.ofNat 32 bs.length)
  | .setPollLimit v => headerVal 0x07 v
  | .fbCreate w h   => headerXY 0x10 0 w h
  | .fbDestroy      => headerXY 0x11 0 0 0
  | .fbClear c      => headerXY 0x12 c 0 0
  | .fbPixel x y c  => headerXY 0x13 c x y
  | .fbRead x y     => headerXY 0x14 0 x y
  | .attach         => headerXY 0x20 0 0 0
  | .detach         => headerXY 0x21 0 0 0
  | .update         => headerXY 0x22 0 0 0

/-- The payload bytes a request carries after its header (R105). -/
def instrPayload : Instr → List Byte
  | .nop            => []
  | .init           => []
  | .hardReset      => []
  | .waitBusy       => []
  | .sendCmd _      => []
  | .sendData _     => []
  | .sendBuf bs     => bs
  | .setPollLimit _ => []
  | .fbCreate _ _   => []
  | .fbDestroy      => []
  | .fbClear _      => []
  | .fbPixel _ _ _  => []
  | .fbRead _ _     => []
  | .attach         => []
  | .detach         => []
  | .update         => []

/-- The beats of a request: its header and its payload beats (R100). -/
def encode (i : Instr) : List Beat := encodeHeader i :: encodePayload (instrPayload i)

/-! ### The host's view of one table word -/

/-- The header beat of a table word: its `nbits` low bits, up to one beat (log 19). -/
def tableHeader (nbits w : Nat) : Beat := BitVec.ofNat 64 (w % 2 ^ nbits)

/-- The beats after the header of a table word: as many as the header announces, their bits from `w` and zero above
`nbits` (log 19). -/
def tablePayload (nbits w : Nat) : List Beat :=
  (List.range (payloadBeats (tableHeader nbits w))).map
    fun k => BitVec.ofNat 64 ((w % 2 ^ nbits) >>> (64 * (k + 1)))

/-- The request the decoder reads from the bits `w` of a table row. -/
def decodeTableWord (nbits w : Nat) : Option Instr :=
  match decodeRequest (tableHeader nbits w) (tablePayload nbits w) with
  | .request i  => some i
  | .rejected _ => none

end Sys2Proof
end

