-- ==== Sys2Proof/Config.lean ====
section
/-! DEFINITION. The parameters of 00_scope.md R6 as plain data, their well-formedness (R7, 43_panel_driver.md R219),
the example configuration EX of 95_test_vectors.md, the opaque legal configuration of the chip, and the free values:
what the spec calls a draw of the environment (R14) or leaves unspecified (93_implementation_defined.md U9 to U14). -/

namespace Sys2Proof

/-- The delays that appear in `Wait` events (00_scope.md R6, R12). -/
inductive DelayName where
  | rstHigh1 | rstLow | rstHigh2 | initSettle | refreshSettle | poll | busySettle
  deriving DecidableEq, Repr

/-- What the transport answers to `BusSetup()` (00_scope.md R9). -/
inductive SetupAnswer where
  | ok | fail
  deriving DecidableEq, Repr, Inhabited

/-- What the transport answers to one `Xfer` (43_panel_driver.md R203): all bytes moved, or a failure after `k` bytes. -/
inductive XferAnswer where
  | ok
  | err (k : Nat)
  deriving DecidableEq, Repr, Inhabited

/-- An entry of INIT_TABLE (43_panel_driver.md R219). -/
structure InitEntry where
  cmd   : Byte
  count : Nat
  wait  : Bool
  data  : List Byte
  deriving DecidableEq, Repr

/-- The parameters of 00_scope.md R6. Durations are in nanoseconds (log 10); clocks in hertz. The two DC levels are
fixed by decision D11 and stand below as `dcCommandLevel` and `dcDataLevel`. FONT lists codepoints with their glyphs. The
reference literals are defaults (93_implementation_defined.md U18). -/
structure Config where
  fbMaxW           : Nat
  fbMaxH           : Nat
  panelW           : Nat
  panelH           : Nat
  cmdStartBw       : Byte
  cmdStartRed      : Byte
  cmdRefresh       : Byte
  cmdGetStatus     : Byte
  initTable        : List InitEntry
  busyActiveLevel  : Level
  tRstHigh1        : Nat := 200000000
  tRstLow          : Nat := 10000000
  tRstHigh2        : Nat := 200000000
  tInitSettle      : Nat
  tRefreshSettle   : Nat
  tPoll            : Nat
  tBusySettle      : Nat
  tXferMax         : Nat
  busClkHz         : Nat := 1000000
  clkHz            : Nat
  defaultPollLimit : BitVec 32
  glyphW           : Nat
  glyphH           : Nat
  font             : List (Nat × List Byte)
  tDumpRow         : Nat
  deriving DecidableEq, Repr

/-- DC_COMMAND_LEVEL is 0 (00_scope.md R6, decision D11). -/
def dcCommandLevel : Level := false

/-- DC_DATA_LEVEL is 1 (00_scope.md R6, decision D11). -/
def dcDataLevel : Level := true

/-- The duration of a named delay, in nanoseconds (00_scope.md R6). -/
def Config.duration (c : Config) : DelayName → Nat
  | .rstHigh1      => c.tRstHigh1
  | .rstLow        => c.tRstLow
  | .rstHigh2      => c.tRstHigh2
  | .initSettle    => c.tInitSettle
  | .refreshSettle => c.tRefreshSettle
  | .poll          => c.tPoll
  | .busySettle    => c.tBusySettle

/-- The least number of clock cycles the delay counter counts for a delay: `ceil(T·CLK_HZ)` (60_exceptions.md R310). -/
def Config.delayCycles (c : Config) (t : DelayName) : Nat := (c.duration t * c.clkHz + 999999999) / 1000000000

/-- 43_panel_driver.md R219 (a), (b), (c) for one entry of the table. -/
def InitEntry.wf (refresh : Byte) (e : InitEntry) : Bool :=
  decide (e.count ≤ 16) && decide (e.data.length = e.count) && decide (e.cmd ≠ refresh)

/-- 00_scope.md R7 (a) to (h); (c), (f) and (h) hold by the types of the fields. -/
def Config.wf (c : Config) : Bool :=
  decide (1 ≤ c.fbMaxW) && decide (c.fbMaxW ≤ 65535) && decide (1 ≤ c.fbMaxH) && decide (c.fbMaxH ≤ 65535)
    && decide (1 ≤ c.panelW) && decide (c.panelW ≤ 65535) && decide (1 ≤ c.panelH) && decide (c.panelH ≤ 65535)
    && decide (c.cmdGetStatus ≠ c.cmdRefresh)
    && c.initTable.all (InitEntry.wf c.cmdRefresh)
    && decide (c.defaultPollLimit ≠ 0)

/-- The example configuration EX of 95_test_vectors.md section 0, used by tests only: "one legal value of the
parameters", "not a claim about any panel". Delays EX leaves open are given 1 µs here. -/
def Config.ex : Config where
  fbMaxW := 32
  fbMaxH := 32
  panelW := 16
  panelH := 8
  cmdStartBw := 0x10
  cmdStartRed := 0x13
  cmdRefresh := 0x12
  cmdGetStatus := 0x71
  initTable := [⟨0x04, 0, true, []⟩, ⟨0x50, 1, false, [0x77]⟩]
  busyActiveLevel := false
  tRstHigh1 := 200000000
  tRstLow := 10000000
  tRstHigh2 := 200000000
  tInitSettle := 1000
  tRefreshSettle := 1000
  tPoll := 1000
  tBusySettle := 1000
  tXferMax := 1000
  busClkHz := 1000000
  clkHz := 1000000
  defaultPollLimit := 3
  glyphW := 2
  glyphH := 2
  font := [(65, [0x80, 0x40]), (66, [0xC0, 0xC0])]
  tDumpRow := 1000

theorem Config.ex_wf : Config.ex.wf = true := by decide

/-- Some legal configuration, about which nothing else is known: the OPEN parameters of 00_scope.md R6 (log 1). -/
opaque Config.implementation [Inhabited {c : Config // c.wf = true}] : {c : Config // c.wf = true}

/-- The configuration of the chip that `State.reset` holds. No proof can see more of it than `Config.chip_wf`. -/
def Config.chip : Config := (@Config.implementation ⟨⟨Config.ex, Config.ex_wf⟩⟩).val

theorem Config.chip_wf : Config.chip.wf = true := (@Config.implementation ⟨⟨Config.ex, Config.ex_wf⟩⟩).property

/-- FREE VALUE (log 3): the answer of the n-th free draw, if it is a `BusSetup()` (00_scope.md R14). -/
opaque Config.freeSetup : Nat → SetupAnswer

/-- FREE VALUE (log 3): the answer of the n-th free draw, if it is an `Xfer` (00_scope.md R14). -/
opaque Config.freeXfer : Nat → XferAnswer

/-- FREE VALUE (log 3): the level of the n-th free draw, if it is a `SampleBusy()` (00_scope.md R14). -/
opaque Config.freeSample : Nat → Level

/-- FREE VALUE (log 7): what FB cell `i` holds while it is unspecified, in the epoch `e` (10_state.md R58, U13). -/
opaque Config.freeCell : (e i : Nat) → BitVec 2

/-- FREE VALUE (log 8): what PB byte `k` holds while nothing has been packed into it, in the epoch `e` (R58, U14). -/
opaque Config.freePlaneByte : (e k : Nat) → Byte

end Sys2Proof
end

