-- ==== Sys2Proof/Machine/State.lean ====
section
/-! DEFINITION. The state of EPHB as plain data: every element of 10_state.md R30, the sequencer's hidden micro-state (R52),
and the model's own fields for the other two agents (00_scope.md R5): what the host has sent and received, what the
environment has prepared, and which agent moves next. -/

namespace Sys2Proof.Machine

/-- DRV_STATE (10_state.md R31). The values 5, 6 and 7 are never held, so they have no constructor. -/
inductive DrvState where
  | uninit | busConfigured | resetComplete | initApplied | ready
  deriving DecidableEq, Repr

/-- The numeric value that orders the driver states (R31). -/
def DrvState.num : DrvState → Nat
  | .uninit        => 0
  | .busConfigured => 1
  | .resetComplete => 2
  | .initApplied   => 3
  | .ready         => 4

/-- The result codes (60_exceptions.md R300). The codes 9 to 15 are never produced, so they have no constructor. -/
inductive ResultCode where
  | ok | illegalOp | illegalColor | stateError | allocError | boundsError | setupError | transferError | notResponding
  deriving DecidableEq, Repr

/-- The number of a result code (R300). -/
def ResultCode.num : ResultCode → Nat
  | .ok            => 0
  | .illegalOp     => 1
  | .illegalColor  => 2
  | .stateError    => 3
  | .allocError    => 4
  | .boundsError   => 5
  | .setupError    => 6
  | .transferError => 7
  | .notResponding => 8

/-- What an output pin drives (10_state.md R45): not driven, driven at an unspecified level, or 0 or 1. -/
inductive PinLevel where
  | z | x | low | high
  deriving DecidableEq, Repr

/-- The pin level of a driven 0 or 1. -/
def PinLevel.ofLevel : Level → PinLevel
  | false => .low
  | true  => .high

/-- The two bit planes (10_state.md R38). -/
inductive Plane where
  | black | red
  deriving DecidableEq, Repr

/-- The events of the trace (00_scope.md R12). -/
inductive Event where
  | cfg
  | setup (r : SetupAnswer)
  | rst (v : Level)
  | byte (dc : Level) (b : Byte)
  | xferErr
  | wait (t : DelayName)
  | sample (v : Level)
  deriving DecidableEq, Repr

/-- One response (60_exceptions.md R316). -/
structure Response where
  result : ResultCode
  data   : Byte
  deriving DecidableEq, Repr

/-- What the requests that move no byte do between their checks and their end (41_framebuffer.md R141 to R145, 42_renderer.md
R170, R171, 43_panel_driver.md R216). -/
inductive Effect where
  /-- `FB_W <- w ; FB_H <- h`, the WHITE fill and `FB_VALID <- 1` (R141), at once (log 22) -/
  | createFb (w h : BitVec 16)
  /-- `FB_VALID <- 0 ; FB_W <- 0 ; FB_H <- 0`, every cell unspecified (R142) -/
  | destroyFb
  /-- `for i in 0 .. FB_W*FB_H - 1: FB[i] <- c` (R143), at once (log 22) -/
  | fillFb (c : BitVec 2)
  /-- `FB[i] <- c` (R144) -/
  | writeCell (i : Nat) (c : BitVec 2)
  /-- `RDATA <- zext_8(FB[i])` (R145) -/
  | readCell (i : Nat)
  /-- `ATTACHED <- b` (R170, R171) -/
  | setAttached (b : Bool)
  /-- `POLL_LIMIT <- v` (R216) -/
  | setPollLimit (v : BitVec 32)
  deriving DecidableEq, Repr

/-- One statement of a request's pseudocode that the sequencer still has to perform: its micro-state (10_state.md R52) is the
list of them. Each is one micro-step (log 4). -/
inductive SeqOp where
  /-- `DRV_STATE <- d` -/
  | setDrv (d : DrvState)
  /-- `ConfigurePins()` (R209) -/
  | configurePins
  /-- `r <- BusSetup()`; `if r = fail: raise SETUP_ERROR` (R209) -/
  | busSetup
  /-- `RST_OUT <- v ; Emit(Rst(v))` (R206, R209) -/
  | driveRst (v : Level)
  /-- `DC_OUT <- v` (R200 to R202, R209) -/
  | driveDc (v : Level)
  /-- `Delay(t)` (R204) -/
  | delay (t : DelayName)
  /-- `Xfer(dc, bytes)`, its answer not yet drawn (R203) -/
  | xfer (dc : Level) (bytes : List Byte)
  /-- one byte of a transfer that moves (R203) -/
  | moveByte (dc : Level) (b : Byte)
  /-- `Emit(XferErr)`; `raise TRANSFER_ERROR` (R203) -/
  | xferFail
  /-- the next poll of a handshake that has done `n` polls (R205) -/
  | poll (n : BitVec 32)
  /-- `v <- SampleBusy()` and the two tests after it, `n` polls done before (R205) -/
  | sample (n : BitVec 32)
  /-- `PackPlane(mask)` into PB (42_renderer.md R172) -/
  | packPlane (p : Plane)
  /-- the `Xfer` of the plane bytes in PB (42_renderer.md R176) -/
  | sendPlane
  /-- the writes of a request that moves no byte -/
  | effect (e : Effect)
  /-- `raise e`, for a check that fails (60_exceptions.md R301, R303) -/
  | raise (e : ResultCode)
  /-- `complete(0x00)` -/
  | complete
  /-- `complete(RDATA)` (41_framebuffer.md R145) -/
  | completeRead
  deriving DecidableEq, Repr

/-- The sequencer's micro-state (10_state.md R52): idle, receiving the payload of an accepted header (60_exceptions.md
R315 (b)), or executing the statements that are left of a request. -/
inductive Sequencer where
  | idle
  | receiving (header : Beat) (got : List Beat)
  | running (ops : List SeqOp)
  deriving DecidableEq, Repr

/-- Whose move the next step is (log 4): the sequencer, for at most `k` micro-steps, or the host's block reset
(70_reset_and_hazards.md R340). -/
inductive Turn where
  | sequencer (k : Nat)
  | blockReset
  deriving DecidableEq, Repr

/-- Answers the environment has prepared, next first (00_scope.md R14, log 3). -/
structure Environment where
  setups  : List SetupAnswer
  xfers   : List XferAnswer
  samples : List Level
  deriving DecidableEq, Repr

/-- The framebuffer store's listed cells: cell index and color code, in one canonical form (`Memory.wf`). A cell that is
not listed holds WHITE while it is reachable (log 9). -/
abbrev Memory := List (Nat × BitVec 2)

/-- The state. The first sixteen fields are the elements of 10_state.md R30; the rest are the model's own (logs 1 to 4). -/
structure State where
  /-- DRV_STATE (R31) -/
  drv            : DrvState
  /-- OP_BUSY (R34) -/
  opBusy         : Bool
  /-- FB_VALID (R35) -/
  fbValid        : Bool
  /-- FB_W (R35) -/
  fbW            : BitVec 16
  /-- FB_H (R35) -/
  fbH            : BitVec 16
  /-- FB (R36), read through `State.fbCell` -/
  fb             : Memory
  /-- ATTACHED (R39) -/
  attached       : Bool
  /-- PB (R40): the bytes packed so far, byte 0 first, read through `State.pbByte` -/
  pb             : List Byte
  /-- POLL_LIMIT (R41) -/
  pollLimit      : BitVec 32
  /-- LAST_RESULT (R42) -/
  lastResult     : ResultCode
  /-- FAULTS (R43) -/
  faults         : BitVec 16
  /-- RDATA (R44) -/
  rdata          : Byte
  /-- PINS_CONFIGURED (R45) -/
  pinsConfigured : Bool
  /-- RST_OUT (R45) -/
  rstOut         : PinLevel
  /-- DC_OUT (R45) -/
  dcOut          : PinLevel
  /-- the sequencer's micro-state (R52) -/
  seq            : Sequencer
  /-- the parameters (00_scope.md R6); no step writes them -/
  cfg            : Config
  /-- beats the host has put on the request channel and the block has not accepted -/
  requests       : List Beat
  /-- the responses, oldest first (00_scope.md R13) -/
  responses      : List Response
  /-- the trace, oldest first (00_scope.md R12) -/
  trace          : List Event
  /-- answers the environment has prepared -/
  env            : Environment
  /-- counts the free draws -/
  drawn          : Nat
  /-- counts the times FB became unspecified -/
  unspec         : Nat
  /-- counts the times PB became unspecified -/
  pbUnspec       : Nat
  /-- which agent moves next -/
  turns          : List Turn
  /-- micro-steps granted in the current turn; none: no bound -/
  slice          : Option Nat
  deriving DecidableEq, Repr

/-- Why a step stops the model. -/
inductive Fault where
  /-- Raised by `step` alone, in a state whose sequencer is executing a request with no statement left. Safe: the block
  has no such state, and no state that meets `Inv` is one (log 15). -/
  | sequencerLost
  deriving DecidableEq, Repr

/-- Why the model gives no meaning. -/
inductive Refusal where
  /-- Raised by an arm of `exec` whose instruction has no meaning yet; no arm raises it. Safe. -/
  | notModelled (mnemonic : String)
  /-- Raised by `State.boot` for a configuration that breaks 00_scope.md R7: "A model refuses a configuration that breaks
  any of these conditions". Safe. -/
  | illegalConfiguration
  deriving DecidableEq, Repr

/-- The state right after block reset, for a given configuration (10_state.md R58). Nothing is observed yet, no answer is
prepared and no turn is scheduled. -/
def State.resetWith (c : Config) : State where
  drv := .uninit
  opBusy := false
  fbValid := false
  fbW := 0
  fbH := 0
  fb := []
  attached := false
  pb := []
  pollLimit := c.defaultPollLimit
  lastResult := .ok
  faults := 0
  rdata := 0
  pinsConfigured := false
  rstOut := .z
  dcOut := .z
  seq := .idle
  cfg := c
  requests := []
  responses := []
  trace := []
  env := ⟨[], [], []⟩
  drawn := 0
  unspec := 0
  pbUnspec := 0
  turns := []
  slice := none

/-- The machine right after reset (R58), with the chip's configuration. -/
def State.reset : State := State.resetWith Config.chip

end Sys2Proof.Machine
end

