-- ==== Sys2Proof/Machine/Flags.lean ====
section
/-! DEFINITION. The flags of EPHB: result codes and driver states as bits, the sticky FAULTS record (10_state.md R43), and the
sideband words that show them (R47 to R51). There are no condition codes (R56). -/

namespace Sys2Proof.Machine

/-- The 3-bit encoding of DRV_STATE (10_state.md R31). -/
def DrvState.code (d : DrvState) : BitVec 3 := BitVec.ofNat 3 d.num

/-- The 4-bit result code (60_exceptions.md R300). -/
def ResultCode.code (r : ResultCode) : BitVec 4 := BitVec.ofNat 4 r.num

/-- `a < b` on driver states, in the order of their numeric values (10_state.md R31). -/
def DrvState.below (a b : DrvState) : Bool := decide (a.num < b.num)

/-- `FAULTS[E] <- 1` (60_exceptions.md R301). -/
def setFault (faults : BitVec 16) (e : ResultCode) : BitVec 16 := faults ||| (1#16 <<< e.num)

/-- FAULTS as it reads: "Bits 0 and 9..15 always read 0" (10_state.md R43, log 20). -/
def faultsRead (faults : BitVec 16) : BitVec 16 := faults &&& 0x01FE

/-- `FAULTS[n] = 1`, for an error code (10_state.md R43). -/
def hasFault (faults : BitVec 16) (e : ResultCode) : Bool := faults.getLsbD e.num

/-- STATUS (10_state.md R48). `pin` is the level the busy-sense pin shows at this read (R46, log 11). -/
def State.status (pin : Level) (s : State) : BitVec 32 :=
  faultsRead s.faults ++ (0#4) ++ s.lastResult.code ++ BitVec.ofBool s.pinsConfigured ++ BitVec.ofBool pin
    ++ BitVec.ofBool s.fbValid ++ BitVec.ofBool s.attached ++ BitVec.ofBool s.opBusy ++ s.drv.code

/-- DIMS (10_state.md R49). -/
def State.dims (s : State) : BitVec 32 := s.fbH ++ s.fbW

/-- A read of sideband word `index` (10_state.md R47). It is a function of the state and the pin: "A read has no side
effect", and it may be made in any state, also while a request executes. -/
def State.sideband (pin : Level) (index : Nat) (s : State) : BitVec 32 :=
  match index with
  | 0 => s.status pin
  | 1 => s.dims
  | 2 => s.pollLimit
  | 3 => s.rdata.setWidth 32
  | _ => 0

end Sys2Proof.Machine
end

