-- ==== Sys2Proof/Machine/Ops.lean ====
section
/-! DEFINITION. The shared operations: the framebuffer store's cells, the plane buffer's bytes, the environment's draws, the
two ends of a request (`State.raise`, `State.complete`: 60_exceptions.md R301, R302), block reset (70_reset_and_hazards.md
R340), the request channel (60_exceptions.md R315) and the turns of the three agents. -/

namespace Sys2Proof.Machine

/-! ### The framebuffer store's listed cells -/

/-- What a listed store holds at an index; a cell that is not listed holds WHITE = 0 (log 9). -/
def Memory.read : Memory → Nat → BitVec 2
  | [], _ => 0#2
  | (j, v) :: rest, i => if j = i then v else Memory.read rest i

/-- Write one cell, keeping the canonical form: writing WHITE removes the entry. -/
def Memory.write : Memory → Nat → BitVec 2 → Memory
  | [], i, v => if v = 0#2 then [] else [(i, v)]
  | (j, w) :: rest, i, v =>
    if i < j then (if v = 0#2 then (j, w) :: rest else (i, v) :: (j, w) :: rest)
    else if i = j then (if v = 0#2 then rest else (i, v) :: rest)
    else (j, w) :: Memory.write rest i v

/-- Write `v` to the cells 0 to `n − 1` (41_framebuffer.md R141, R143). -/
def Memory.fill (m : Memory) (n : Nat) (v : BitVec 2) : Memory :=
  (if v = 0#2 then [] else (List.range n).map fun i => (i, v)) ++ m.filter fun e => decide (n ≤ e.1)

/-- The loop of 41_framebuffer.md R141 and R143, one cell write after another: what `Memory.fill` does at once. -/
def Memory.fillLoop (m : Memory) (n : Nat) (v : BitVec 2) : Memory :=
  (List.range n).foldl (fun acc i => Memory.write acc i v) m

/-- The canonical form: indexes strictly rising, no WHITE entry. -/
def Memory.wf (m : Memory) : Bool :=
  decide (m.Pairwise fun a b => a.1 < b.1) && m.all fun e => decide (e.2 ≠ 0#2)

/-- The number of cells of the current framebuffer (10_state.md R36). -/
def State.fbCells (s : State) : Nat := s.fbW.toNat * s.fbH.toNat

/-- FB cell `i`: what it holds while it is a cell of the current framebuffer; else unspecified (10_state.md R58,
20_memory.md R87, log 7). -/
def State.fbCell (s : State) (i : Nat) : BitVec 2 :=
  if i < s.fbCells then Memory.read s.fb i else Config.freeCell s.unspec i

/-- `FB[i] <- c` (00_scope.md R9). -/
def State.writeCell (i : Nat) (c : BitVec 2) (s : State) : State := { s with fb := Memory.write s.fb i c }

/-- `for i in 0 .. n-1: FB[i] <- c` (41_framebuffer.md R141, R143). -/
def State.fillCells (n : Nat) (c : BitVec 2) (s : State) : State := { s with fb := Memory.fill s.fb n c }

/-! ### The plane buffer -/

/-- PB byte `k`: what was packed into it last; unspecified if nothing was (10_state.md R58, U14, log 8). -/
def State.pbByte (s : State) (k : Nat) : Byte := s.pb.getD k (Config.freePlaneByte s.pbUnspec k)

/-- Write a packed plane to PB from byte 0; bytes above it keep what they hold (42_renderer.md R172). -/
def State.writePb (bytes : List Byte) (s : State) : State := { s with pb := bytes ++ s.pb.drop bytes.length }

/-! ### The trace and the two ends of a request -/

/-- `Emit(e)` (00_scope.md R9). -/
def State.emit (e : Event) (s : State) : State := { s with trace := s.trace ++ [e] }

/-- The statements that are left of the request (10_state.md R52). -/
def State.goto (ops : List SeqOp) (s : State) : State := { s with seq := .running ops }

/-- What both ends of a request do: `LAST_RESULT <- r`; `respond(r, d)`; `OP_BUSY <- 0`; the request ends
(60_exceptions.md R301, R302, R316). -/
def State.respond (r : ResultCode) (d : Byte) (s : State) : State :=
  { s with lastResult := r, responses := s.responses ++ [⟨r, d⟩], opBusy := false, seq := .idle }

/-- `complete(d)` (60_exceptions.md R302). -/
def State.complete (d : Byte) (s : State) : State := s.respond .ok d

/-- `raise E` (60_exceptions.md R301): EPHB's one way of taking an error. There is no return from it: "The next request the
host sends plays the part of the return" (R306). -/
def State.raise (e : ResultCode) (s : State) : State := { s.respond e 0x00 with faults := setFault s.faults e }

/-! ### The writes of a request that moves no byte -/

/-- What an effect writes. FB_CREATE's writes are one, so that no state shows dimensions without a framebuffer, which
10_state.md R35 rules out; the order of R141 would show one (log 22). After FB_DESTROY every cell is unspecified, so nothing
stays listed (R142, log 7). -/
def State.apply (e : Effect) (s : State) : State :=
  match e with
  | .createFb w h   =>
    { State.fillCells (w.toNat * h.toNat) 0#2 { s with fbW := w, fbH := h } with fbValid := true }
  | .destroyFb      => { s with fbValid := false, fbW := 0, fbH := 0, fb := [], unspec := s.unspec + 1 }
  | .fillFb c       => s.fillCells s.fbCells c
  | .writeCell i c  => s.writeCell i c
  | .readCell i     => { s with rdata := (s.fbCell i).setWidth 8 }
  | .setAttached b  => { s with attached := b }
  | .setPollLimit v => { s with pollLimit := v }

/-! ### The environment's draws (00_scope.md R14, log 3) -/

/-- The answer of the next `BusSetup()`. -/
def State.setupAnswer (s : State) : SetupAnswer := (s.env.setups.head?).getD (Config.freeSetup s.drawn)

/-- The answer of the next `Xfer`. -/
def State.xferAnswer (s : State) : XferAnswer := (s.env.xfers.head?).getD (Config.freeXfer s.drawn)

/-- The level of the next `SampleBusy()`. -/
def State.sampleAnswer (s : State) : Level := (s.env.samples.head?).getD (Config.freeSample s.drawn)

/-- The next `BusSetup()` answer is used up. -/
def State.drawSetup (s : State) : State :=
  { s with env := { s.env with setups := s.env.setups.tail }
           drawn := if s.env.setups.isEmpty then s.drawn + 1 else s.drawn }

/-- The next `Xfer` answer is used up. -/
def State.drawXfer (s : State) : State :=
  { s with env := { s.env with xfers := s.env.xfers.tail }
           drawn := if s.env.xfers.isEmpty then s.drawn + 1 else s.drawn }

/-- The next `SampleBusy()` answer is used up. -/
def State.drawSample (s : State) : State :=
  { s with env := { s.env with samples := s.env.samples.tail }
           drawn := if s.env.samples.isEmpty then s.drawn + 1 else s.drawn }

/-! ### Configuration and block reset -/

/-- Start the model with a configuration, or refuse it (00_scope.md R7, 43_panel_driver.md R219: "checked by a model
before it runs"). -/
def State.boot (c : Config) : Host.Outcome State Fault Refusal :=
  if c.wf then .next (State.resetWith c) else .refused .illegalConfiguration

/-- Block reset (70_reset_and_hazards.md R340): every element takes its reset value and the request in execution is
abandoned without a response or an event. What was observed stays, as do the beats the host still holds, the
environment's answers and the turns (log 12); FB and PB become unspecified anew. -/
def State.blockReset (s : State) : State :=
  { State.resetWith s.cfg with
    requests  := s.requests
    responses := s.responses
    trace     := s.trace
    env       := s.env
    drawn     := s.drawn
    unspec    := s.unspec + 1
    pbUnspec  := s.pbUnspec + 1
    turns     := s.turns }

/-! ### The request channel (60_exceptions.md R315) -/

/-- What the request channel gives the sequencer. -/
inductive Fetched where
  /-- no request to execute yet: no header, or payload beats still to come -/
  | waiting (s : State)
  /-- a request, to be executed from the state in which its beats are accepted -/
  | request (i : Instr) (s : State)
  /-- an illegal header, its payload beats consumed (30_encoding.md R105, R106) -/
  | illegal (s : State)
  deriving DecidableEq, Repr

/-- The header `h` is accepted and `got` of its payload has arrived: accept what the host has of the rest, at most as
many beats as the header announces (60_exceptions.md R315 (a), (b)). -/
def State.collect (h : Beat) (got : List Beat) (s : State) : Fetched :=
  let need := payloadBeats h - got.length
  let all := got ++ s.requests.take need
  if all.length < payloadBeats h then
    .waiting { s with opBusy := true, seq := .receiving h all, requests := s.requests.drop need }
  else
    match decodeRequest h all with
    | .request i  => .request i { s with opBusy := true, seq := .idle, requests := s.requests.drop need }
    | .rejected _ => .illegal { s with opBusy := true, seq := .idle, requests := s.requests.drop need }

/-- What the request channel gives a sequencer that executes no request. Without a header the block waits (70 R341). -/
def State.fetch (s : State) : Fetched :=
  match s.seq with
  | .receiving h got => s.collect h got
  | .idle | .running _ =>
    match s.requests with
    | []        => .waiting s
    | h :: rest => State.collect h [] { s with requests := rest }

/-- Put requests on the request channel, behind what stands there. -/
def State.issue (is : List Instr) (s : State) : State := { s with requests := s.requests ++ is.flatMap encode }

/-- Take the next turn of the sequencer: with no turn scheduled it is not bounded (log 4). -/
def State.takeTurn (s : State) : State :=
  match s.turns with
  | .sequencer k :: ts => { s with turns := ts, slice := some k }
  | .blockReset :: ts  => { s with turns := ts, slice := none }
  | []                 => { s with slice := none }

/-- Lay a table word's beats where the next step fetches, and make that step the sequencer's own (log 19). -/
def State.placeTableWord (nbits w : Nat) (s : State) : State :=
  { s with
    requests := tableHeader nbits w :: tablePayload nbits w ++ s.requests
    opBusy   := false
    seq      := .idle
    turns    := []
    slice    := none }

end Sys2Proof.Machine
end

