-- ==== Sys2Proof/Machine/Operands.lean ====
section
/-! DEFINITION. Operand checks and index arithmetic: color codes (10_state.md R37, 41_framebuffer.md R146), bounds and the FB
index (R147, 20_memory.md R71), the color-to-plane lookup and the plane packing (42_renderer.md R172, R173). -/

namespace Sys2Proof.Machine

/-- WHITE, BLACK and RED (10_state.md R37). -/
def white : BitVec 2 := 0

/-- BLACK (10_state.md R37) -/
def black : BitVec 2 := 1

/-- RED (10_state.md R37) -/
def red : BitVec 2 := 2

/-- `Legal(c)` (41_framebuffer.md R146). -/
def legalColor (c : Byte) : Bool := decide (c = 0x00) || decide (c = 0x01) || decide (c = 0x02)

/-- The cell code of a legal color byte (10_state.md R37, 20_memory.md R72). -/
def colorCode (c : Byte) : BitVec 2 := c.setWidth 2

/-- `InBounds(x, y)` (41_framebuffer.md R147). -/
def State.inBounds (x y : BitVec 16) (s : State) : Bool :=
  decide (x.toNat < s.fbW.toNat) && decide (y.toNat < s.fbH.toNat)

/-- `FB_IDX(x, y) = y·FB_W + x` (20_memory.md R71). -/
def State.fbIdx (x y : Nat) (s : State) : Nat := y * s.fbW.toNat + x

/-- The stride S = ceil8(FB_W) (00_scope.md R15, 20_memory.md R73). -/
def State.stride (s : State) : Nat := ceil8 s.fbW.toNat

/-- The number of bytes of a plane, S·FB_H (20_memory.md R73, 42_renderer.md R175). -/
def State.planeSize (s : State) : Nat := s.stride * s.fbH.toNat

/-- `PB_IDX(i, j) = j·S + (i div 8)` (20_memory.md R73). -/
def State.pbIdx (i j : Nat) (s : State) : Nat := j * s.stride + i / 8

/-- The plane masks 0x01 and 0x02 (10_state.md R38). -/
def Plane.mask : Plane → BitVec 2
  | .black => 0x01
  | .red   => 0x02

/-- `PlaneBit(c, mask)` (42_renderer.md R173). -/
def planeBit (p : Plane) (c : BitVec 2) : Bool := decide (c &&& p.mask ≠ 0)

/-- The plane bit of pixel (i, j), and 0 where the row has no pixel i (42_renderer.md R172, closed form). -/
def State.pixelBit (p : Plane) (i j : Nat) (s : State) : Bool :=
  decide (i < s.fbW.toNat) && planeBit p (s.fbCell (s.fbIdx i j))

/-- Byte `j·S + q` of a plane: pixel 8q + r is bit 7 − r (42_renderer.md R172, closed form; 20_memory.md R73). -/
def State.packByte (p : Plane) (j q : Nat) (s : State) : Byte :=
  BitVec.ofBool (s.pixelBit p (8 * q) j) ++ BitVec.ofBool (s.pixelBit p (8 * q + 1) j)
    ++ BitVec.ofBool (s.pixelBit p (8 * q + 2) j) ++ BitVec.ofBool (s.pixelBit p (8 * q + 3) j)
    ++ BitVec.ofBool (s.pixelBit p (8 * q + 4) j) ++ BitVec.ofBool (s.pixelBit p (8 * q + 5) j)
    ++ BitVec.ofBool (s.pixelBit p (8 * q + 6) j) ++ BitVec.ofBool (s.pixelBit p (8 * q + 7) j)

/-- `PackPlane(mask)`: the packed plane, row by row (42_renderer.md R172). -/
def State.packPlane (p : Plane) (s : State) : List Byte :=
  (List.range s.fbH.toNat).flatMap fun j => (List.range s.stride).map fun q => s.packByte p j q

/-- The inner statement of R172's loop: set the bit of pixel (i, j) in the packed bytes when its plane bit is 1. -/
def State.packPixel (p : Plane) (j : Nat) (s : State) (buf : List Byte) (i : Nat) : List Byte :=
  if planeBit p (s.fbCell (s.fbIdx i j)) then
    buf.modify (s.pbIdx i j) fun b => b ||| (1#8 <<< (7 - i % 8))
  else buf

/-- R172's pseudocode as it stands: zero the bytes, then set one bit a pixel. What `State.packPlane` does at once. -/
def State.packPlaneLoop (p : Plane) (s : State) : List Byte :=
  (List.range s.fbH.toNat).foldl
    (fun buf j => (List.range s.fbW.toNat).foldl (s.packPixel p j) buf)
    (List.replicate s.planeSize 0)

end Sys2Proof.Machine
end

