-- ==== Sys2Proof/Machine/Sequencer.lean ====
section
/-! DEFINITION. The sequencer: the procedures of 43_panel_driver.md R200 to R209 and of 42_renderer.md R176 as lists of
statements, what one micro-step does with the first of them, and the run of a request to its end or to the end of its turn. -/

namespace Sys2Proof.Machine

/-! ### The procedures, as the statements their pseudocode lists -/

/-- `SendCommand(b)` (R200) -/
def sendCommand (b : Byte) : List SeqOp := [.driveDc dcCommandLevel, .xfer dcCommandLevel [b]]

/-- `SendData(b)` (R201) -/
def sendData (b : Byte) : List SeqOp := [.driveDc dcDataLevel, .xfer dcDataLevel [b]]

/-- `SendDataBuffer(bs)` (R202) -/
def sendDataBuffer (bs : List Byte) : List SeqOp := [.driveDc dcDataLevel, .xfer dcDataLevel bs]

/-- `SendDataBuffer(PackPlane(mask))` (42_renderer.md R176) -/
def sendPackedPlane (p : Plane) : List SeqOp := [.packPlane p, .driveDc dcDataLevel, .sendPlane]

/-- `WaitBusy()` (R205): polls from `n = 0`, then the settle delay. -/
def waitBusy : List SeqOp := [.poll 0, .delay .busySettle]

/-- `HardReset()` (R206) -/
def hardReset : List SeqOp :=
  [.driveRst true, .delay .rstHigh1, .driveRst false, .delay .rstLow, .driveRst true, .delay .rstHigh2]
    ++ waitBusy ++ [.setDrv .resetComplete]

/-- One entry of `ReplayInitTable()` (R207); one `SendData`, so one `Xfer`, per inline byte (decision D43). -/
def replayEntry (e : InitEntry) : List SeqOp :=
  sendCommand e.cmd ++ (e.data.take e.count).flatMap sendData ++ (if e.wait then waitBusy else [])

/-- `ReplayInitTable()` (R207) -/
def replayInitTable (c : Config) : List SeqOp :=
  c.initTable.flatMap replayEntry ++ waitBusy ++ [.setDrv .initApplied]

/-- `ClearPanelWhite()` (R208) -/
def clearPanelWhite (c : Config) : List SeqOp :=
  sendCommand c.cmdStartBw ++ sendDataBuffer (List.replicate (ceil8 c.panelW * c.panelH) 0x00)
    ++ sendCommand c.cmdStartRed ++ sendDataBuffer (List.replicate (ceil8 c.panelW * c.panelH) 0x00)
    ++ sendCommand c.cmdRefresh ++ [.delay .refreshSettle] ++ waitBusy ++ [.setDrv .ready]

/-- `BringUpBus()` (R209) -/
def bringUpBus : List SeqOp := [.busSetup, .driveRst true, .driveDc false, .setDrv .busConfigured]

/-- INIT after its latch check (R210) -/
def initOps (c : Config) : List SeqOp :=
  [.setDrv .uninit, .configurePins] ++ bringUpBus ++ hardReset ++ [.delay .initSettle] ++ replayInitTable c
    ++ clearPanelWhite c ++ [.complete]

/-- UPDATE after its guards (42_renderer.md R176) -/
def updateOps (c : Config) : List SeqOp :=
  sendCommand c.cmdStartBw ++ sendPackedPlane .black ++ sendCommand c.cmdStartRed ++ sendPackedPlane .red
    ++ sendCommand c.cmdRefresh ++ [.delay .refreshSettle] ++ waitBusy ++ [.setDrv .ready, .complete]

/-! ### One micro-step -/

/-- `ConfigurePins()` (R209): outputs become driven at an unspecified level, unless they are configured already. -/
def State.configurePins (s : State) : State :=
  { s with
    rstOut := if s.pinsConfigured then s.rstOut else .x
    dcOut  := if s.pinsConfigured then s.dcOut else .x
    pinsConfigured := true
    trace := s.trace ++ [.cfg] }

/-- The statements of a transfer once its answer is drawn (R203): all bytes move, or the first `k` do and the transfer
fails, and nothing after it is left of the request. -/
def transferOps (dc : Level) (bs : List Byte) (rest : List SeqOp) : XferAnswer → List SeqOp
  | .ok    => bs.map (SeqOp.moveByte dc) ++ rest
  | .err k => (bs.take k).map (SeqOp.moveByte dc) ++ [.xferFail]

/-- What the sequencer does after a sample of level `v`, the `n`-th of its handshake (R205). -/
def State.afterSample (n : BitVec 32) (v : Level) (rest : List SeqOp) (s : State) : State :=
  if v ≠ s.cfg.busyActiveLevel then s.goto rest
  else if s.pollLimit ≠ 0#32 ∧ s.pollLimit ≤ n then s.raise .notResponding
  else s.goto (.poll n :: rest)

/-- Perform the statement `op`; `rest` is what follows it in the request. -/
def State.perform (op : SeqOp) (rest : List SeqOp) (s : State) : State :=
  match op with
  | .setDrv d       => State.goto rest { s with drv := d }
  | .configurePins  => s.configurePins.goto rest
  | .busSetup       =>
    match s.setupAnswer with
    | .ok   => (s.drawSetup.emit (.setup .ok)).goto rest
    | .fail => (s.drawSetup.emit (.setup .fail)).raise .setupError
  | .driveRst v     => State.goto rest (State.emit (.rst v) { s with rstOut := .ofLevel v })
  | .driveDc v      => State.goto rest { s with dcOut := .ofLevel v }
  | .delay t        => (s.emit (.wait t)).goto rest
  | .xfer dc bs     => if bs.isEmpty then s.goto rest else s.drawXfer.goto (transferOps dc bs rest s.xferAnswer)
  | .moveByte dc b  => (s.emit (.byte dc b)).goto rest
  | .xferFail       => (s.emit .xferErr).raise .transferError
  | .poll n         => s.goto (sendCommand s.cfg.cmdGetStatus ++ [.delay .poll, .sample n] ++ rest)
  | .sample n       => (s.drawSample.emit (.sample s.sampleAnswer)).afterSample (n + 1) s.sampleAnswer rest
  | .packPlane p    => (s.writePb (s.packPlane p)).goto rest
  | .sendPlane      => s.goto (.xfer dcDataLevel ((List.range s.planeSize).map s.pbByte) :: rest)
  | .effect e       => (s.apply e).goto rest
  | .raise e        => s.raise e
  | .complete       => s.complete 0x00
  | .completeRead   => s.complete s.rdata

/-- One micro-step: the first statement that is left of the request. Without one, nothing happens. -/
def State.microStep (s : State) : State :=
  match s.seq with
  | .running (op :: rest) => s.perform op rest
  | .running [] | .idle | .receiving _ _ => s

/-! ### Running a request -/

/-- The polls that may be left of a handshake after `n`: up to the bound (a count at or above it would first have to pass
2^32 − 1); with no bound, 2^32 at a time (log 5). -/
def State.pollsLeft (n : BitVec 32) (s : State) : Nat :=
  if s.pollLimit = 0#32 then 4294967296
  else if n < s.pollLimit then s.pollLimit.toNat - n.toNat
  else 4294967296 - n.toNat + s.pollLimit.toNat

/-- The most micro-steps a statement takes, those it expands to included; a poll takes at most seven. -/
def State.cost (s : State) : SeqOp → Nat
  | .setDrv _ | .configurePins | .busSetup | .driveRst _ | .driveDc _ | .delay _ => 1
  | .moveByte _ _ | .xferFail | .packPlane _ | .effect _ | .raise _ | .complete | .completeRead => 1
  | .xfer _ bs => bs.length + 2
  | .sendPlane => s.planeSize + 3
  | .poll n    => 7 * s.pollsLeft n
  | .sample n  => 7 * (s.pollsLeft n - 1) + 1

/-- The most micro-steps the statements that are left of the request take. -/
def State.work (s : State) : Nat :=
  match s.seq with
  | .running ops => (ops.map s.cost).sum
  | .idle | .receiving _ _ => 0

/-- At most `n` micro-steps; none once the request has ended. -/
def State.runFor : Nat → State → State
  | 0, s => s
  | n + 1, s =>
    match s.seq with
    | .running (op :: rest) => State.runFor n (s.perform op rest)
    | .running [] | .idle | .receiving _ _ => s

/-- Run the request in execution: to its end, or for the micro-steps its turn grants (log 4). -/
def State.run (s : State) : State := State.runFor (s.slice.getD s.work) s

/-- Accept a request and run it: OP_BUSY is 1 until its response (10_state.md R34). `ops` are the statements its pseudocode
comes to in this state: its checks are made here, since nothing they read can change before its first statement, but by a
block reset, which abandons it (60_exceptions.md R303, R315, log 4). -/
def State.execute (ops : List SeqOp) (s : State) : State :=
  State.run { s with opBusy := true, seq := .running ops }

end Sys2Proof.Machine
end

