-- ==== Sys2Proof/Machine/Driver.lean ====
section
/-! DEFINITION. The panel protocol driver requests (43_panel_driver.md): INIT, HARD_RESET, WAIT_BUSY, SEND_CMD, SEND_DATA,
SEND_BUF, SET_POLL_LIMIT, NOP. -/

namespace Sys2Proof.Machine

/-- `BusGuard()` (R218), then the request's statements. -/
def State.guarded (ops : List SeqOp) (s : State) : State :=
  s.execute (if s.drv = .uninit then [.raise .stateError] else ops)

/-- INIT (R210) -/
def execInit (s : State) : Host.Outcome State Fault Refusal :=
  .next <| s.execute <| if hasFault s.faults .setupError then [.raise .stateError] else initOps s.cfg

/-- HARD_RESET (R211) -/
def execHardReset (s : State) : Host.Outcome State Fault Refusal :=
  .next <| s.guarded (hardReset ++ [.complete])

/-- WAIT_BUSY (R212) -/
def execWaitBusy (s : State) : Host.Outcome State Fault Refusal :=
  .next <| s.guarded (waitBusy ++ [.complete])

/-- SEND_CMD (R213): after BusGuard, the refresh command is refused below INIT_APPLIED. -/
def execSendCmd (b : Byte) (s : State) : Host.Outcome State Fault Refusal :=
  .next <| s.execute <|
    if s.drv = .uninit then [.raise .stateError]
    else if b = s.cfg.cmdRefresh ∧ s.drv.below .initApplied then [.raise .stateError]
    else sendCommand b ++ [.complete]

/-- SEND_DATA (R214) -/
def execSendData (b : Byte) (s : State) : Host.Outcome State Fault Refusal :=
  .next <| s.guarded (sendData b ++ [.complete])

/-- SEND_BUF (R215) -/
def execSendBuf (bs : List Byte) (s : State) : Host.Outcome State Fault Refusal :=
  .next <| s.guarded (sendDataBuffer bs ++ [.complete])

/-- SET_POLL_LIMIT (R216) -/
def execSetPollLimit (v : BitVec 32) (s : State) : Host.Outcome State Fault Refusal :=
  .next <| s.execute [.effect (.setPollLimit v), .complete]

/-- NOP (R217) -/
def execNop (s : State) : Host.Outcome State Fault Refusal :=
  .next <| s.execute [.complete]

end Sys2Proof.Machine
end

