-- ==== Sys2Proof/Machine/Framebuffer.lean ====
section
/-! DEFINITION. The framebuffer requests (41_framebuffer.md): FB_CREATE, FB_DESTROY, FB_CLEAR, FB_PIXEL, FB_READ. -/

namespace Sys2Proof.Machine

/-- FB_CREATE (R141). Its writes are one micro-step, the model's choice where R141's order and 10_state.md R35 differ on what
a sideband read inside it would show (log 22). -/
def execFbCreate (w h : BitVec 16) (s : State) : Host.Outcome State Fault Refusal :=
  .next <| s.execute <|
    if s.fbValid then [.raise .stateError]
    else if w = 0 ∨ h = 0 ∨ s.cfg.fbMaxW < w.toNat ∨ s.cfg.fbMaxH < h.toNat then [.raise .allocError]
    else [.effect (.createFb w h), .complete]

/-- FB_DESTROY (R142). It does not touch PB (R140, log 8). -/
def execFbDestroy (s : State) : Host.Outcome State Fault Refusal :=
  .next <| s.execute <|
    if !s.fbValid then [.raise .stateError]
    else if s.attached then [.raise .stateError]
    else [.effect .destroyFb, .complete]

/-- FB_CLEAR (R143) -/
def execFbClear (c : Byte) (s : State) : Host.Outcome State Fault Refusal :=
  .next <| s.execute <|
    if !legalColor c then [.raise .illegalColor] else [.effect (.fillFb (colorCode c)), .complete]

/-- FB_PIXEL (R144): the color is checked before the bounds. -/
def execFbPixel (x y : BitVec 16) (c : Byte) (s : State) : Host.Outcome State Fault Refusal :=
  .next <| s.execute <|
    if !legalColor c then [.raise .illegalColor]
    else if s.inBounds x y then [.effect (.writeCell (s.fbIdx x.toNat y.toNat) (colorCode c)), .complete]
    else [.complete]

/-- FB_READ (R145): the response data is the code read. -/
def execFbRead (x y : BitVec 16) (s : State) : Host.Outcome State Fault Refusal :=
  .next <| s.execute <|
    if !s.inBounds x y then [.raise .boundsError]
    else [.effect (.readCell (s.fbIdx x.toNat y.toNat)), .completeRead]

end Sys2Proof.Machine
end

