-- ==== Sys2Proof/Machine/Renderer.lean ====
section
/-! DEFINITION. The renderer requests (42_renderer.md): ATTACH, DETACH, UPDATE. -/

namespace Sys2Proof.Machine

/-- ATTACH (R170) -/
def execAttach (s : State) : Host.Outcome State Fault Refusal :=
  .next <| s.execute <| if !s.fbValid then [.raise .stateError] else [.effect (.setAttached true), .complete]

/-- DETACH (R171) -/
def execDetach (s : State) : Host.Outcome State Fault Refusal :=
  .next <| s.execute [.effect (.setAttached false), .complete]

/-- UPDATE (R176) -/
def execUpdate (s : State) : Host.Outcome State Fault Refusal :=
  .next <| s.execute <|
    if !s.attached then [.complete]
    else if s.drv.below .initApplied then [.raise .stateError]
    else updateOps s.cfg

end Sys2Proof.Machine
end

