-- ==== Sys2Proof/Machine/Dispatch.lean ====
section
/-! DEFINITION. The meaning of a request: one arm per constructor of `Instr` (30_encoding.md R103). -/

namespace Sys2Proof.Machine

def exec (i : Instr) (s : State) : Host.Outcome State Fault Refusal :=
  match i with
  | .nop => Sys2Proof.Machine.execNop s
  | .init => Sys2Proof.Machine.execInit s
  | .hardReset => Sys2Proof.Machine.execHardReset s
  | .waitBusy => Sys2Proof.Machine.execWaitBusy s
  | .sendCmd b => Sys2Proof.Machine.execSendCmd b s
  | .sendData b => Sys2Proof.Machine.execSendData b s
  | .sendBuf bs => Sys2Proof.Machine.execSendBuf bs s
  | .setPollLimit v => Sys2Proof.Machine.execSetPollLimit v s
  | .fbCreate w h => Sys2Proof.Machine.execFbCreate w h s
  | .fbDestroy => Sys2Proof.Machine.execFbDestroy s
  | .fbClear c => Sys2Proof.Machine.execFbClear c s
  | .fbPixel x y c => Sys2Proof.Machine.execFbPixel x y c s
  | .fbRead x y => Sys2Proof.Machine.execFbRead x y s
  | .attach => Sys2Proof.Machine.execAttach s
  | .detach => Sys2Proof.Machine.execDetach s
  | .update => Sys2Proof.Machine.execUpdate s

end Sys2Proof.Machine
end

