-- ==== Sys2Proof/Machine/Step.lean ====
section
/-! DEFINITION. One step of EPHB: the agent whose turn it is moves (00_scope.md R5, log 4). The sequencer goes on with the
request in execution, or accepts what the request channel offers and executes it (60_exceptions.md R315). -/

namespace Sys2Proof.Machine

/-- The sequencer's move. -/
def advance (s : State) : Host.Outcome State Fault Refusal :=
  match s.seq with
  | .running []       => .fault .sequencerLost
  | .running (_ :: _) => .next s.run
  | .idle | .receiving _ _ =>
    match s.fetch with
    | .waiting t   => .next t
    | .request i t => exec i t
    | .illegal t   => .next (t.execute [.raise .illegalOp])

/-- One step of the machine. -/
def step (s : State) : Host.Outcome State Fault Refusal :=
  match s.turns with
  | .blockReset :: _ => .next s.takeTurn.blockReset
  | .sequencer _ :: _ | [] => advance s.takeTurn

/-- `s` with the beats of a table word where step fetches, so that the next step runs exactly that request (log 19). -/
def State.withFetchWord (s : State) (nbits w : Nat) : State := s.placeTableWord nbits w

end Sys2Proof.Machine
end

