-- ==== Sys2Proof/Machine/HostMacros.lean ====
section
/-! DEFINITION. The host macros of 44_host_macros.md: pseudo-instructions with no encoding (30_encoding.md R110), each a function
from its integer arguments and the framebuffer dimensions the host read in DIMS (10_state.md R49) to the requests it issues. They
place no duty on the block. A color is the raw code byte of 30_encoding.md R109. -/

namespace Sys2Proof.Machine

/-- W, from the DIMS word (44_host_macros.md R250). -/
def dimsW (dims : BitVec 32) : Nat := (dims.extractLsb' 0 16).toNat

/-- H, from the DIMS word (44_host_macros.md R250). -/
def dimsH (dims : BitVec 32) : Nat := (dims.extractLsb' 16 16).toNat

/-- `Plot(x, y, c)` (R250): nothing is issued for a coordinate that cannot be encoded. -/
def plot (x y : Int) (c : Byte) : List Instr :=
  if 0 ≤ x ∧ x ≤ 65535 ∧ 0 ≤ y ∧ y ≤ 65535 then [.fbPixel (BitVec.ofInt 16 x) (BitVec.ofInt 16 y) c] else []

/-- `0 <= x < W and 0 <= y < H` (R251, R252). -/
def cornerInside (dims : BitVec 32) (x y : Int) : Bool :=
  decide (0 ≤ x) && decide (x < dimsW dims) && decide (0 ≤ y) && decide (y < dimsH dims)

/-- The integer slope of LINE, both operands forced to at least 1 (R251, 90_conflicts.md C1). -/
def lineSlope (x1 y1 x2 y2 : Int) : Nat := max (y2 - y1).natAbs 1 / max (x2 - x1).natAbs 1

/-- LINE (R251). With x2 ≤ x1 the loop has no iteration. -/
def lineMacro (dims : BitVec 32) (x1 y1 x2 y2 : Int) (c : Byte) : List Instr :=
  if cornerInside dims x1 y1 && cornerInside dims x2 y2 then
    (List.range (x2 - x1).toNat).flatMap fun (k : Nat) => plot (x1 + k) (lineSlope x1 y1 x2 y2 * k + y1) c
  else []

/-- RECT (R252): all four corners are checked first (90_conflicts.md C6). -/
def rectMacro (dims : BitVec 32) (x y w h : Int) (c : Byte) : List Instr :=
  if cornerInside dims x y && cornerInside dims (x + w) (y + h) then
    lineMacro dims x y (x + w) y c ++ lineMacro dims x (y + h) (x + w) (y + h) c
      ++ lineMacro dims x y x (y + h) c ++ lineMacro dims (x + w) y (x + w) (y + h) c
  else []

/-- FILL (R253): rows outer, columns inner. -/
def fillMacro (x y w h : Int) (c : Byte) : List Instr :=
  (List.range h.toNat).flatMap fun (j : Nat) => (List.range w.toNat).flatMap fun (i : Nat) => plot (x + i) (y + j) c

/-- The source bit of column q in row r of a packed bitmap (R254). -/
def bitmapBit (w : Nat) (data : List Byte) (q r : Nat) : Bool :=
  (data.getD (r * ceil8 w + q / 8) 0).getLsbD (7 - q % 8)

/-- BITMAP (R254). `none`: the host model refuses data shorter than s·h (decision D45). -/
def bitmapMacro (x y : Int) (w h : Nat) (data : List Byte) (c : Byte) : Option (List Instr) :=
  if data.length < ceil8 w * h then none
  else some <| (List.range h).flatMap fun (r : Nat) => (List.range w).flatMap fun (q : Nat) =>
    if bitmapBit w data q r then plot (x + q) (y + r) c else []

/-- `FONT(u)`: the first glyph the font lists for the codepoint (log 16). -/
def glyph (cfg : Config) (u : Nat) : Option (List Byte) := (cfg.font.find? fun e => e.1 == u).map fun e => e.2

/-- TEXT (R255), on a list of codepoints. `none`: the model refuses a string with a codepoint the font lacks (decision
D44), and BITMAP's refusal is TEXT's. -/
def textMacro (cfg : Config) (x y : Int) : List Nat → Byte → Option (List Instr)
  | [], _ => some []
  | u :: us, c => do
    let data ← glyph cfg u
    let head ← bitmapMacro x y cfg.glyphW cfg.glyphH data c
    let tail ← textMacro cfg (x + cfg.glyphW) y us c
    pure (head ++ tail)

/-- What DUMP does, one after another (R256). -/
inductive DumpAction where
  /-- issue `FB_READ x, y` and print the hex digit of the response data -/
  | readAndPrint (x y : BitVec 16)
  | printNewline
  /-- the host delay T_DUMP_ROW -/
  | delayRow
  deriving DecidableEq, Repr

/-- DUMP (R256). -/
def dumpMacro (dims : BitVec 32) : List DumpAction :=
  (List.range (dimsH dims)).flatMap fun (j : Nat) =>
    (List.range (dimsW dims)).map (fun (i : Nat) => .readAndPrint (BitVec.ofNat 16 i) (BitVec.ofNat 16 j))
      ++ [.printNewline, .delayRow]

/-- The requests DUMP issues (R256). -/
def dumpRequests (acts : List DumpAction) : List Instr :=
  acts.filterMap fun a => match a with
    | .readAndPrint x y => some (.fbRead x y)
    | .printNewline | .delayRow => none

/-- The text DUMP prints when `data` are the response data of its reads, in order (R256, decision D50). -/
def dumpText : List DumpAction → List Byte → String
  | [], _ => ""
  | .readAndPrint _ _ :: acts, v :: data => String.singleton (Nat.digitChar v.toNat) ++ dumpText acts data
  | .readAndPrint _ _ :: acts, [] => dumpText acts []
  | .printNewline :: acts, data => "\n" ++ dumpText acts data
  | .delayRow :: acts, data => dumpText acts data

/-- The host delay DUMP makes in all, in nanoseconds (R256). -/
def dumpDelay (cfg : Config) (acts : List DumpAction) : Nat :=
  (acts.map fun a => if a = .delayRow then cfg.tDumpRow else 0).sum

/-- The size of a storage blob (R257). -/
def blobBytes (cfg : Config) : Nat := ceil8 cfg.panelW * cfg.panelH

/-- Execute requests one after another, each from the state its predecessor left (60_exceptions.md R315 (d)). -/
def execAll : List Instr → State → Host.Outcome State Fault Refusal
  | [], s => .next s
  | i :: is, s =>
    match exec i s with
    | .next t    => execAll is t
    | .fault r   => .fault r
    | .refused r => .refused r

end Sys2Proof.Machine
end

