-- ==== Sys2Proof/Safety.lean ====
section
/-! DEFINITION. What counts as a safe state and a safe run of EPHB, in the terms the statements use: the driver's transitions
(10_state.md R32), which events a state allows (R33), the invariant `Inv`, and the traces the procedures of
43_panel_driver.md and 42_renderer.md list. -/

namespace Sys2Proof.Machine

/-! ### The driver FSM -/

/-- The transitions of 10_state.md R32, and staying. -/
def drvMove (a b : DrvState) : Bool :=
  decide (a = b) ||
  match b with
  | .uninit        => true
  | .busConfigured => decide (a = .uninit)
  | .resetComplete => decide (a ≠ .uninit)
  | .initApplied   => decide (a = .resetComplete)
  | .ready         => decide (a = .initApplied)

/-- A `Byte` event is allowed when the bus is configured, the DC pin holds the event's level, and a refresh command comes
not before INIT_APPLIED (10_state.md R33, 00_scope.md R12). Every other event is. -/
def byteAllowed (refresh : Byte) (drv : DrvState) (dcOut : PinLevel) (dc : Level) (b : Byte) : Bool :=
  decide (drv ≠ .uninit) && decide (dcOut = .ofLevel dc)
    && (decide (dc = dcDataLevel) || decide (b ≠ refresh) || !drv.below .initApplied)

/-- Which event may be emitted in a state (10_state.md R33). -/
def Event.allowed (s : State) : Event → Bool
  | .byte dc b => byteAllowed s.cfg.cmdRefresh s.drv s.dcOut dc b
  | .cfg | .setup _ | .rst _ | .xferErr | .wait _ | .sample _ => true

/-! ### What is left of a request -/

/-- What the statements left of a request depend on. -/
structure SeqView where
  drv      : DrvState
  pins     : Bool
  rst      : PinLevel
  dc       : PinLevel
  fbValid  : Bool
  cells    : Nat
  attached : Bool
  deriving DecidableEq, Repr

/-- The pin drives 0 or 1. -/
def PinLevel.driven (p : PinLevel) : Bool := decide (p = .low) || decide (p = .high)

/-- What the sequencer's view of a state is. -/
def State.view (s : State) : SeqView := ⟨s.drv, s.pinsConfigured, s.rstOut, s.dcOut, s.fbValid, s.fbCells, s.attached⟩

/-- A color code of 10_state.md R37. -/
def legalCode (c : BitVec 2) : Bool := decide (c = white) || decide (c = black) || decide (c = red)

/-- The effect may be performed in the view: what its request's checks leave (41_framebuffer.md, 42_renderer.md R170). -/
def Effect.ok (c : Config) (v : SeqView) : Effect → Bool
  | .createFb w h   => !v.fbValid && decide (1 ≤ w.toNat) && decide (w.toNat ≤ c.fbMaxW) && decide (1 ≤ h.toNat)
      && decide (h.toNat ≤ c.fbMaxH)
  | .destroyFb      => !v.attached
  | .fillFb k       => legalCode k
  | .writeCell i k  => decide (i < v.cells) && legalCode k
  | .readCell i     => decide (i < v.cells)
  | .setAttached b  => !b || v.fbValid
  | .setPollLimit _ => true

/-- The statement may be performed in the view. The statements `opsOk` lists by themselves are not among them. -/
def opOk (c : Config) (v : SeqView) : SeqOp → Bool
  | .setDrv d      => drvMove v.drv d && (decide (d = .uninit) || (v.pins && v.rst.driven && v.dc.driven))
  | .configurePins => true
  | .busSetup      => decide (v.drv = .uninit) && v.pins
  | .driveRst _    => v.pins
  | .driveDc _     => v.pins
  | .delay _       => true
  | .xfer dc bs    => bs.all fun b => byteAllowed c.cmdRefresh v.drv v.dc dc b
  | .moveByte dc b => byteAllowed c.cmdRefresh v.drv v.dc dc b
  | .xferFail      => true
  | .poll _        => decide (v.drv ≠ .uninit)
  | .sample _      => decide (v.drv ≠ .uninit) && decide (v.dc = .ofLevel dcCommandLevel)
  | .packPlane _   => true
  | .sendPlane     => decide (v.drv ≠ .uninit) && decide (v.dc = .ofLevel dcDataLevel)
  | .complete      => true
  | .effect _ | .raise _ | .completeRead => false

/-- The view after the statement, when the request goes on. -/
def opView (v : SeqView) : SeqOp → SeqView
  | .setDrv d      => { v with drv := d }
  | .configurePins => { v with pins := true, rst := if v.pins then v.rst else .x, dc := if v.pins then v.dc else .x }
  | .driveRst l    => { v with rst := .ofLevel l }
  | .driveDc l     => { v with dc := .ofLevel l }
  | .poll _        => { v with dc := .ofLevel dcCommandLevel }
  | .busSetup | .delay _ | .xfer _ _ | .moveByte _ _ | .xferFail | .sample _ | .packPlane _ | .sendPlane => v
  | .effect _ | .raise _ | .complete | .completeRead => v

/-- The statement completes its request. -/
def SeqOp.completes : SeqOp → Bool
  | .complete | .completeRead => true
  | .setDrv _ | .configurePins | .busSetup | .driveRst _ | .driveDc _ | .delay _ | .xfer _ _ | .moveByte _ _ => false
  | .xferFail | .poll _ | .sample _ | .packPlane _ | .sendPlane | .effect _ | .raise _ => false

/-- The statements left of a request may all be performed, one after another, and the last one ends the request. A request
that moves no byte is an effect and its completion, or an error other than those the environment brings about. -/
def opsOk (c : Config) : SeqView → List SeqOp → Bool
  | _, []        => false
  | _, [.complete] => true
  | _, [.completeRead] => true
  | _, .xferFail :: _ => true
  | _, .raise e :: _ => decide (e ≠ .ok) && decide (e ≠ .setupError)
  | v, [.effect e, op] => e.ok c v && op.completes
  | v, op :: ops => opOk c v op && opsOk c (opView v op) ops

/-- What holds of the micro-state (10_state.md R52): a payload being received is not complete, and the statements left of
a request may be performed. -/
def Sequencer.ok (c : Config) (v : SeqView) : Sequencer → Bool
  | .idle          => true
  | .receiving h g => decide (g.length < payloadBeats h)
  | .running ops   => opsOk c v ops

/-- The statement moves no byte, emits no event and touches neither DRV_STATE nor a pin. -/
def SeqOp.quiet : SeqOp → Bool
  | .effect _ | .raise _ | .complete | .completeRead => true
  | .setDrv _ | .configurePins | .busSetup | .driveRst _ | .driveDc _ | .delay _ | .xfer _ _ | .moveByte _ _ => false
  | .xferFail | .poll _ | .sample _ | .packPlane _ | .sendPlane => false

/-- Nothing that is left of the request, if there is one, moves a byte. -/
def Sequencer.quiet : Sequencer → Bool
  | .running ops => ops.all SeqOp.quiet
  | .idle | .receiving _ _ => true

/-- The statement is an effect. -/
def SeqOp.isEffect : SeqOp → Bool
  | .effect _ => true
  | .setDrv _ | .configurePins | .busSetup | .driveRst _ | .driveDc _ | .delay _ | .xfer _ _ | .moveByte _ _ => false
  | .xferFail | .poll _ | .sample _ | .packPlane _ | .sendPlane | .raise _ | .complete | .completeRead => false

/-- Nothing that is left of the request, if there is one, is an effect. -/
def Sequencer.noEffect : Sequencer → Bool
  | .running ops => ops.all fun op => !op.isEffect
  | .idle | .receiving _ _ => true

/-- Each effect is followed by its request's completion and by nothing else. -/
def effectsLast : List SeqOp → Bool
  | []              => true
  | [.effect _, op] => op.completes
  | op :: ops       => !op.isEffect && effectsLast ops

/-- A request's statements are being executed. -/
def Sequencer.isRunning : Sequencer → Bool
  | .running _ => true
  | .idle | .receiving _ _ => false

/-! ### What the driver's requests never write -/

/-- From `s` to `t`, nothing was written that only the framebuffer requests, ATTACH, DETACH, SET_POLL_LIMIT, the host or
another agent write (10_state.md R35, R39, R41, R44; 42_renderer.md R178). -/
structure DriverFrame (s t : State) : Prop where
  fbValid   : t.fbValid = s.fbValid
  fbW       : t.fbW = s.fbW
  fbH       : t.fbH = s.fbH
  fb        : t.fb = s.fb
  unspec    : t.unspec = s.unspec
  pbUnspec  : t.pbUnspec = s.pbUnspec
  attached  : t.attached = s.attached
  pollLimit : t.pollLimit = s.pollLimit
  rdata     : t.rdata = s.rdata
  cfg       : t.cfg = s.cfg
  requests  : t.requests = s.requests
  turns     : t.turns = s.turns
  slice     : t.slice = s.slice

/-! ### The invariant -/

/-- What holds of the state elements whatever the sequencer does. -/
structure ArchInv (s : State) : Prop where
  /-- the configuration meets 00_scope.md R7 -/
  config     : s.cfg.wf = true
  /-- 10_state.md R35 -/
  dims       : if s.fbValid = true then
                 1 ≤ s.fbW.toNat ∧ s.fbW.toNat ≤ s.cfg.fbMaxW ∧ 1 ≤ s.fbH.toNat ∧ s.fbH.toNat ≤ s.cfg.fbMaxH
               else s.fbW = 0 ∧ s.fbH = 0
  /-- 10_state.md R39 -/
  attachment : s.attached = true → s.fbValid = true
  /-- the listed cells are in canonical form -/
  cells      : Memory.wf s.fb = true
  /-- only cells of the framebuffer are listed (20_memory.md R87) -/
  reach      : ∀ e ∈ s.fb, e.1 < s.fbCells
  /-- "every stored code is one of the three legal values" (10_state.md R36) -/
  codes      : ∀ e ∈ s.fb, legalCode e.2 = true
  /-- 41_framebuffer.md R145: a value read is a legal code -/
  readData   : legalColor s.rdata = true
  /-- 10_state.md R43: bits 0 and 9 to 15 are 0 -/
  reserved   : s.faults &&& 0xFE01 = 0
  /-- 10_state.md R45: an output is not driven exactly while the pins are not configured -/
  pins       : (s.rstOut = .z ↔ s.pinsConfigured = false) ∧ (s.dcOut = .z ↔ s.pinsConfigured = false)
  /-- 10_state.md R31: from BUS_CONFIGURED on, the pins are configured and driven -/
  driven     : s.drv ≠ .uninit → s.pinsConfigured = true ∧ s.rstOut.driven = true ∧ s.dcOut.driven = true
  /-- 60_exceptions.md R307: "DRV_STATE stays UNINIT" -/
  latch      : hasFault s.faults .setupError = true → s.drv = .uninit

/-- The invariant of the machine. -/
structure Inv (s : State) : Prop extends ArchInv s where
  /-- 10_state.md R34, R52 -/
  busy       : s.opBusy = true ↔ s.seq ≠ .idle
  /-- 10_state.md R33, R52 -/
  micro      : s.seq.ok s.cfg s.view = true
  /-- 60_exceptions.md R307: no request that moves bytes runs under the latch -/
  latchQuiet : hasFault s.faults .setupError = true → s.seq.quiet = true

/-! ### Traces the procedures list -/

/-- One poll (95_test_vectors.md section 0, `POLL(v)`). -/
def pollTrace (c : Config) (v : Level) : List Event := [.byte dcCommandLevel c.cmdGetStatus, .wait .poll, .sample v]

/-- `n` polls that read busy. -/
def busyPolls (c : Config) (n : Nat) : List Event := (List.replicate n (pollTrace c c.busyActiveLevel)).flatten

/-- A handshake whose first `n` polls read busy and whose next one does not (43_panel_driver.md R205). -/
def handshakeTrace (c : Config) (n : Nat) : List Event :=
  busyPolls c n ++ pollTrace c (!c.busyActiveLevel) ++ [.wait .busySettle]

/-- The hard-reset recipe without its handshake (43_panel_driver.md R206). -/
def recipeTrace : List Event :=
  [.rst true, .wait .rstHigh1, .rst false, .wait .rstLow, .rst true, .wait .rstHigh2]

/-- The data bytes of a buffer (43_panel_driver.md R202). -/
def dataTrace (bs : List Byte) : List Event := bs.map fun b => .byte dcDataLevel b

/-- Two planes and the refresh command, framed (42_renderer.md R176, 43_panel_driver.md R208). -/
def planesTrace (c : Config) (blackPlane redPlane : List Byte) : List Event :=
  .byte dcCommandLevel c.cmdStartBw :: dataTrace blackPlane ++ .byte dcCommandLevel c.cmdStartRed :: dataTrace redPlane
    ++ [.byte dcCommandLevel c.cmdRefresh]

/-- A refresh cycle whose handshake polls busy `n` times first (42_renderer.md R176, 43_panel_driver.md R208). -/
def refreshTrace (c : Config) (blackPlane redPlane : List Byte) (n : Nat) : List Event :=
  planesTrace c blackPlane redPlane ++ .wait .refreshSettle :: handshakeTrace c n

/-- An all-zero plane of the panel's dimensions (43_panel_driver.md R208). -/
def clearPlane (c : Config) : List Byte := List.replicate (ceil8 c.panelW * c.panelH) 0x00

/-! ### INIT, piece by piece -/

/-- A piece of INIT, as the rules of 43_panel_driver.md list it. -/
inductive Piece where
  /-- events that draw no answer -/
  | say (es : List Event)
  /-- one transfer (R203) -/
  | send (dc : Level) (bs : List Byte)
  /-- a handshake that polls busy `n` times before it ends (R205) -/
  | shake (n : Nat)
  /-- `DRV_STATE <- d` -/
  | reach (d : DrvState)
  deriving DecidableEq, Repr

/-- The events of a piece that succeeds. -/
def Piece.trace (c : Config) : Piece → List Event
  | .say es     => es
  | .send dc bs => bs.map fun b => .byte dc b
  | .shake n    => handshakeTrace c n
  | .reach _    => []

/-- The transfers of a piece that succeeds: a poll is one (R205). -/
def Piece.transfers : Piece → Nat
  | .say _ | .reach _ => 0
  | .send _ _         => 1
  | .shake n          => n + 1

/-- The samples of a piece that succeeds. -/
def Piece.samples (c : Config) : Piece → List Level
  | .say _ | .send _ _ | .reach _ => []
  | .shake n => List.replicate n c.busyActiveLevel ++ [!c.busyActiveLevel]

/-- The events of pieces that succeed. -/
def piecesTrace (c : Config) (ps : List Piece) : List Event := ps.flatMap (Piece.trace c)

/-- The transfers of pieces that succeed. -/
def piecesTransfers (ps : List Piece) : Nat := (ps.map Piece.transfers).sum

/-- The samples of pieces that succeed. -/
def piecesSamples (c : Config) (ps : List Piece) : List Level := ps.flatMap (Piece.samples c)

/-- The driver state after pieces that succeed. -/
def piecesReach : DrvState → List Piece → DrvState
  | d, []              => d
  | _, .reach d :: ps  => piecesReach d ps
  | d, .say _ :: ps    => piecesReach d ps
  | d, .send _ _ :: ps => piecesReach d ps
  | d, .shake _ :: ps  => piecesReach d ps

/-- The pieces of the table entries `es`; handshake `j` is the next one and polls busy `ns j` times (R207). -/
def tablePieces (ns : Nat → Nat) : Nat → List InitEntry → List Piece
  | _, [] => []
  | j, e :: es =>
    .send dcCommandLevel [e.cmd] :: (e.data.map fun b => .send dcDataLevel [b])
      ++ (if e.wait then .shake (ns j) :: tablePieces ns (j + 1) es else tablePieces ns j es)

/-- The table entries with a wait flag (70_reset_and_hazards.md R361). -/
def waitEntries (c : Config) : Nat := c.initTable.countP fun e => e.wait

/-- The number of handshakes of INIT: the reset's, the table's and its guard's, the panel clear's. -/
def initHandshakes (c : Config) : Nat := waitEntries c + 3

/-- INIT once the bus is set up (R209), when handshake `j` polls busy `ns j` times: the reset (R206), the settle delay, the
table (R207) and the panel clear (R208), in the order of R210. -/
def initPieces (c : Config) (ns : Nat → Nat) : List Piece :=
  [.say [.rst true], .reach .busConfigured, .say recipeTrace, .shake (ns 0), .reach .resetComplete,
    .say [.wait .initSettle]]
    ++ tablePieces ns 1 c.initTable
    ++ [.shake (ns (waitEntries c + 1)), .reach .initApplied,
      .send dcCommandLevel [c.cmdStartBw], .send dcDataLevel (clearPlane c),
      .send dcCommandLevel [c.cmdStartRed], .send dcDataLevel (clearPlane c),
      .send dcCommandLevel [c.cmdRefresh], .say [.wait .refreshSettle], .shake (ns (waitEntries c + 2)), .reach .ready]

/-! ### Delays -/

/-- The number of samples in a trace, which is the number of polls. -/
def sampleCount (tr : List Event) : Nat :=
  tr.countP fun e => match e with
    | .sample _ => true
    | .cfg | .setup _ | .rst _ | .byte _ _ | .xferErr | .wait _ => false

/-- The delay a trace makes, in nanoseconds: each `Wait(T)` lasts at least T (70_reset_and_hazards.md R361). -/
def traceDelay (c : Config) (tr : List Event) : Nat :=
  (tr.map fun e => match e with
    | .wait t => c.duration t
    | .cfg | .setup _ | .rst _ | .byte _ _ | .xferErr | .sample _ => 0).sum

end Sys2Proof.Machine
end

