-- ==== Sys2Proof/WellFormed.lean ====
section
/-! DEFINITION. Which requests the encoding admits: every operand but one is bounded by its type, and SEND_BUF's payload
length must fit LEN32 (30_encoding.md R101, R105; 20_memory.md R77: "any length from 0 to 2^32−1"). -/

namespace Sys2Proof

/-- The request can be encoded. A color code is not checked here: "an illegal code decodes" (30_encoding.md R104). -/
def Instr.wellFormed : Instr → Bool
  | .nop            => true
  | .init           => true
  | .hardReset      => true
  | .waitBusy       => true
  | .sendCmd _      => true
  | .sendData _     => true
  | .sendBuf bs     => decide (bs.length < 4294967296)
  | .setPollLimit _ => true
  | .fbCreate _ _   => true
  | .fbDestroy      => true
  | .fbClear _      => true
  | .fbPixel _ _ _  => true
  | .fbRead _ _     => true
  | .attach         => true
  | .detach         => true
  | .update         => true

end Sys2Proof
end

