-- ==== Sys2Proof/Certificates/Slice0/Obligations.lean ====
section
/-! DEFINITION. The statements for the provers. A free value (a draw of the environment, an unspecified cell or byte) is named
through the state's own draw, so each statement holds for every value of it. The model's own choices that statements name:
`slice = none` is a turn without a bound, `granted` one that grants enough (log 4), the lists of `env` are answers prepared
in advance (log 3), and `unspec` and `pbUnspec` count how often FB and PB became unspecified (logs 7, 8). -/

open Sys2Proof Sys2Proof.Machine

namespace Sys2Proof.Claims

/-- The request is answered: LAST_RESULT, the response, OP_BUSY and the idle sequencer (60_exceptions.md R301, R302). -/
def answered (s : State) (r : ResultCode) (d : Byte) : State :=
  { s with lastResult := r, responses := s.responses ++ [⟨r, d⟩], opBusy := false, seq := .idle }

/-- The request is answered with an error, which FAULTS records (60_exceptions.md R301). -/
def failed (s : State) (e : ResultCode) : State :=
  { answered s e 0x00 with faults := s.faults ||| (1#16 <<< e.num) }

/-- The turn grants at least `n` micro-steps, or has no bound (log 4). A request that moves no byte takes at most two. -/
def granted (s : State) (n : Nat) : Prop := n ≤ s.slice.getD n

/-- A handshake that polls busy `n` times first stays within POLL_LIMIT; 0 is no bound (43_panel_driver.md R205). A step
of the model makes at most 2^32 polls of an unbounded handshake (log 5). -/
def withinLimit (s : State) (n : Nat) : Prop :=
  n < 4294967296 ∧ (s.pollLimit ≠ 0#32 → n < s.pollLimit.toNat)

/-- The environment has prepared `x` successful transfers, and samples that read busy `n` times and then not. -/
def calm (s : State) (x n : Nat) (xs : List XferAnswer) (vs : List Level) : Prop :=
  s.env.xfers = List.replicate x .ok ++ xs ∧
  s.env.samples = List.replicate n s.cfg.busyActiveLevel ++ (!s.cfg.busyActiveLevel) :: vs

end Sys2Proof.Claims

open Sys2Proof.Claims

/-! ### Encoding -/

/-- 30_encoding.md R111: the whole table of examples. -/
def Obligations.SpecExampleWordsDecode : Prop :=
  decodeBeats [0x0000000000000000] = (.request .nop, []) ∧
  decodeBeats [0x0000000000000001] = (.request .init, []) ∧
  decodeBeats [0x0000000000001204] = (.request (.sendCmd 0x12), []) ∧
  decodeBeats [0x000000000000A505] = (.request (.sendData 0xA5), []) ∧
  decodeBeats [0x0000000300000006, 0x0000000000332211] = (.request (.sendBuf [0x11, 0x22, 0x33]), []) ∧
  decodeBeats [0x0000006400000007] = (.request (.setPollLimit 100), []) ∧
  decodeBeats [0x0008001000000010] = (.request (.fbCreate 16 8), []) ∧
  decodeBeats [0x0000000000000212] = (.request (.fbClear 0x02), []) ∧
  decodeBeats [0x0003000300000213] = (.request (.fbPixel 3 3 0x02), []) ∧
  decodeBeats [0x0003000300000014] = (.request (.fbRead 3 3), []) ∧
  decodeBeats [0x0000000000000022] = (.request .update, []) ∧
  decodeBeats [0x00000000000000FF] = (.rejected .unassignedOp, []) ∧
  decodeBeats [0x0000000000010001] = (.rejected .mustBeZero, [])

/-- Decode after encode, for every well-formed request, whatever beats follow it. -/
def Obligations.DecodeUndoesEncode : Prop :=
  ∀ (i : Instr) (rest : List Beat), i.wellFormed = true → decodeBeats (encode i ++ rest) = (.request i, rest)

/-- Encode after decode: the header of the request a header decodes to is that header, so each header has one meaning. -/
def Obligations.EncodeUndoesDecode : Prop :=
  ∀ (h : Beat) (p : List Beat) (i : Instr), decodeRequest h p = .request i → encodeHeader i = h

/-- 30_encoding.md R106, its last sentence. -/
def Obligations.HeaderMatchesOneRowOrNone : Prop :=
  ∀ (h : Beat) (p : List Beat),
    (∃ r ∈ opTable, h &&& r.format.mask = r.op.setWidth 64 ∧
      (∀ r' ∈ opTable, h &&& r'.format.mask = r'.op.setWidth 64 → r'.op = r.op ∧ r'.format = r.format) ∧
      decodeRequest h p = .request (r.build h p)) ∨
    ((∀ r ∈ opTable, h &&& r.format.mask ≠ r.op.setWidth 64) ∧ ∃ e, decodeRequest h p = .rejected e)

/-! ### The step and the request channel -/

/-- A step runs the request at the head of the request channel: the beats are accepted, OP_BUSY is set, and the turn says
whether the run is bounded (log 4). The second part: the payload arrives in two portions (log 17). -/
def Obligations.StepRunsTheDecodedRequest : Prop :=
  (∀ (s : State) (h : Beat) (p rest : List Beat) (i : Instr),
    s.seq = .idle → s.requests = h :: (p ++ rest) → p.length = payloadBeats h → decodeRequest h p = .request i →
    (s.turns = [] → step s = exec i { s with slice := none, opBusy := true, requests := rest }) ∧
    (∀ k ts, s.turns = .sequencer k :: ts →
      step s = exec i { s with turns := ts, slice := some k, opBusy := true, requests := rest })) ∧
  (∀ (s : State) (h : Beat) (got p rest : List Beat) (i : Instr),
    s.seq = .receiving h got → s.requests = p ++ rest → got.length + p.length = payloadBeats h →
    decodeRequest h (got ++ p) = .request i →
    (s.turns = [] → step s = exec i { s with slice := none, opBusy := true, seq := .idle, requests := rest }) ∧
    (∀ k ts, s.turns = .sequencer k :: ts →
      step s = exec i { s with turns := ts, slice := some k, opBusy := true, seq := .idle, requests := rest }))

/-- 30_encoding.md R105, R106: an illegal header changes LAST_RESULT and FAULTS[1] only, is answered, and its payload beats
are consumed. -/
def Obligations.IllegalHeaderIsAnsweredAndItsPayloadConsumed : Prop :=
  ∀ (s : State) (h : Beat) (p rest : List Beat),
    s.seq = .idle → s.requests = h :: (p ++ rest) → p.length = payloadBeats h →
    (∀ r ∈ opTable, h &&& r.format.mask ≠ r.op.setWidth 64) →
    (s.turns = [] → step s = .next { failed { s with requests := rest } .illegalOp with slice := none }) ∧
    (∀ k ts, s.turns = .sequencer (k + 1) :: ts →
      step s = .next { failed { s with requests := rest } .illegalOp with turns := ts, slice := some (k + 1) })

/-- 60_exceptions.md R315 (a), (b): a header whose payload has not all arrived is accepted, sets OP_BUSY and executes nothing;
70_reset_and_hazards.md R341: with no header the block waits. That one step takes every beat there is as payload is the
model's choice (log 17), and so is that a step without a header changes nothing but whose turn it is (log 2). -/
def Obligations.BlockWaitsForHeaderAndPayload : Prop :=
  (∀ (s : State) (h : Beat) (p : List Beat), s.turns = [] → s.seq = .idle → s.requests = h :: p → p.length < payloadBeats h →
    step s = .next { s with slice := none, opBusy := true, seq := .receiving h p, requests := [] }) ∧
  (∀ s : State, s.turns = [] → s.seq = .idle → s.requests = [] → step s = .next { s with slice := none })

/-- 60_exceptions.md R315 (d). The step may be a block reset, and that the beats stay on the channel then is the model's own
deduction (log 12). -/
def Obligations.NoBeatIsAcceptedWhileARequestExecutes : Prop :=
  ∀ (s t : State) (ops : List SeqOp), s.seq = .running ops → step s = .next t → t.requests = s.requests

/-- 70_reset_and_hazards.md R340 (a), (b), (c), in every state, also inside a request. Clauses on the model's own fields
(logs 2, 3, 7, 8, 12): the beats the host still holds and the observation stay, FB and PB become unspecified anew. -/
def Obligations.BlockResetTakesEveryElementToItsResetValue : Prop :=
  ∀ (s : State) (ts : List Turn), s.turns = .blockReset :: ts → ∃ t, step s = .next t ∧
    t.drv = .uninit ∧ t.opBusy = false ∧ t.fbValid = false ∧ t.fbW = 0 ∧ t.fbH = 0 ∧ t.attached = false ∧
    t.pollLimit = s.cfg.defaultPollLimit ∧ t.lastResult = .ok ∧ t.faults = 0 ∧ t.rdata = 0 ∧ t.pinsConfigured = false ∧
    t.rstOut = .z ∧ t.dcOut = .z ∧ t.seq = .idle ∧
    t.trace = s.trace ∧ t.responses = s.responses ∧ t.cfg = s.cfg ∧ t.requests = s.requests ∧ t.turns = ts ∧
    (∀ i, t.fbCell i = Config.freeCell (s.unspec + 1) i) ∧ (∀ k, t.pbByte k = Config.freePlaneByte (s.pbUnspec + 1) k)

/-- 10_state.md R58, for every configuration; `State.reset` is the instance with the chip's (log 1). What an unspecified
cell or byte is called is the model's choice (logs 7, 8). -/
def Obligations.ResetStateHoldsTheResetValues : Prop :=
  ∀ c : Config, let s := State.resetWith c
    s.drv = .uninit ∧ s.opBusy = false ∧ s.fbValid = false ∧ s.fbW = 0 ∧ s.fbH = 0 ∧ s.attached = false ∧
    s.pollLimit = c.defaultPollLimit ∧ s.lastResult = .ok ∧ s.faults = 0 ∧ s.rdata = 0 ∧ s.pinsConfigured = false ∧
    s.rstOut = .z ∧ s.dcOut = .z ∧ s.seq = .idle ∧
    (∀ i, s.fbCell i = Config.freeCell s.unspec i) ∧ (∀ k, s.pbByte k = Config.freePlaneByte s.pbUnspec k)

/-- 00_scope.md R7 with 43_panel_driver.md R219: which configurations are refused. -/
def Obligations.IllegalConfigurationsAreRefused : Prop :=
  ∀ c : Config,
    ((1 ≤ c.fbMaxW ∧ c.fbMaxW ≤ 65535 ∧ 1 ≤ c.fbMaxH ∧ c.fbMaxH ≤ 65535 ∧ 1 ≤ c.panelW ∧ c.panelW ≤ 65535 ∧
      1 ≤ c.panelH ∧ c.panelH ≤ 65535 ∧ c.cmdGetStatus ≠ c.cmdRefresh ∧
      (∀ e ∈ c.initTable, e.count ≤ 16 ∧ e.data.length = e.count ∧ e.cmd ≠ c.cmdRefresh) ∧
      1 ≤ c.defaultPollLimit.toNat) → State.boot c = .next (State.resetWith c)) ∧
    (¬ (1 ≤ c.fbMaxW ∧ c.fbMaxW ≤ 65535 ∧ 1 ≤ c.fbMaxH ∧ c.fbMaxH ≤ 65535 ∧ 1 ≤ c.panelW ∧ c.panelW ≤ 65535 ∧
      1 ≤ c.panelH ∧ c.panelH ≤ 65535 ∧ c.cmdGetStatus ≠ c.cmdRefresh ∧
      (∀ e ∈ c.initTable, e.count ≤ 16 ∧ e.data.length = e.count ∧ e.cmd ≠ c.cmdRefresh) ∧
      1 ≤ c.defaultPollLimit.toNat) → State.boot c = .refused .illegalConfiguration)

/-! ### Framebuffer requests -/

/-- 41_framebuffer.md R141. -/
def Obligations.FbCreateResult : Prop :=
  ∀ (s : State) (w h : BitVec 16), granted s 2 →
    decodeBeats [0x10 ||| w.setWidth 64 <<< 32 ||| h.setWidth 64 <<< 48] = (.request (.fbCreate w h), []) ∧
    (s.fbValid = true → exec (.fbCreate w h) s = .next (failed s .stateError)) ∧
    (s.fbValid = false → w = 0 ∨ h = 0 ∨ s.cfg.fbMaxW < w.toNat ∨ s.cfg.fbMaxH < h.toNat →
      exec (.fbCreate w h) s = .next (failed s .allocError)) ∧
    (s.fbValid = false → s.fbW = 0 → s.fbH = 0 → Memory.wf s.fb = true →
      1 ≤ w.toNat → w.toNat ≤ s.cfg.fbMaxW → 1 ≤ h.toNat → h.toNat ≤ s.cfg.fbMaxH →
      ∃ m, exec (.fbCreate w h) s = .next { answered s .ok 0x00 with fbW := w, fbH := h, fbValid := true, fb := m } ∧
        ∀ t, exec (.fbCreate w h) s = .next t →
          (∀ i, i < w.toNat * h.toNat → t.fbCell i = 0#2) ∧ (∀ i, w.toNat * h.toNat ≤ i → t.fbCell i = s.fbCell i))

/-- 41_framebuffer.md R142. That the store then lists nothing and draws its cells anew is the model's choice (log 7). -/
def Obligations.FbDestroyResult : Prop :=
  ∀ s : State, granted s 2 →
    (s.fbValid = false ∨ s.attached = true → exec .fbDestroy s = .next (failed s .stateError)) ∧
    (s.fbValid = true → s.attached = false →
      exec .fbDestroy s =
        .next { answered s .ok 0x00 with fbValid := false, fbW := 0, fbH := 0, fb := [], unspec := s.unspec + 1 } ∧
      ∀ t, exec .fbDestroy s = .next t → ∀ i, t.fbCell i = Config.freeCell (s.unspec + 1) i)

/-- 41_framebuffer.md R143. -/
def Obligations.FbClearResult : Prop :=
  ∀ (s : State) (c : Byte), granted s 2 →
    (c ≠ 0x00 → c ≠ 0x01 → c ≠ 0x02 → exec (.fbClear c) s = .next (failed s .illegalColor)) ∧
    (c = 0x00 ∨ c = 0x01 ∨ c = 0x02 → Memory.wf s.fb = true →
      ∃ m, exec (.fbClear c) s = .next { answered s .ok 0x00 with fb := m } ∧
        ∀ t, exec (.fbClear c) s = .next t →
          (∀ i, i < s.fbW.toNat * s.fbH.toNat → (t.fbCell i).setWidth 8 = c) ∧
          (∀ i, s.fbW.toNat * s.fbH.toNat ≤ i → t.fbCell i = s.fbCell i))

/-- 41_framebuffer.md R144. -/
def Obligations.FbPixelResult : Prop :=
  ∀ (s : State) (x y : BitVec 16) (c : Byte), granted s 2 →
    decodeBeats [0x13 ||| c.setWidth 64 <<< 8 ||| x.setWidth 64 <<< 32 ||| y.setWidth 64 <<< 48] =
      (.request (.fbPixel x y c), []) ∧
    (c ≠ 0x00 → c ≠ 0x01 → c ≠ 0x02 → exec (.fbPixel x y c) s = .next (failed s .illegalColor)) ∧
    (c = 0x00 ∨ c = 0x01 ∨ c = 0x02 → s.fbW.toNat ≤ x.toNat ∨ s.fbH.toNat ≤ y.toNat →
      exec (.fbPixel x y c) s = .next (answered s .ok 0x00)) ∧
    (c = 0x00 ∨ c = 0x01 ∨ c = 0x02 → x.toNat < s.fbW.toNat → y.toNat < s.fbH.toNat → Memory.wf s.fb = true →
      ∃ m, exec (.fbPixel x y c) s = .next { answered s .ok 0x00 with fb := m } ∧
        ∀ t, exec (.fbPixel x y c) s = .next t →
          (t.fbCell (y.toNat * s.fbW.toNat + x.toNat)).setWidth 8 = c ∧
          (∀ i, i ≠ y.toNat * s.fbW.toNat + x.toNat → t.fbCell i = s.fbCell i))

/-- 41_framebuffer.md R145. -/
def Obligations.FbReadResult : Prop :=
  ∀ (s : State) (x y : BitVec 16), granted s 2 →
    decodeBeats [0x14 ||| x.setWidth 64 <<< 32 ||| y.setWidth 64 <<< 48] = (.request (.fbRead x y), []) ∧
    (s.fbW.toNat ≤ x.toNat ∨ s.fbH.toNat ≤ y.toNat → exec (.fbRead x y) s = .next (failed s .boundsError)) ∧
    (x.toNat < s.fbW.toNat → y.toNat < s.fbH.toNat →
      exec (.fbRead x y) s =
        .next { answered s .ok ((s.fbCell (y.toNat * s.fbW.toNat + x.toNat)).setWidth 8) with
                rdata := (s.fbCell (y.toNat * s.fbW.toNat + x.toNat)).setWidth 8 }) ∧
    (Inv s → x.toNat < s.fbW.toNat → y.toNat < s.fbH.toNat → ∀ t, exec (.fbRead x y) s = .next t →
      t.rdata = 0x00 ∨ t.rdata = 0x01 ∨ t.rdata = 0x02)

/-- 41_framebuffer.md R143, property P2: after FB_CLEAR c, every in-bounds FB_READ answers c. -/
def Obligations.ClearThenReadGivesTheColor : Prop :=
  ∀ (s : State) (c : Byte) (x y : BitVec 16), granted s 2 → c = 0x00 ∨ c = 0x01 ∨ c = 0x02 → Memory.wf s.fb = true →
    x.toNat < s.fbW.toNat → y.toNat < s.fbH.toNat →
    ∃ t u, exec (.fbClear c) s = .next t ∧ exec (.fbRead x y) t = .next u ∧ u.rdata = c ∧
      u.responses = s.responses ++ [⟨.ok, 0x00⟩, ⟨.ok, c⟩]

/-- 41_framebuffer.md R140, the frame of the family: which elements it writes, and that a raise writes no other. -/
def Obligations.FramebufferRequestsFrame : Prop :=
  ∀ (s : State) (i : Instr), granted s 2 →
    (∃ w h, i = .fbCreate w h) ∨ i = .fbDestroy ∨ (∃ c, i = .fbClear c) ∨ (∃ x y c, i = .fbPixel x y c) ∨
      (∃ x y, i = .fbRead x y) →
    ∃ t, exec i s = .next t ∧
      t.drv = s.drv ∧ t.attached = s.attached ∧ (∀ k, t.pbByte k = s.pbByte k) ∧ t.pollLimit = s.pollLimit ∧
      t.pinsConfigured = s.pinsConfigured ∧ t.rstOut = s.rstOut ∧ t.dcOut = s.dcOut ∧ t.cfg = s.cfg ∧
      t.requests = s.requests ∧ t.trace = s.trace ∧ t.env = s.env ∧ t.drawn = s.drawn ∧ t.turns = s.turns ∧
      ((t.lastResult = .ok ∧ t.faults = s.faults) ∨ ∃ e, e ≠ .ok ∧ t = failed s e)

/-- The one-pass fill of FB_CREATE and FB_CLEAR is their loop of single-cell writes (R141, R143, 20_memory.md R72). -/
def Obligations.FillIsTheLoopOfCellWrites : Prop :=
  ∀ (m : Memory) (n : Nat) (v : BitVec 2), Memory.wf m = true → Memory.fill m n v = Memory.fillLoop m n v

/-! ### Renderer requests -/

/-- 42_renderer.md R170. -/
def Obligations.AttachResult : Prop :=
  ∀ s : State, granted s 2 →
    decodeBeats [0x20] = (.request .attach, []) ∧
    (s.fbValid = false → exec .attach s = .next (failed s .stateError)) ∧
    (s.fbValid = true → exec .attach s = .next { answered s .ok 0x00 with attached := true })

/-- 42_renderer.md R171, 43_panel_driver.md R216, R217. -/
def Obligations.DetachSetPollLimitAndNopResults : Prop :=
  ∀ (s : State) (v : BitVec 32), granted s 2 →
    decodeBeats [0x21] = (.request .detach, []) ∧
    decodeBeats [0x07 ||| v.setWidth 64 <<< 32] = (.request (.setPollLimit v), []) ∧
    decodeBeats [0x00] = (.request .nop, []) ∧
    exec .detach s = .next { answered s .ok 0x00 with attached := false } ∧
    exec (.setPollLimit v) s = .next { answered s .ok 0x00 with pollLimit := v } ∧
    exec .nop s = .next (answered s .ok 0x00)

/-- 42_renderer.md R175: the length of a plane, and that unpacking it MSB-first gives back each pixel's plane bit. -/
def Obligations.PlaneUnpacksToThePixels : Prop :=
  ∀ (s : State) (p : Plane),
    (s.packPlane p).length = (s.fbW.toNat + 7) / 8 * s.fbH.toNat ∧
    ∀ i j, i < s.fbW.toNat → j < s.fbH.toNat →
      ((s.packPlane p).getD (j * ((s.fbW.toNat + 7) / 8) + i / 8) 0).getLsbD (7 - i % 8) =
        (s.fbCell (j * s.fbW.toNat + i)).getLsbD (match p with | .black => 0 | .red => 1)

/-- 42_renderer.md R174. -/
def Obligations.PlanePaddingIsZero : Prop :=
  ∀ (s : State) (p : Plane) (j b : Nat), j < s.fbH.toNat → s.fbW.toNat % 8 ≠ 0 → b < 8 - s.fbW.toNat % 8 →
    ((s.packPlane p).getD (j * ((s.fbW.toNat + 7) / 8) + ((s.fbW.toNat + 7) / 8 - 1)) 0).getLsbD b = false

/-- 42_renderer.md R172: the closed form is what the pseudocode computes, bit by bit, from a zeroed buffer. -/
def Obligations.PackPlaneIsItsPseudocode : Prop :=
  ∀ (s : State) (p : Plane), s.packPlane p = s.packPlaneLoop p

/-- 42_renderer.md R173: no cell of the framebuffer is set in both planes. -/
def Obligations.NoPixelIsInBothPlanes : Prop :=
  ∀ (s : State) (i : Nat), Inv s → i < s.fbW.toNat * s.fbH.toNat →
    ¬ (planeBit .black (s.fbCell i) = true ∧ planeBit .red (s.fbCell i) = true)

/-- 42_renderer.md R176, its two guards. -/
def Obligations.UpdateGuards : Prop :=
  ∀ s : State, granted s 1 →
    (s.attached = false → exec .update s = .next (answered s .ok 0x00)) ∧
    (s.attached = true → s.drv.num < 3 → exec .update s = .next (failed s .stateError))

/-- 42_renderer.md R176: an UPDATE whose transfers succeed and whose handshake polls busy `n` times within the limit. What
PB keeps above the plane is the model's choice (log 8). -/
def Obligations.UpdateRendersBothPlanes : Prop :=
  ∀ (s : State) (n : Nat) (xs : List XferAnswer) (vs : List Level),
    s.slice = none → s.attached = true → 3 ≤ s.drv.num → 1 ≤ s.fbW.toNat → 1 ≤ s.fbH.toNat →
    withinLimit s n → calm s (6 + n) n xs vs →
    exec .update s = .next
      { answered s .ok 0x00 with
        drv := .ready
        dcOut := .low
        pb := s.packPlane .red ++ s.pb.drop ((s.fbW.toNat + 7) / 8 * s.fbH.toNat)
        trace := s.trace ++ refreshTrace s.cfg (s.packPlane .black) (s.packPlane .red) n
        env := { s.env with xfers := xs, samples := vs } }

/-- 42_renderer.md R178. -/
def Obligations.UpdateNeverWritesTheFramebuffer : Prop :=
  ∀ s t : State, exec .update s = .next t →
    t.fb = s.fb ∧ t.fbW = s.fbW ∧ t.fbH = s.fbH ∧ t.fbValid = s.fbValid ∧ t.attached = s.attached ∧
    ∀ i, t.fbCell i = s.fbCell i

/-- 42_renderer.md R177, for every answer of the environment: (a) success ends in READY; (b) the refresh command comes only
after both planes moved in full; (c) an UPDATE that raises TRANSFER_ERROR before that stops there, with DRV_STATE unchanged.
`planesTrace` ends with the refresh command, so a `k` below its length is an error before the refresh command moved, and the
`k` that is its length is one of the refresh command's own transfer after its byte moved (43_panel_driver.md R203). -/
def Obligations.UpdateTransmissionGuarantees : Prop :=
  ∀ s t : State, s.slice = none → s.attached = true → 3 ≤ s.drv.num → exec .update s = .next t →
    (t.seq = .idle → t.lastResult = .ok → t.drv = .ready) ∧
    ∃ es, t.trace = s.trace ++ es ∧
      ((∃ k, k ≤ (planesTrace s.cfg (s.packPlane .black) (s.packPlane .red)).length ∧
          es = (planesTrace s.cfg (s.packPlane .black) (s.packPlane .red)).take k ++ [.xferErr] ∧
          t.lastResult = .transferError ∧ t.drv = s.drv) ∨
        planesTrace s.cfg (s.packPlane .black) (s.packPlane .red) <+: es)

/-! ### Panel driver requests -/

/-- 43_panel_driver.md R218: the five requests that call BusGuard are refused in UNINIT, without an event. INIT brings the bus
up itself, and UPDATE has a guard of its own (`UpdateGuards`). -/
def Obligations.BusGuardRefusesInUninit : Prop :=
  ∀ (s : State) (b : Byte) (bs : List Byte), granted s 1 → s.drv = .uninit →
    exec .hardReset s = .next (failed s .stateError) ∧ exec .waitBusy s = .next (failed s .stateError) ∧
    exec (.sendCmd b) s = .next (failed s .stateError) ∧ exec (.sendData b) s = .next (failed s .stateError) ∧
    exec (.sendBuf bs) s = .next (failed s .stateError)

/-- 43_panel_driver.md R213, with R200 and R203: BusGuard, the refresh guard, a command byte that moves, and a failing
transfer. -/
def Obligations.SendCmdResult : Prop :=
  ∀ (s : State) (b : Byte),
    decodeBeats [0x04 ||| b.setWidth 64 <<< 8] = (.request (.sendCmd b), []) ∧
    (granted s 1 → s.drv = .uninit → exec (.sendCmd b) s = .next (failed s .stateError)) ∧
    (granted s 1 → s.drv ≠ .uninit → b = s.cfg.cmdRefresh → s.drv.num < 3 → exec (.sendCmd b) s = .next (failed s .stateError)) ∧
    (s.slice = none → s.drv ≠ .uninit → b ≠ s.cfg.cmdRefresh ∨ 3 ≤ s.drv.num →
      (s.xferAnswer = .ok → exec (.sendCmd b) s =
        .next { answered s.drawXfer .ok 0x00 with dcOut := .low, trace := s.trace ++ [.byte false b] }) ∧
      (∀ k, s.xferAnswer = .err k → exec (.sendCmd b) s =
        .next { failed s.drawXfer .transferError with
                dcOut := .low, trace := s.trace ++ ([.byte false b].take k ++ [.xferErr]) }))

/-- 43_panel_driver.md R214, with R201 and R203. -/
def Obligations.SendDataResult : Prop :=
  ∀ (s : State) (b : Byte),
    decodeBeats [0x05 ||| b.setWidth 64 <<< 8] = (.request (.sendData b), []) ∧
    (granted s 1 → s.drv = .uninit → exec (.sendData b) s = .next (failed s .stateError)) ∧
    (s.slice = none → s.drv ≠ .uninit → s.xferAnswer = .ok → exec (.sendData b) s =
      .next { answered s.drawXfer .ok 0x00 with dcOut := .high, trace := s.trace ++ [.byte true b] }) ∧
    (s.slice = none → s.drv ≠ .uninit → ∀ k, s.xferAnswer = .err k → exec (.sendData b) s =
      .next { failed s.drawXfer .transferError with
              dcOut := .high, trace := s.trace ++ ([.byte true b].take k ++ [.xferErr]) })

/-- 43_panel_driver.md R215, with R202 and R203: an empty buffer draws no answer; a failing transfer moved `k` bytes. -/
def Obligations.SendBufResult : Prop :=
  ∀ (s : State) (bs : List Byte), s.slice = none → s.drv ≠ .uninit →
    (bs = [] → exec (.sendBuf bs) s = .next { answered s .ok 0x00 with dcOut := .high }) ∧
    (bs ≠ [] → s.xferAnswer = .ok → exec (.sendBuf bs) s =
      .next { answered s.drawXfer .ok 0x00 with
              dcOut := .high, trace := s.trace ++ bs.map fun b => .byte true b }) ∧
    (bs ≠ [] → ∀ k, s.xferAnswer = .err k → exec (.sendBuf bs) s =
      .next { failed s.drawXfer .transferError with
              dcOut := .high, trace := s.trace ++ (((bs.take k).map fun b => .byte true b) ++ [.xferErr]) })

/-- 43_panel_driver.md R212, with R205: the handshake that ends, the one that reaches POLL_LIMIT, and the one whose command
fails to move. -/
def Obligations.WaitBusyResult : Prop :=
  ∀ (s : State) (n : Nat) (xs : List XferAnswer) (vs : List Level), s.slice = none → s.drv ≠ .uninit →
    (withinLimit s n → calm s (n + 1) n xs vs → exec .waitBusy s =
      .next { answered s .ok 0x00 with
              dcOut := .low, trace := s.trace ++ handshakeTrace s.cfg n
              env := { s.env with xfers := xs, samples := vs } }) ∧
    (s.pollLimit ≠ 0#32 → s.env.xfers = List.replicate s.pollLimit.toNat .ok ++ xs →
      s.env.samples = List.replicate s.pollLimit.toNat s.cfg.busyActiveLevel ++ vs → exec .waitBusy s =
      .next { failed s .notResponding with
              dcOut := .low, trace := s.trace ++ busyPolls s.cfg s.pollLimit.toNat
              env := { s.env with xfers := xs, samples := vs } }) ∧
    (withinLimit s n → ∀ k, s.env.xfers = List.replicate n .ok ++ .err k :: xs →
      s.env.samples = List.replicate n s.cfg.busyActiveLevel ++ vs → exec .waitBusy s =
      .next { failed s .transferError with
              dcOut := .low
              trace := s.trace ++ (busyPolls s.cfg n ++ ([.byte false s.cfg.cmdGetStatus].take k ++ [.xferErr]))
              env := { s.env with xfers := xs, samples := vs } })

/-- 43_panel_driver.md R211, with R206: from every state but UNINIT a hard reset ends in RESET_COMPLETE; one whose panel
stays busy, or whose status command fails to move after `n` busy polls, leaves DRV_STATE as it was (60_exceptions.md R304). -/
def Obligations.HardResetResult : Prop :=
  ∀ (s : State) (n : Nat) (xs : List XferAnswer) (vs : List Level), s.slice = none → s.drv ≠ .uninit →
    (withinLimit s n → calm s (n + 1) n xs vs → exec .hardReset s =
      .next { answered s .ok 0x00 with
              drv := .resetComplete, rstOut := .high, dcOut := .low
              trace := s.trace ++ (recipeTrace ++ handshakeTrace s.cfg n)
              env := { s.env with xfers := xs, samples := vs } }) ∧
    (s.pollLimit ≠ 0#32 → s.env.xfers = List.replicate s.pollLimit.toNat .ok ++ xs →
      s.env.samples = List.replicate s.pollLimit.toNat s.cfg.busyActiveLevel ++ vs → exec .hardReset s =
      .next { failed s .notResponding with
              rstOut := .high, dcOut := .low
              trace := s.trace ++ (recipeTrace ++ busyPolls s.cfg s.pollLimit.toNat)
              env := { s.env with xfers := xs, samples := vs } }) ∧
    (withinLimit s n → ∀ k, s.env.xfers = List.replicate n .ok ++ .err k :: xs →
      s.env.samples = List.replicate n s.cfg.busyActiveLevel ++ vs → exec .hardReset s =
      .next { failed s .transferError with
              rstOut := .high, dcOut := .low
              trace := s.trace ++
                (recipeTrace ++ busyPolls s.cfg n ++ ([.byte false s.cfg.cmdGetStatus].take k ++ [.xferErr]))
              env := { s.env with xfers := xs, samples := vs } })

/-- 43_panel_driver.md R210, its two failures before the hard reset: the latch, without an event, and a failed bus setup,
which leaves UNINIT, pins configured, and outputs at an unspecified level unless they were driven (R209). -/
def Obligations.InitSetupFailure : Prop :=
  ∀ s : State,
    (granted s 1 → s.faults.getLsbD 6 = true → exec .init s = .next (failed s .stateError)) ∧
    (s.slice = none → s.faults.getLsbD 6 = false → s.setupAnswer = .fail →
      exec .init s = .next
        { failed s.drawSetup .setupError with
          drv := .uninit
          pinsConfigured := true
          rstOut := if s.pinsConfigured then s.rstOut else .x
          dcOut := if s.pinsConfigured then s.dcOut else .x
          trace := s.trace ++ [.cfg, .setup .fail] })

/-- 43_panel_driver.md R210: an INIT whose transfers all move and whose handshake `j` polls busy `ns j` times, within the
limit, before it ends, from any driver state. -/
def Obligations.InitBringsThePanelUp : Prop :=
  ∀ (s : State) (ns : Nat → Nat) (ss : List SetupAnswer) (xs : List XferAnswer) (vs : List Level),
    s.slice = none → s.cfg.wf = true → s.faults.getLsbD 6 = false →
    (∀ j, j < initHandshakes s.cfg → withinLimit s (ns j)) →
    s.env = ⟨.ok :: ss, List.replicate (piecesTransfers (initPieces s.cfg ns)) .ok ++ xs,
      piecesSamples s.cfg (initPieces s.cfg ns) ++ vs⟩ →
    exec .init s = .next
      { answered s .ok 0x00 with
        drv := .ready
        pinsConfigured := true
        rstOut := .high
        dcOut := .low
        trace := s.trace ++ ([.cfg, .setup .ok] ++ piecesTrace s.cfg (initPieces s.cfg ns))
        env := ⟨ss, xs, vs⟩ }

/-- 60_exceptions.md R307: under the latch no request emits an event or leaves UNINIT, and INIT is refused. -/
def Obligations.SetupLatchBlocksTheBus : Prop :=
  ∀ (s t : State) (i : Instr), s.faults.getLsbD 6 = true → s.drv = .uninit → exec i s = .next t →
    t.trace = s.trace ∧ t.drv = .uninit ∧ t.faults.getLsbD 6 = true ∧ (granted s 1 → i = .init → t.lastResult = .stateError)

/-- 60_exceptions.md R308, 43_panel_driver.md R205: with POLL_LIMIT = 0 a handshake that has read busy `m` times is still
polling, for every `m`; one poll is six micro-steps of the model (log 4). -/
def Obligations.UnboundedHandshakeKeepsPolling : Prop :=
  ∀ (s : State) (m : Nat) (c : BitVec 32) (rest : List SeqOp) (xs : List XferAnswer) (vs : List Level),
    s.pollLimit = 0#32 → s.seq = .running (.poll c :: rest) →
    s.env.xfers = List.replicate m .ok ++ xs → s.env.samples = List.replicate m s.cfg.busyActiveLevel ++ vs →
    (State.runFor (6 * m) s).seq = .running (.poll (c + BitVec.ofNat 32 m) :: rest) ∧
    (State.runFor (6 * m) s).trace = s.trace ++ busyPolls s.cfg m ∧
    (State.runFor (6 * m) s).responses = s.responses ∧ (State.runFor (6 * m) s).opBusy = s.opBusy

/-! ### Whole-machine rules -/

/-- 10_state.md R32: inside a request DRV_STATE moves only along the table's transitions. -/
def Obligations.DriverStateMovesAlongTheTable : Prop :=
  ∀ s : State, Inv s → s.microStep.drv ≠ s.drv →
    s.microStep.drv = .uninit ∨
    (s.drv = .uninit ∧ s.microStep.drv = .busConfigured) ∨
    (s.drv ≠ .uninit ∧ s.microStep.drv = .resetComplete) ∨
    (s.drv = .resetComplete ∧ s.microStep.drv = .initApplied) ∨
    (s.drv = .initApplied ∧ s.microStep.drv = .ready)

/-- 10_state.md R33 (a), (b): no byte moves in UNINIT and no refresh command is issued below INIT_APPLIED; 00_scope.md R12: each
byte moves at the level the DC pin holds. That a micro-step emits at most one event is the model's choice (log 4). -/
def Obligations.EveryByteRespectsTheDriverState : Prop :=
  ∀ s : State, Inv s → ∃ es, s.microStep.trace = s.trace ++ es ∧ es.length ≤ 1 ∧
    ∀ dc b, .byte dc b ∈ es →
      s.drv ≠ .uninit ∧ s.dcOut = PinLevel.ofLevel dc ∧ (dc = false → b = s.cfg.cmdRefresh → 3 ≤ s.drv.num)

/-- The invariant holds right after reset, for every legal configuration and for the chip's (log 1). -/
def Obligations.ResetMeetsTheInvariant : Prop :=
  (∀ c : Config, c.wf = true → Inv (State.resetWith c)) ∧ Inv State.reset

/-- Every step from a state that meets the invariant gives a next state, and that state meets it. -/
def Obligations.StepKeepsTheInvariant : Prop :=
  ∀ s : State, Inv s → ∃ t, step s = .next t ∧ Inv t

/-- 60_exceptions.md R308, R316: with POLL_LIMIT ≥ 1 every request completes, whatever the environment answers, with exactly
one response, whose data is 0x00 except for an FB_READ that completes with OK. -/
def Obligations.EveryRequestCompletes : Prop :=
  ∀ (i : Instr) (s : State), s.slice = none → s.pollLimit ≠ 0#32 →
    ∃ t r d, exec i s = .next t ∧ t.seq = .idle ∧ t.opBusy = false ∧ t.lastResult = r ∧
      t.responses = s.responses ++ [⟨r, d⟩] ∧ (d = 0x00 ∨ (r = .ok ∧ ∃ x y, i = .fbRead x y))

/-- Where the host looks into a request does not change it (10_state.md R47, R52; log 4): a run that is cut after `k`
micro-steps and then goes on ends as the run that is not cut. -/
def Obligations.CuttingARunDoesNotChangeIt : Prop :=
  ∀ (s : State) (k : Nat), Inv s → s.slice = none → s.pollLimit ≠ 0#32 → (State.runFor k s).run = s.run

/-- 10_state.md R42, R43, 60_exceptions.md R301, R302: a step of the sequencer answers at most one request; FAULTS gains the
bit of an error's code and loses none. -/
def Obligations.FaultsAreStickyAndRecordEachError : Prop :=
  ∀ s t : State, Inv s → (∀ ts, s.turns ≠ .blockReset :: ts) → step s = .next t →
    (t.responses = s.responses ∧ t.lastResult = s.lastResult ∧ t.faults = s.faults) ∨
    ∃ r d, t.responses = s.responses ++ [⟨r, d⟩] ∧ t.lastResult = r ∧ t.opBusy = false ∧
      (r = .ok → t.faults = s.faults) ∧ (r ≠ .ok → t.faults = s.faults ||| (1#16 <<< r.num))

/-- 10_state.md R32, R35, R36, R39, R40, R41, R44: which requests write which element. -/
def Obligations.OnlyTheNamedRequestsWriteAnElement : Prop :=
  ∀ (i : Instr) (s t : State), exec i s = .next t →
    (t.pollLimit ≠ s.pollLimit → ∃ v, i = .setPollLimit v) ∧
    (t.rdata ≠ s.rdata → ∃ x y, i = .fbRead x y) ∧
    (t.attached ≠ s.attached → i = .attach ∨ i = .detach) ∧
    (t.fbValid ≠ s.fbValid ∨ t.fbW ≠ s.fbW ∨ t.fbH ≠ s.fbH → (∃ w h, i = .fbCreate w h) ∨ i = .fbDestroy) ∧
    (t.fb ≠ s.fb → (∃ w h, i = .fbCreate w h) ∨ i = .fbDestroy ∨ (∃ c, i = .fbClear c) ∨ ∃ x y c, i = .fbPixel x y c) ∧
    (t.drv ≠ s.drv → i = .init ∨ i = .hardReset ∨ i = .update) ∧
    (t.pb ≠ s.pb → i = .update) ∧
    (t.pinsConfigured ≠ s.pinsConfigured → i = .init) ∧
    (t.rstOut ≠ s.rstOut → i = .init ∨ i = .hardReset) ∧
    t.cfg = s.cfg ∧ t.requests = s.requests ∧ t.turns = s.turns

/-- 10_state.md R47 to R51: every field of every sideband word, for every level of the busy pin. -/
def Obligations.SidebandWordsShowTheState : Prop :=
  ∀ (s : State) (pin : Level) (k : Nat),
    ((s.sideband pin 0).extractLsb' 0 3).toNat = s.drv.num ∧ (s.sideband pin 0).getLsbD 3 = s.opBusy ∧
    (s.sideband pin 0).getLsbD 4 = s.attached ∧ (s.sideband pin 0).getLsbD 5 = s.fbValid ∧
    (s.sideband pin 0).getLsbD 6 = pin ∧ (s.sideband pin 0).getLsbD 7 = s.pinsConfigured ∧
    ((s.sideband pin 0).extractLsb' 8 4).toNat = s.lastResult.num ∧ (s.sideband pin 0).extractLsb' 12 4 = 0 ∧
    (∀ n, n < 16 → (s.sideband pin 0).getLsbD (16 + n) = (decide (1 ≤ n ∧ n ≤ 8) && s.faults.getLsbD n)) ∧
    (s.sideband pin 1).extractLsb' 0 16 = s.fbW ∧ (s.sideband pin 1).extractLsb' 16 16 = s.fbH ∧
    s.sideband pin 2 = s.pollLimit ∧
    (s.sideband pin 3).extractLsb' 0 8 = s.rdata ∧ (s.sideband pin 3).extractLsb' 8 24 = 0 ∧
    (4 ≤ k → s.sideband pin k = 0)

/-- 70_reset_and_hazards.md R361, for every answer of the environment: the delays among the events that a request adds before
it completes with OK. A handshake of m polls waits m poll delays and one settle delay; in HARD_RESET, UPDATE and INIT the
handshakes poll at least once each. -/
def Obligations.DelaysAddUpToTheLatencyBounds : Prop :=
  ∀ s t : State,
    (exec .waitBusy s = .next t → t.seq = .idle → t.lastResult = .ok →
      ∃ es, t.trace = s.trace ++ es ∧ 1 ≤ sampleCount es ∧
        traceDelay s.cfg es = sampleCount es * s.cfg.tPoll + s.cfg.tBusySettle) ∧
    (exec .hardReset s = .next t → t.seq = .idle → t.lastResult = .ok →
      ∃ es, t.trace = s.trace ++ es ∧
        s.cfg.tRstHigh1 + s.cfg.tRstLow + s.cfg.tRstHigh2 + s.cfg.tPoll + s.cfg.tBusySettle ≤ traceDelay s.cfg es) ∧
    (s.attached = true → exec .update s = .next t → t.seq = .idle → t.lastResult = .ok →
      ∃ es, t.trace = s.trace ++ es ∧ s.cfg.tRefreshSettle + s.cfg.tPoll + s.cfg.tBusySettle ≤ traceDelay s.cfg es) ∧
    (exec .init s = .next t → t.seq = .idle → t.lastResult = .ok →
      ∃ es, t.trace = s.trace ++ es ∧
        s.cfg.tRstHigh1 + s.cfg.tRstLow + s.cfg.tRstHigh2 + s.cfg.tPoll + s.cfg.tBusySettle + s.cfg.tInitSettle
          + (1 + waitEntries s.cfg) * (s.cfg.tPoll + s.cfg.tBusySettle)
          + s.cfg.tRefreshSettle + s.cfg.tPoll + s.cfg.tBusySettle ≤ traceDelay s.cfg es)

/-! ### Host macros -/

/-- 44_host_macros.md R253, property P5: FILL sets exactly the in-bounds cells of its region, and completes. -/
def Obligations.FillMacroSetsItsRegionOnly : Prop :=
  ∀ (s : State) (x y w h : Int) (c : Byte), granted s 2 → c = 0x00 ∨ c = 0x01 ∨ c = 0x02 → Memory.wf s.fb = true →
    ∃ t, execAll (fillMacro x y w h c) s = .next t ∧ t.fbW = s.fbW ∧ t.fbH = s.fbH ∧
      ∀ i j : Nat, i < s.fbW.toNat → j < s.fbH.toNat →
        t.fbCell (j * s.fbW.toNat + i) =
          if x ≤ i ∧ i < x + w ∧ y ≤ j ∧ j < y + h then c.setWidth 2 else s.fbCell (j * s.fbW.toNat + i)

/-- 44_host_macros.md R252: RECT draws nothing unless every corner is in bounds, and then its top and bottom rows. -/
def Obligations.RectMacroDrawsItsTopAndBottomRows : Prop :=
  ∀ (d : BitVec 32) (x y w h : Int) (c : Byte),
    (¬ (0 ≤ x ∧ x < dimsW d ∧ 0 ≤ y ∧ y < dimsH d ∧ 0 ≤ x + w ∧ x + w < dimsW d ∧ 0 ≤ y + h ∧ y + h < dimsH d) →
      rectMacro d x y w h c = []) ∧
    (0 ≤ x → x < dimsW d → 0 ≤ y → y < dimsH d → 0 ≤ x + w → x + w < dimsW d → 0 ≤ y + h → y + h < dimsH d →
      rectMacro d x y w h c =
        ((List.range w.toNat).map fun (k : Nat) => .fbPixel (BitVec.ofInt 16 (x + k)) (BitVec.ofInt 16 y) c) ++
        ((List.range w.toNat).map fun (k : Nat) => .fbPixel (BitVec.ofInt 16 (x + k)) (BitVec.ofInt 16 (y + h)) c))

/-- 44_host_macros.md R251: LINE draws nothing unless both endpoints are in bounds; then it issues, column by column from x1 up
to but not including x2, one pixel on the integer slope, and none where its y is above 65535 (R250). -/
def Obligations.LineMacroDrawsOnePointAColumn : Prop :=
  ∀ (d : BitVec 32) (x1 y1 x2 y2 : Int) (c : Byte),
    (¬ (0 ≤ x1 ∧ x1 < dimsW d ∧ 0 ≤ y1 ∧ y1 < dimsH d ∧ 0 ≤ x2 ∧ x2 < dimsW d ∧ 0 ≤ y2 ∧ y2 < dimsH d) →
      lineMacro d x1 y1 x2 y2 c = []) ∧
    (0 ≤ x1 → x1 < dimsW d → 0 ≤ y1 → y1 < dimsH d → 0 ≤ x2 → x2 < dimsW d → 0 ≤ y2 → y2 < dimsH d →
      lineMacro d x1 y1 x2 y2 c =
        (List.range (x2 - x1).toNat).filterMap fun (k : Nat) =>
          let y : Int := (max (y2 - y1).natAbs 1 / max (x2 - x1).natAbs 1 : Nat) * k + y1
          if y ≤ 65535 then some (.fbPixel (BitVec.ofInt 16 (x1 + k)) (BitVec.ofInt 16 y) c) else none)

/-- 44_host_macros.md R254: BITMAP sets exactly the in-bounds cells whose source bit is 1; data too short is refused. -/
def Obligations.BitmapMacroSetsTheSetBits : Prop :=
  ∀ (s : State) (x y : Int) (w h : Nat) (data : List Byte) (c : Byte),
    (data.length < (w + 7) / 8 * h → bitmapMacro x y w h data c = none) ∧
    (granted s 2 → (w + 7) / 8 * h ≤ data.length → c = 0x00 ∨ c = 0x01 ∨ c = 0x02 → Memory.wf s.fb = true →
      ∃ is t, bitmapMacro x y w h data c = some is ∧ execAll is s = .next t ∧
        ∀ i j : Nat, i < s.fbW.toNat → j < s.fbH.toNat →
          t.fbCell (j * s.fbW.toNat + i) =
            if x ≤ i ∧ i < x + w ∧ y ≤ j ∧ j < y + h ∧
                (data.getD ((j - y).toNat * ((w + 7) / 8) + (i - x).toNat / 8) 0).getLsbD (7 - (i - x).toNat % 8) = true
            then c.setWidth 2 else s.fbCell (j * s.fbW.toNat + i))

/-! ### Requests in execution -/

/-- 10_state.md R34, R47, 20_memory.md R78: a header, legal or not, that is accepted in a turn that grants no micro-step (log
4) leaves its request in execution, with OP_BUSY = 1, none of its effects done and no response; so a sideband read and a
block reset (`BlockResetTakesEveryElementToItsResetValue`) may fall inside every request. -/
def Obligations.EveryRequestCanBeSeenInExecution : Prop :=
  (∀ (i : Instr) (s : State), s.slice = some 0 →
    ∃ op ops, exec i s = .next { s with opBusy := true, seq := .running (op :: ops) }) ∧
  (∀ (s : State) (h : Beat) (p rest : List Beat) (ts : List Turn),
    s.seq = .idle → s.turns = .sequencer 0 :: ts → s.requests = h :: (p ++ rest) → p.length = payloadBeats h →
    ∃ op ops, step s = .next
      { s with turns := ts, slice := some 0, opBusy := true, seq := .running (op :: ops), requests := rest })

/-- 10_state.md R47, R52, for every request and every answer: one that is cut after `k` micro-steps and goes on ends as the
one that is not cut (log 4). -/
def Obligations.ResumingARequestEndsAsTheUncutOne : Prop :=
  ∀ (i : Instr) (s t : State) (k : Nat), s.pollLimit ≠ 0#32 → exec i { s with slice := some k } = .next t →
    exec i { s with slice := none } = .next (State.run { t with slice := none })

/-- 43_panel_driver.md R210, 60_exceptions.md R304: INIT's exact outcome when its piece `p` fails, be it a transfer that fails
after `k` bytes, a handshake whose status command fails after `m` busy polls, or one that reaches POLL_LIMIT: what came before
stays, nothing comes after, and DRV_STATE is the one reached last. -/
def Obligations.InitStopsAtThePieceThatFails : Prop :=
  ∀ (s : State) (ns : Nat → Nat) (pre post : List Piece) (p : Piece) (ss : List SetupAnswer) (xs : List XferAnswer)
    (vs : List Level),
    s.slice = none → s.cfg.wf = true → s.faults.getLsbD 6 = false →
    (∀ j, j < initHandshakes s.cfg → withinLimit s (ns j)) → initPieces s.cfg ns = pre ++ p :: post →
    (∀ dc bs k, p = .send dc bs →
      s.env = ⟨.ok :: ss, List.replicate (piecesTransfers pre) .ok ++ .err k :: xs, piecesSamples s.cfg pre ++ vs⟩ →
      exec .init s = .next
        { failed s .transferError with
          drv := piecesReach .uninit pre
          pinsConfigured := true
          rstOut := .high
          dcOut := .ofLevel dc
          trace := s.trace ++ ([.cfg, .setup .ok] ++ piecesTrace s.cfg pre ++ (bs.take k).map (Event.byte dc) ++ [.xferErr])
          env := ⟨ss, xs, vs⟩ }) ∧
    (∀ m k, p = .shake m →
      s.env = ⟨.ok :: ss, List.replicate (piecesTransfers pre + m) .ok ++ .err k :: xs,
        piecesSamples s.cfg pre ++ List.replicate m s.cfg.busyActiveLevel ++ vs⟩ →
      exec .init s = .next
        { failed s .transferError with
          drv := piecesReach .uninit pre
          pinsConfigured := true
          rstOut := .high
          dcOut := .low
          trace := s.trace ++ ([.cfg, .setup .ok] ++ piecesTrace s.cfg pre ++ busyPolls s.cfg m
            ++ [.byte false s.cfg.cmdGetStatus].take k ++ [.xferErr])
          env := ⟨ss, xs, vs⟩ }) ∧
    (∀ m, p = .shake m → s.pollLimit ≠ 0#32 →
      s.env = ⟨.ok :: ss, List.replicate (piecesTransfers pre + s.pollLimit.toNat) .ok ++ xs,
        piecesSamples s.cfg pre ++ List.replicate s.pollLimit.toNat s.cfg.busyActiveLevel ++ vs⟩ →
      exec .init s = .next
        { failed s .notResponding with
          drv := piecesReach .uninit pre
          pinsConfigured := true
          rstOut := .high
          dcOut := .low
          trace := s.trace ++ ([.cfg, .setup .ok] ++ piecesTrace s.cfg pre ++ busyPolls s.cfg s.pollLimit.toNat)
          env := ⟨ss, xs, vs⟩ })
end

