-- ==== Sys2Proof/Laws/Decode.lean ====
section
/-! SUPPORT. The fields of an encoded header, and the encoder's headers as the formula of 30_encoding.md R111. -/

namespace Sys2Proof

/-! ### Headers of formats N, B, D, P and R -/

@[simp] theorem beatOp_headerXY (op : BitVec 8) (b : Byte) (x y : BitVec 16) : beatOp (headerXY op b x y) = op := by
  apply BitVec.eq_of_getLsbD_eq
  intro j hj
  simp only [beatOp, headerXY, BitVec.getLsbD_extractLsb', BitVec.getLsbD_append]
  interval_cases j <;> simp

@[simp] theorem beatImm8_headerXY (op : BitVec 8) (b : Byte) (x y : BitVec 16) : beatImm8 (headerXY op b x y) = b := by
  apply BitVec.eq_of_getLsbD_eq
  intro j hj
  simp only [beatImm8, headerXY, BitVec.getLsbD_extractLsb', BitVec.getLsbD_append]
  interval_cases j <;> simp

@[simp] theorem beatX_headerXY (op : BitVec 8) (b : Byte) (x y : BitVec 16) : beatX (headerXY op b x y) = x := by
  apply BitVec.eq_of_getLsbD_eq
  intro j hj
  simp only [beatX, headerXY, BitVec.getLsbD_extractLsb', BitVec.getLsbD_append]
  interval_cases j <;> simp

@[simp] theorem beatY_headerXY (op : BitVec 8) (b : Byte) (x y : BitVec 16) : beatY (headerXY op b x y) = y := by
  apply BitVec.eq_of_getLsbD_eq
  intro j hj
  simp only [beatY, headerXY, BitVec.getLsbD_extractLsb', BitVec.getLsbD_append]
  interval_cases j <;> simp

/-- `OP | IMM8<<8 | X<<32 | Y<<48` (30_encoding.md R111). -/
theorem headerXY_eq (op : BitVec 8) (b : Byte) (x y : BitVec 16) :
    headerXY op b x y =
      op.setWidth 64 ||| b.setWidth 64 <<< 8 ||| x.setWidth 64 <<< 32 ||| y.setWidth 64 <<< 48 := by
  apply BitVec.eq_of_getLsbD_eq
  intro j hj
  simp only [headerXY, BitVec.getLsbD_append, BitVec.getLsbD_or, BitVec.getLsbD_shiftLeft, BitVec.getLsbD_setWidth]
  interval_cases j <;> simp

/-! ### Headers of formats L and W -/

@[simp] theorem beatOp_headerVal (op : BitVec 8) (v : BitVec 32) : beatOp (headerVal op v) = op := by
  apply BitVec.eq_of_getLsbD_eq
  intro j hj
  simp only [beatOp, headerVal, BitVec.getLsbD_extractLsb', BitVec.getLsbD_append]
  interval_cases j <;> simp

@[simp] theorem beatVal32_headerVal (op : BitVec 8) (v : BitVec 32) : beatVal32 (headerVal op v) = v := by
  apply BitVec.eq_of_getLsbD_eq
  intro j hj
  simp only [beatVal32, headerVal, BitVec.getLsbD_extractLsb', BitVec.getLsbD_append]
  interval_cases j <;> simp

/-- `OP | LEN32<<32` (30_encoding.md R111). -/
theorem headerVal_eq (op : BitVec 8) (v : BitVec 32) : headerVal op v = op.setWidth 64 ||| v.setWidth 64 <<< 32 := by
  apply BitVec.eq_of_getLsbD_eq
  intro j hj
  simp only [headerVal, BitVec.getLsbD_append, BitVec.getLsbD_or, BitVec.getLsbD_shiftLeft, BitVec.getLsbD_setWidth]
  interval_cases j <;> simp

/-! ### A header the table accepts decodes to its row's request (R106) -/

/-- The row that accepts a header is the one its opcode names. -/
theorem decodeRequest_of_accepts {h : Beat} {p : List Beat} {r : OpRow} (hf : opTable.find? (fun r => r.op == beatOp h) = some r)
    (ha : r.accepts h = true) : decodeRequest h p = .request (r.build h p) := by
  simp [decodeRequest, hf, ha]

/-- Only SEND_BUF has payload beats (R105). -/
theorem payloadBeats_of_ne {h : Beat} (ho : beatOp h ≠ 0x06) : payloadBeats h = 0 :=
  if_neg ho

end Sys2Proof
end

