-- ==== Sys2Proof/Laws/State.lean ====
section
/-! SUPPORT. One lemma per field per update of State, each true by rfl, so that no proof unfolds a record update; and what
`apply` and `takeTurn` leave alone. -/

namespace Sys2Proof.Machine

/-! `emit` -/

@[simp] theorem State.emit_drv (e : Event) (s : State) : (s.emit e).drv = s.drv := rfl
@[simp] theorem State.emit_opBusy (e : Event) (s : State) : (s.emit e).opBusy = s.opBusy := rfl
@[simp] theorem State.emit_fbValid (e : Event) (s : State) : (s.emit e).fbValid = s.fbValid := rfl
@[simp] theorem State.emit_fbW (e : Event) (s : State) : (s.emit e).fbW = s.fbW := rfl
@[simp] theorem State.emit_fbH (e : Event) (s : State) : (s.emit e).fbH = s.fbH := rfl
@[simp] theorem State.emit_fb (e : Event) (s : State) : (s.emit e).fb = s.fb := rfl
@[simp] theorem State.emit_attached (e : Event) (s : State) : (s.emit e).attached = s.attached := rfl
@[simp] theorem State.emit_pb (e : Event) (s : State) : (s.emit e).pb = s.pb := rfl
@[simp] theorem State.emit_pollLimit (e : Event) (s : State) : (s.emit e).pollLimit = s.pollLimit := rfl
@[simp] theorem State.emit_lastResult (e : Event) (s : State) : (s.emit e).lastResult = s.lastResult := rfl
@[simp] theorem State.emit_faults (e : Event) (s : State) : (s.emit e).faults = s.faults := rfl
@[simp] theorem State.emit_rdata (e : Event) (s : State) : (s.emit e).rdata = s.rdata := rfl
@[simp] theorem State.emit_pinsConfigured (e : Event) (s : State) : (s.emit e).pinsConfigured = s.pinsConfigured := rfl
@[simp] theorem State.emit_rstOut (e : Event) (s : State) : (s.emit e).rstOut = s.rstOut := rfl
@[simp] theorem State.emit_dcOut (e : Event) (s : State) : (s.emit e).dcOut = s.dcOut := rfl
@[simp] theorem State.emit_seq (e : Event) (s : State) : (s.emit e).seq = s.seq := rfl
@[simp] theorem State.emit_cfg (e : Event) (s : State) : (s.emit e).cfg = s.cfg := rfl
@[simp] theorem State.emit_requests (e : Event) (s : State) : (s.emit e).requests = s.requests := rfl
@[simp] theorem State.emit_responses (e : Event) (s : State) : (s.emit e).responses = s.responses := rfl
@[simp] theorem State.emit_trace (e : Event) (s : State) : (s.emit e).trace = s.trace ++ [e] := rfl
@[simp] theorem State.emit_env (e : Event) (s : State) : (s.emit e).env = s.env := rfl
@[simp] theorem State.emit_drawn (e : Event) (s : State) : (s.emit e).drawn = s.drawn := rfl
@[simp] theorem State.emit_unspec (e : Event) (s : State) : (s.emit e).unspec = s.unspec := rfl
@[simp] theorem State.emit_pbUnspec (e : Event) (s : State) : (s.emit e).pbUnspec = s.pbUnspec := rfl
@[simp] theorem State.emit_turns (e : Event) (s : State) : (s.emit e).turns = s.turns := rfl
@[simp] theorem State.emit_slice (e : Event) (s : State) : (s.emit e).slice = s.slice := rfl

/-! `goto` -/

@[simp] theorem State.goto_drv (ops : List SeqOp) (s : State) : (s.goto ops).drv = s.drv := rfl
@[simp] theorem State.goto_opBusy (ops : List SeqOp) (s : State) : (s.goto ops).opBusy = s.opBusy := rfl
@[simp] theorem State.goto_fbValid (ops : List SeqOp) (s : State) : (s.goto ops).fbValid = s.fbValid := rfl
@[simp] theorem State.goto_fbW (ops : List SeqOp) (s : State) : (s.goto ops).fbW = s.fbW := rfl
@[simp] theorem State.goto_fbH (ops : List SeqOp) (s : State) : (s.goto ops).fbH = s.fbH := rfl
@[simp] theorem State.goto_fb (ops : List SeqOp) (s : State) : (s.goto ops).fb = s.fb := rfl
@[simp] theorem State.goto_attached (ops : List SeqOp) (s : State) : (s.goto ops).attached = s.attached := rfl
@[simp] theorem State.goto_pb (ops : List SeqOp) (s : State) : (s.goto ops).pb = s.pb := rfl
@[simp] theorem State.goto_pollLimit (ops : List SeqOp) (s : State) : (s.goto ops).pollLimit = s.pollLimit := rfl
@[simp] theorem State.goto_lastResult (ops : List SeqOp) (s : State) : (s.goto ops).lastResult = s.lastResult := rfl
@[simp] theorem State.goto_faults (ops : List SeqOp) (s : State) : (s.goto ops).faults = s.faults := rfl
@[simp] theorem State.goto_rdata (ops : List SeqOp) (s : State) : (s.goto ops).rdata = s.rdata := rfl
@[simp] theorem State.goto_pinsConfigured (ops : List SeqOp) (s : State) : (s.goto ops).pinsConfigured = s.pinsConfigured := rfl
@[simp] theorem State.goto_rstOut (ops : List SeqOp) (s : State) : (s.goto ops).rstOut = s.rstOut := rfl
@[simp] theorem State.goto_dcOut (ops : List SeqOp) (s : State) : (s.goto ops).dcOut = s.dcOut := rfl
@[simp] theorem State.goto_seq (ops : List SeqOp) (s : State) : (s.goto ops).seq = .running ops := rfl
@[simp] theorem State.goto_cfg (ops : List SeqOp) (s : State) : (s.goto ops).cfg = s.cfg := rfl
@[simp] theorem State.goto_requests (ops : List SeqOp) (s : State) : (s.goto ops).requests = s.requests := rfl
@[simp] theorem State.goto_responses (ops : List SeqOp) (s : State) : (s.goto ops).responses = s.responses := rfl
@[simp] theorem State.goto_trace (ops : List SeqOp) (s : State) : (s.goto ops).trace = s.trace := rfl
@[simp] theorem State.goto_env (ops : List SeqOp) (s : State) : (s.goto ops).env = s.env := rfl
@[simp] theorem State.goto_drawn (ops : List SeqOp) (s : State) : (s.goto ops).drawn = s.drawn := rfl
@[simp] theorem State.goto_unspec (ops : List SeqOp) (s : State) : (s.goto ops).unspec = s.unspec := rfl
@[simp] theorem State.goto_pbUnspec (ops : List SeqOp) (s : State) : (s.goto ops).pbUnspec = s.pbUnspec := rfl
@[simp] theorem State.goto_turns (ops : List SeqOp) (s : State) : (s.goto ops).turns = s.turns := rfl
@[simp] theorem State.goto_slice (ops : List SeqOp) (s : State) : (s.goto ops).slice = s.slice := rfl

/-! `respond` -/

@[simp] theorem State.respond_drv (r : ResultCode) (d : Byte) (s : State) : (s.respond r d).drv = s.drv := rfl
@[simp] theorem State.respond_opBusy (r : ResultCode) (d : Byte) (s : State) : (s.respond r d).opBusy = false := rfl
@[simp] theorem State.respond_fbValid (r : ResultCode) (d : Byte) (s : State) : (s.respond r d).fbValid = s.fbValid := rfl
@[simp] theorem State.respond_fbW (r : ResultCode) (d : Byte) (s : State) : (s.respond r d).fbW = s.fbW := rfl
@[simp] theorem State.respond_fbH (r : ResultCode) (d : Byte) (s : State) : (s.respond r d).fbH = s.fbH := rfl
@[simp] theorem State.respond_fb (r : ResultCode) (d : Byte) (s : State) : (s.respond r d).fb = s.fb := rfl
@[simp] theorem State.respond_attached (r : ResultCode) (d : Byte) (s : State) : (s.respond r d).attached = s.attached := rfl
@[simp] theorem State.respond_pb (r : ResultCode) (d : Byte) (s : State) : (s.respond r d).pb = s.pb := rfl
@[simp] theorem State.respond_pollLimit (r : ResultCode) (d : Byte) (s : State) : (s.respond r d).pollLimit = s.pollLimit := rfl
@[simp] theorem State.respond_lastResult (r : ResultCode) (d : Byte) (s : State) : (s.respond r d).lastResult = r := rfl
@[simp] theorem State.respond_faults (r : ResultCode) (d : Byte) (s : State) : (s.respond r d).faults = s.faults := rfl
@[simp] theorem State.respond_rdata (r : ResultCode) (d : Byte) (s : State) : (s.respond r d).rdata = s.rdata := rfl
@[simp] theorem State.respond_pinsConfigured (r : ResultCode) (d : Byte) (s : State) : (s.respond r d).pinsConfigured = s.pinsConfigured := rfl
@[simp] theorem State.respond_rstOut (r : ResultCode) (d : Byte) (s : State) : (s.respond r d).rstOut = s.rstOut := rfl
@[simp] theorem State.respond_dcOut (r : ResultCode) (d : Byte) (s : State) : (s.respond r d).dcOut = s.dcOut := rfl
@[simp] theorem State.respond_seq (r : ResultCode) (d : Byte) (s : State) : (s.respond r d).seq = .idle := rfl
@[simp] theorem State.respond_cfg (r : ResultCode) (d : Byte) (s : State) : (s.respond r d).cfg = s.cfg := rfl
@[simp] theorem State.respond_requests (r : ResultCode) (d : Byte) (s : State) : (s.respond r d).requests = s.requests := rfl
@[simp] theorem State.respond_responses (r : ResultCode) (d : Byte) (s : State) : (s.respond r d).responses = s.responses ++ [⟨r, d⟩] := rfl
@[simp] theorem State.respond_trace (r : ResultCode) (d : Byte) (s : State) : (s.respond r d).trace = s.trace := rfl
@[simp] theorem State.respond_env (r : ResultCode) (d : Byte) (s : State) : (s.respond r d).env = s.env := rfl
@[simp] theorem State.respond_drawn (r : ResultCode) (d : Byte) (s : State) : (s.respond r d).drawn = s.drawn := rfl
@[simp] theorem State.respond_unspec (r : ResultCode) (d : Byte) (s : State) : (s.respond r d).unspec = s.unspec := rfl
@[simp] theorem State.respond_pbUnspec (r : ResultCode) (d : Byte) (s : State) : (s.respond r d).pbUnspec = s.pbUnspec := rfl
@[simp] theorem State.respond_turns (r : ResultCode) (d : Byte) (s : State) : (s.respond r d).turns = s.turns := rfl
@[simp] theorem State.respond_slice (r : ResultCode) (d : Byte) (s : State) : (s.respond r d).slice = s.slice := rfl

/-! `complete` -/

@[simp] theorem State.complete_drv (d : Byte) (s : State) : (s.complete d).drv = s.drv := rfl
@[simp] theorem State.complete_opBusy (d : Byte) (s : State) : (s.complete d).opBusy = false := rfl
@[simp] theorem State.complete_fbValid (d : Byte) (s : State) : (s.complete d).fbValid = s.fbValid := rfl
@[simp] theorem State.complete_fbW (d : Byte) (s : State) : (s.complete d).fbW = s.fbW := rfl
@[simp] theorem State.complete_fbH (d : Byte) (s : State) : (s.complete d).fbH = s.fbH := rfl
@[simp] theorem State.complete_fb (d : Byte) (s : State) : (s.complete d).fb = s.fb := rfl
@[simp] theorem State.complete_attached (d : Byte) (s : State) : (s.complete d).attached = s.attached := rfl
@[simp] theorem State.complete_pb (d : Byte) (s : State) : (s.complete d).pb = s.pb := rfl
@[simp] theorem State.complete_pollLimit (d : Byte) (s : State) : (s.complete d).pollLimit = s.pollLimit := rfl
@[simp] theorem State.complete_lastResult (d : Byte) (s : State) : (s.complete d).lastResult = .ok := rfl
@[simp] theorem State.complete_faults (d : Byte) (s : State) : (s.complete d).faults = s.faults := rfl
@[simp] theorem State.complete_rdata (d : Byte) (s : State) : (s.complete d).rdata = s.rdata := rfl
@[simp] theorem State.complete_pinsConfigured (d : Byte) (s : State) : (s.complete d).pinsConfigured = s.pinsConfigured := rfl
@[simp] theorem State.complete_rstOut (d : Byte) (s : State) : (s.complete d).rstOut = s.rstOut := rfl
@[simp] theorem State.complete_dcOut (d : Byte) (s : State) : (s.complete d).dcOut = s.dcOut := rfl
@[simp] theorem State.complete_seq (d : Byte) (s : State) : (s.complete d).seq = .idle := rfl
@[simp] theorem State.complete_cfg (d : Byte) (s : State) : (s.complete d).cfg = s.cfg := rfl
@[simp] theorem State.complete_requests (d : Byte) (s : State) : (s.complete d).requests = s.requests := rfl
@[simp] theorem State.complete_responses (d : Byte) (s : State) : (s.complete d).responses = s.responses ++ [⟨.ok, d⟩] := rfl
@[simp] theorem State.complete_trace (d : Byte) (s : State) : (s.complete d).trace = s.trace := rfl
@[simp] theorem State.complete_env (d : Byte) (s : State) : (s.complete d).env = s.env := rfl
@[simp] theorem State.complete_drawn (d : Byte) (s : State) : (s.complete d).drawn = s.drawn := rfl
@[simp] theorem State.complete_unspec (d : Byte) (s : State) : (s.complete d).unspec = s.unspec := rfl
@[simp] theorem State.complete_pbUnspec (d : Byte) (s : State) : (s.complete d).pbUnspec = s.pbUnspec := rfl
@[simp] theorem State.complete_turns (d : Byte) (s : State) : (s.complete d).turns = s.turns := rfl
@[simp] theorem State.complete_slice (d : Byte) (s : State) : (s.complete d).slice = s.slice := rfl

/-! `raise` -/

@[simp] theorem State.raise_drv (e : ResultCode) (s : State) : (s.raise e).drv = s.drv := rfl
@[simp] theorem State.raise_opBusy (e : ResultCode) (s : State) : (s.raise e).opBusy = false := rfl
@[simp] theorem State.raise_fbValid (e : ResultCode) (s : State) : (s.raise e).fbValid = s.fbValid := rfl
@[simp] theorem State.raise_fbW (e : ResultCode) (s : State) : (s.raise e).fbW = s.fbW := rfl
@[simp] theorem State.raise_fbH (e : ResultCode) (s : State) : (s.raise e).fbH = s.fbH := rfl
@[simp] theorem State.raise_fb (e : ResultCode) (s : State) : (s.raise e).fb = s.fb := rfl
@[simp] theorem State.raise_attached (e : ResultCode) (s : State) : (s.raise e).attached = s.attached := rfl
@[simp] theorem State.raise_pb (e : ResultCode) (s : State) : (s.raise e).pb = s.pb := rfl
@[simp] theorem State.raise_pollLimit (e : ResultCode) (s : State) : (s.raise e).pollLimit = s.pollLimit := rfl
@[simp] theorem State.raise_lastResult (e : ResultCode) (s : State) : (s.raise e).lastResult = e := rfl
@[simp] theorem State.raise_faults (e : ResultCode) (s : State) : (s.raise e).faults = setFault s.faults e := rfl
@[simp] theorem State.raise_rdata (e : ResultCode) (s : State) : (s.raise e).rdata = s.rdata := rfl
@[simp] theorem State.raise_pinsConfigured (e : ResultCode) (s : State) : (s.raise e).pinsConfigured = s.pinsConfigured := rfl
@[simp] theorem State.raise_rstOut (e : ResultCode) (s : State) : (s.raise e).rstOut = s.rstOut := rfl
@[simp] theorem State.raise_dcOut (e : ResultCode) (s : State) : (s.raise e).dcOut = s.dcOut := rfl
@[simp] theorem State.raise_seq (e : ResultCode) (s : State) : (s.raise e).seq = .idle := rfl
@[simp] theorem State.raise_cfg (e : ResultCode) (s : State) : (s.raise e).cfg = s.cfg := rfl
@[simp] theorem State.raise_requests (e : ResultCode) (s : State) : (s.raise e).requests = s.requests := rfl
@[simp] theorem State.raise_responses (e : ResultCode) (s : State) : (s.raise e).responses = s.responses ++ [⟨e, 0⟩] := rfl
@[simp] theorem State.raise_trace (e : ResultCode) (s : State) : (s.raise e).trace = s.trace := rfl
@[simp] theorem State.raise_env (e : ResultCode) (s : State) : (s.raise e).env = s.env := rfl
@[simp] theorem State.raise_drawn (e : ResultCode) (s : State) : (s.raise e).drawn = s.drawn := rfl
@[simp] theorem State.raise_unspec (e : ResultCode) (s : State) : (s.raise e).unspec = s.unspec := rfl
@[simp] theorem State.raise_pbUnspec (e : ResultCode) (s : State) : (s.raise e).pbUnspec = s.pbUnspec := rfl
@[simp] theorem State.raise_turns (e : ResultCode) (s : State) : (s.raise e).turns = s.turns := rfl
@[simp] theorem State.raise_slice (e : ResultCode) (s : State) : (s.raise e).slice = s.slice := rfl

/-! `writeCell` -/

@[simp] theorem State.writeCell_drv (i : Nat) (c : BitVec 2) (s : State) : (s.writeCell i c).drv = s.drv := rfl
@[simp] theorem State.writeCell_opBusy (i : Nat) (c : BitVec 2) (s : State) : (s.writeCell i c).opBusy = s.opBusy := rfl
@[simp] theorem State.writeCell_fbValid (i : Nat) (c : BitVec 2) (s : State) : (s.writeCell i c).fbValid = s.fbValid := rfl
@[simp] theorem State.writeCell_fbW (i : Nat) (c : BitVec 2) (s : State) : (s.writeCell i c).fbW = s.fbW := rfl
@[simp] theorem State.writeCell_fbH (i : Nat) (c : BitVec 2) (s : State) : (s.writeCell i c).fbH = s.fbH := rfl
@[simp] theorem State.writeCell_fb (i : Nat) (c : BitVec 2) (s : State) : (s.writeCell i c).fb = Memory.write s.fb i c := rfl
@[simp] theorem State.writeCell_attached (i : Nat) (c : BitVec 2) (s : State) : (s.writeCell i c).attached = s.attached := rfl
@[simp] theorem State.writeCell_pb (i : Nat) (c : BitVec 2) (s : State) : (s.writeCell i c).pb = s.pb := rfl
@[simp] theorem State.writeCell_pollLimit (i : Nat) (c : BitVec 2) (s : State) : (s.writeCell i c).pollLimit = s.pollLimit := rfl
@[simp] theorem State.writeCell_lastResult (i : Nat) (c : BitVec 2) (s : State) : (s.writeCell i c).lastResult = s.lastResult := rfl
@[simp] theorem State.writeCell_faults (i : Nat) (c : BitVec 2) (s : State) : (s.writeCell i c).faults = s.faults := rfl
@[simp] theorem State.writeCell_rdata (i : Nat) (c : BitVec 2) (s : State) : (s.writeCell i c).rdata = s.rdata := rfl
@[simp] theorem State.writeCell_pinsConfigured (i : Nat) (c : BitVec 2) (s : State) : (s.writeCell i c).pinsConfigured = s.pinsConfigured := rfl
@[simp] theorem State.writeCell_rstOut (i : Nat) (c : BitVec 2) (s : State) : (s.writeCell i c).rstOut = s.rstOut := rfl
@[simp] theorem State.writeCell_dcOut (i : Nat) (c : BitVec 2) (s : State) : (s.writeCell i c).dcOut = s.dcOut := rfl
@[simp] theorem State.writeCell_seq (i : Nat) (c : BitVec 2) (s : State) : (s.writeCell i c).seq = s.seq := rfl
@[simp] theorem State.writeCell_cfg (i : Nat) (c : BitVec 2) (s : State) : (s.writeCell i c).cfg = s.cfg := rfl
@[simp] theorem State.writeCell_requests (i : Nat) (c : BitVec 2) (s : State) : (s.writeCell i c).requests = s.requests := rfl
@[simp] theorem State.writeCell_responses (i : Nat) (c : BitVec 2) (s : State) : (s.writeCell i c).responses = s.responses := rfl
@[simp] theorem State.writeCell_trace (i : Nat) (c : BitVec 2) (s : State) : (s.writeCell i c).trace = s.trace := rfl
@[simp] theorem State.writeCell_env (i : Nat) (c : BitVec 2) (s : State) : (s.writeCell i c).env = s.env := rfl
@[simp] theorem State.writeCell_drawn (i : Nat) (c : BitVec 2) (s : State) : (s.writeCell i c).drawn = s.drawn := rfl
@[simp] theorem State.writeCell_unspec (i : Nat) (c : BitVec 2) (s : State) : (s.writeCell i c).unspec = s.unspec := rfl
@[simp] theorem State.writeCell_pbUnspec (i : Nat) (c : BitVec 2) (s : State) : (s.writeCell i c).pbUnspec = s.pbUnspec := rfl
@[simp] theorem State.writeCell_turns (i : Nat) (c : BitVec 2) (s : State) : (s.writeCell i c).turns = s.turns := rfl
@[simp] theorem State.writeCell_slice (i : Nat) (c : BitVec 2) (s : State) : (s.writeCell i c).slice = s.slice := rfl

/-! `fillCells` -/

@[simp] theorem State.fillCells_drv (n : Nat) (c : BitVec 2) (s : State) : (s.fillCells n c).drv = s.drv := rfl
@[simp] theorem State.fillCells_opBusy (n : Nat) (c : BitVec 2) (s : State) : (s.fillCells n c).opBusy = s.opBusy := rfl
@[simp] theorem State.fillCells_fbValid (n : Nat) (c : BitVec 2) (s : State) : (s.fillCells n c).fbValid = s.fbValid := rfl
@[simp] theorem State.fillCells_fbW (n : Nat) (c : BitVec 2) (s : State) : (s.fillCells n c).fbW = s.fbW := rfl
@[simp] theorem State.fillCells_fbH (n : Nat) (c : BitVec 2) (s : State) : (s.fillCells n c).fbH = s.fbH := rfl
@[simp] theorem State.fillCells_fb (n : Nat) (c : BitVec 2) (s : State) : (s.fillCells n c).fb = Memory.fill s.fb n c := rfl
@[simp] theorem State.fillCells_attached (n : Nat) (c : BitVec 2) (s : State) : (s.fillCells n c).attached = s.attached := rfl
@[simp] theorem State.fillCells_pb (n : Nat) (c : BitVec 2) (s : State) : (s.fillCells n c).pb = s.pb := rfl
@[simp] theorem State.fillCells_pollLimit (n : Nat) (c : BitVec 2) (s : State) : (s.fillCells n c).pollLimit = s.pollLimit := rfl
@[simp] theorem State.fillCells_lastResult (n : Nat) (c : BitVec 2) (s : State) : (s.fillCells n c).lastResult = s.lastResult := rfl
@[simp] theorem State.fillCells_faults (n : Nat) (c : BitVec 2) (s : State) : (s.fillCells n c).faults = s.faults := rfl
@[simp] theorem State.fillCells_rdata (n : Nat) (c : BitVec 2) (s : State) : (s.fillCells n c).rdata = s.rdata := rfl
@[simp] theorem State.fillCells_pinsConfigured (n : Nat) (c : BitVec 2) (s : State) : (s.fillCells n c).pinsConfigured = s.pinsConfigured := rfl
@[simp] theorem State.fillCells_rstOut (n : Nat) (c : BitVec 2) (s : State) : (s.fillCells n c).rstOut = s.rstOut := rfl
@[simp] theorem State.fillCells_dcOut (n : Nat) (c : BitVec 2) (s : State) : (s.fillCells n c).dcOut = s.dcOut := rfl
@[simp] theorem State.fillCells_seq (n : Nat) (c : BitVec 2) (s : State) : (s.fillCells n c).seq = s.seq := rfl
@[simp] theorem State.fillCells_cfg (n : Nat) (c : BitVec 2) (s : State) : (s.fillCells n c).cfg = s.cfg := rfl
@[simp] theorem State.fillCells_requests (n : Nat) (c : BitVec 2) (s : State) : (s.fillCells n c).requests = s.requests := rfl
@[simp] theorem State.fillCells_responses (n : Nat) (c : BitVec 2) (s : State) : (s.fillCells n c).responses = s.responses := rfl
@[simp] theorem State.fillCells_trace (n : Nat) (c : BitVec 2) (s : State) : (s.fillCells n c).trace = s.trace := rfl
@[simp] theorem State.fillCells_env (n : Nat) (c : BitVec 2) (s : State) : (s.fillCells n c).env = s.env := rfl
@[simp] theorem State.fillCells_drawn (n : Nat) (c : BitVec 2) (s : State) : (s.fillCells n c).drawn = s.drawn := rfl
@[simp] theorem State.fillCells_unspec (n : Nat) (c : BitVec 2) (s : State) : (s.fillCells n c).unspec = s.unspec := rfl
@[simp] theorem State.fillCells_pbUnspec (n : Nat) (c : BitVec 2) (s : State) : (s.fillCells n c).pbUnspec = s.pbUnspec := rfl
@[simp] theorem State.fillCells_turns (n : Nat) (c : BitVec 2) (s : State) : (s.fillCells n c).turns = s.turns := rfl
@[simp] theorem State.fillCells_slice (n : Nat) (c : BitVec 2) (s : State) : (s.fillCells n c).slice = s.slice := rfl

/-! `writePb` -/

@[simp] theorem State.writePb_drv (bs : List Byte) (s : State) : (s.writePb bs).drv = s.drv := rfl
@[simp] theorem State.writePb_opBusy (bs : List Byte) (s : State) : (s.writePb bs).opBusy = s.opBusy := rfl
@[simp] theorem State.writePb_fbValid (bs : List Byte) (s : State) : (s.writePb bs).fbValid = s.fbValid := rfl
@[simp] theorem State.writePb_fbW (bs : List Byte) (s : State) : (s.writePb bs).fbW = s.fbW := rfl
@[simp] theorem State.writePb_fbH (bs : List Byte) (s : State) : (s.writePb bs).fbH = s.fbH := rfl
@[simp] theorem State.writePb_fb (bs : List Byte) (s : State) : (s.writePb bs).fb = s.fb := rfl
@[simp] theorem State.writePb_attached (bs : List Byte) (s : State) : (s.writePb bs).attached = s.attached := rfl
@[simp] theorem State.writePb_pb (bs : List Byte) (s : State) : (s.writePb bs).pb = bs ++ s.pb.drop bs.length := rfl
@[simp] theorem State.writePb_pollLimit (bs : List Byte) (s : State) : (s.writePb bs).pollLimit = s.pollLimit := rfl
@[simp] theorem State.writePb_lastResult (bs : List Byte) (s : State) : (s.writePb bs).lastResult = s.lastResult := rfl
@[simp] theorem State.writePb_faults (bs : List Byte) (s : State) : (s.writePb bs).faults = s.faults := rfl
@[simp] theorem State.writePb_rdata (bs : List Byte) (s : State) : (s.writePb bs).rdata = s.rdata := rfl
@[simp] theorem State.writePb_pinsConfigured (bs : List Byte) (s : State) : (s.writePb bs).pinsConfigured = s.pinsConfigured := rfl
@[simp] theorem State.writePb_rstOut (bs : List Byte) (s : State) : (s.writePb bs).rstOut = s.rstOut := rfl
@[simp] theorem State.writePb_dcOut (bs : List Byte) (s : State) : (s.writePb bs).dcOut = s.dcOut := rfl
@[simp] theorem State.writePb_seq (bs : List Byte) (s : State) : (s.writePb bs).seq = s.seq := rfl
@[simp] theorem State.writePb_cfg (bs : List Byte) (s : State) : (s.writePb bs).cfg = s.cfg := rfl
@[simp] theorem State.writePb_requests (bs : List Byte) (s : State) : (s.writePb bs).requests = s.requests := rfl
@[simp] theorem State.writePb_responses (bs : List Byte) (s : State) : (s.writePb bs).responses = s.responses := rfl
@[simp] theorem State.writePb_trace (bs : List Byte) (s : State) : (s.writePb bs).trace = s.trace := rfl
@[simp] theorem State.writePb_env (bs : List Byte) (s : State) : (s.writePb bs).env = s.env := rfl
@[simp] theorem State.writePb_drawn (bs : List Byte) (s : State) : (s.writePb bs).drawn = s.drawn := rfl
@[simp] theorem State.writePb_unspec (bs : List Byte) (s : State) : (s.writePb bs).unspec = s.unspec := rfl
@[simp] theorem State.writePb_pbUnspec (bs : List Byte) (s : State) : (s.writePb bs).pbUnspec = s.pbUnspec := rfl
@[simp] theorem State.writePb_turns (bs : List Byte) (s : State) : (s.writePb bs).turns = s.turns := rfl
@[simp] theorem State.writePb_slice (bs : List Byte) (s : State) : (s.writePb bs).slice = s.slice := rfl

/-! `drawSetup` -/

@[simp] theorem State.drawSetup_drv  (s : State) : (s.drawSetup).drv = s.drv := rfl
@[simp] theorem State.drawSetup_opBusy  (s : State) : (s.drawSetup).opBusy = s.opBusy := rfl
@[simp] theorem State.drawSetup_fbValid  (s : State) : (s.drawSetup).fbValid = s.fbValid := rfl
@[simp] theorem State.drawSetup_fbW  (s : State) : (s.drawSetup).fbW = s.fbW := rfl
@[simp] theorem State.drawSetup_fbH  (s : State) : (s.drawSetup).fbH = s.fbH := rfl
@[simp] theorem State.drawSetup_fb  (s : State) : (s.drawSetup).fb = s.fb := rfl
@[simp] theorem State.drawSetup_attached  (s : State) : (s.drawSetup).attached = s.attached := rfl
@[simp] theorem State.drawSetup_pb  (s : State) : (s.drawSetup).pb = s.pb := rfl
@[simp] theorem State.drawSetup_pollLimit  (s : State) : (s.drawSetup).pollLimit = s.pollLimit := rfl
@[simp] theorem State.drawSetup_lastResult  (s : State) : (s.drawSetup).lastResult = s.lastResult := rfl
@[simp] theorem State.drawSetup_faults  (s : State) : (s.drawSetup).faults = s.faults := rfl
@[simp] theorem State.drawSetup_rdata  (s : State) : (s.drawSetup).rdata = s.rdata := rfl
@[simp] theorem State.drawSetup_pinsConfigured  (s : State) : (s.drawSetup).pinsConfigured = s.pinsConfigured := rfl
@[simp] theorem State.drawSetup_rstOut  (s : State) : (s.drawSetup).rstOut = s.rstOut := rfl
@[simp] theorem State.drawSetup_dcOut  (s : State) : (s.drawSetup).dcOut = s.dcOut := rfl
@[simp] theorem State.drawSetup_seq  (s : State) : (s.drawSetup).seq = s.seq := rfl
@[simp] theorem State.drawSetup_cfg  (s : State) : (s.drawSetup).cfg = s.cfg := rfl
@[simp] theorem State.drawSetup_requests  (s : State) : (s.drawSetup).requests = s.requests := rfl
@[simp] theorem State.drawSetup_responses  (s : State) : (s.drawSetup).responses = s.responses := rfl
@[simp] theorem State.drawSetup_trace  (s : State) : (s.drawSetup).trace = s.trace := rfl
@[simp] theorem State.drawSetup_env  (s : State) : (s.drawSetup).env = { s.env with setups := s.env.setups.tail } := rfl
@[simp] theorem State.drawSetup_drawn  (s : State) : (s.drawSetup).drawn = if s.env.setups.isEmpty then s.drawn + 1 else s.drawn := rfl
@[simp] theorem State.drawSetup_unspec  (s : State) : (s.drawSetup).unspec = s.unspec := rfl
@[simp] theorem State.drawSetup_pbUnspec  (s : State) : (s.drawSetup).pbUnspec = s.pbUnspec := rfl
@[simp] theorem State.drawSetup_turns  (s : State) : (s.drawSetup).turns = s.turns := rfl
@[simp] theorem State.drawSetup_slice  (s : State) : (s.drawSetup).slice = s.slice := rfl

/-! `drawXfer` -/

@[simp] theorem State.drawXfer_drv  (s : State) : (s.drawXfer).drv = s.drv := rfl
@[simp] theorem State.drawXfer_opBusy  (s : State) : (s.drawXfer).opBusy = s.opBusy := rfl
@[simp] theorem State.drawXfer_fbValid  (s : State) : (s.drawXfer).fbValid = s.fbValid := rfl
@[simp] theorem State.drawXfer_fbW  (s : State) : (s.drawXfer).fbW = s.fbW := rfl
@[simp] theorem State.drawXfer_fbH  (s : State) : (s.drawXfer).fbH = s.fbH := rfl
@[simp] theorem State.drawXfer_fb  (s : State) : (s.drawXfer).fb = s.fb := rfl
@[simp] theorem State.drawXfer_attached  (s : State) : (s.drawXfer).attached = s.attached := rfl
@[simp] theorem State.drawXfer_pb  (s : State) : (s.drawXfer).pb = s.pb := rfl
@[simp] theorem State.drawXfer_pollLimit  (s : State) : (s.drawXfer).pollLimit = s.pollLimit := rfl
@[simp] theorem State.drawXfer_lastResult  (s : State) : (s.drawXfer).lastResult = s.lastResult := rfl
@[simp] theorem State.drawXfer_faults  (s : State) : (s.drawXfer).faults = s.faults := rfl
@[simp] theorem State.drawXfer_rdata  (s : State) : (s.drawXfer).rdata = s.rdata := rfl
@[simp] theorem State.drawXfer_pinsConfigured  (s : State) : (s.drawXfer).pinsConfigured = s.pinsConfigured := rfl
@[simp] theorem State.drawXfer_rstOut  (s : State) : (s.drawXfer).rstOut = s.rstOut := rfl
@[simp] theorem State.drawXfer_dcOut  (s : State) : (s.drawXfer).dcOut = s.dcOut := rfl
@[simp] theorem State.drawXfer_seq  (s : State) : (s.drawXfer).seq = s.seq := rfl
@[simp] theorem State.drawXfer_cfg  (s : State) : (s.drawXfer).cfg = s.cfg := rfl
@[simp] theorem State.drawXfer_requests  (s : State) : (s.drawXfer).requests = s.requests := rfl
@[simp] theorem State.drawXfer_responses  (s : State) : (s.drawXfer).responses = s.responses := rfl
@[simp] theorem State.drawXfer_trace  (s : State) : (s.drawXfer).trace = s.trace := rfl
@[simp] theorem State.drawXfer_env  (s : State) : (s.drawXfer).env = { s.env with xfers := s.env.xfers.tail } := rfl
@[simp] theorem State.drawXfer_drawn  (s : State) : (s.drawXfer).drawn = if s.env.xfers.isEmpty then s.drawn + 1 else s.drawn := rfl
@[simp] theorem State.drawXfer_unspec  (s : State) : (s.drawXfer).unspec = s.unspec := rfl
@[simp] theorem State.drawXfer_pbUnspec  (s : State) : (s.drawXfer).pbUnspec = s.pbUnspec := rfl
@[simp] theorem State.drawXfer_turns  (s : State) : (s.drawXfer).turns = s.turns := rfl
@[simp] theorem State.drawXfer_slice  (s : State) : (s.drawXfer).slice = s.slice := rfl

/-! `drawSample` -/

@[simp] theorem State.drawSample_drv  (s : State) : (s.drawSample).drv = s.drv := rfl
@[simp] theorem State.drawSample_opBusy  (s : State) : (s.drawSample).opBusy = s.opBusy := rfl
@[simp] theorem State.drawSample_fbValid  (s : State) : (s.drawSample).fbValid = s.fbValid := rfl
@[simp] theorem State.drawSample_fbW  (s : State) : (s.drawSample).fbW = s.fbW := rfl
@[simp] theorem State.drawSample_fbH  (s : State) : (s.drawSample).fbH = s.fbH := rfl
@[simp] theorem State.drawSample_fb  (s : State) : (s.drawSample).fb = s.fb := rfl
@[simp] theorem State.drawSample_attached  (s : State) : (s.drawSample).attached = s.attached := rfl
@[simp] theorem State.drawSample_pb  (s : State) : (s.drawSample).pb = s.pb := rfl
@[simp] theorem State.drawSample_pollLimit  (s : State) : (s.drawSample).pollLimit = s.pollLimit := rfl
@[simp] theorem State.drawSample_lastResult  (s : State) : (s.drawSample).lastResult = s.lastResult := rfl
@[simp] theorem State.drawSample_faults  (s : State) : (s.drawSample).faults = s.faults := rfl
@[simp] theorem State.drawSample_rdata  (s : State) : (s.drawSample).rdata = s.rdata := rfl
@[simp] theorem State.drawSample_pinsConfigured  (s : State) : (s.drawSample).pinsConfigured = s.pinsConfigured := rfl
@[simp] theorem State.drawSample_rstOut  (s : State) : (s.drawSample).rstOut = s.rstOut := rfl
@[simp] theorem State.drawSample_dcOut  (s : State) : (s.drawSample).dcOut = s.dcOut := rfl
@[simp] theorem State.drawSample_seq  (s : State) : (s.drawSample).seq = s.seq := rfl
@[simp] theorem State.drawSample_cfg  (s : State) : (s.drawSample).cfg = s.cfg := rfl
@[simp] theorem State.drawSample_requests  (s : State) : (s.drawSample).requests = s.requests := rfl
@[simp] theorem State.drawSample_responses  (s : State) : (s.drawSample).responses = s.responses := rfl
@[simp] theorem State.drawSample_trace  (s : State) : (s.drawSample).trace = s.trace := rfl
@[simp] theorem State.drawSample_env  (s : State) : (s.drawSample).env = { s.env with samples := s.env.samples.tail } := rfl
@[simp] theorem State.drawSample_drawn  (s : State) : (s.drawSample).drawn = if s.env.samples.isEmpty then s.drawn + 1 else s.drawn := rfl
@[simp] theorem State.drawSample_unspec  (s : State) : (s.drawSample).unspec = s.unspec := rfl
@[simp] theorem State.drawSample_pbUnspec  (s : State) : (s.drawSample).pbUnspec = s.pbUnspec := rfl
@[simp] theorem State.drawSample_turns  (s : State) : (s.drawSample).turns = s.turns := rfl
@[simp] theorem State.drawSample_slice  (s : State) : (s.drawSample).slice = s.slice := rfl

/-! `configurePins` -/

@[simp] theorem State.configurePins_drv  (s : State) : (s.configurePins).drv = s.drv := rfl
@[simp] theorem State.configurePins_opBusy  (s : State) : (s.configurePins).opBusy = s.opBusy := rfl
@[simp] theorem State.configurePins_fbValid  (s : State) : (s.configurePins).fbValid = s.fbValid := rfl
@[simp] theorem State.configurePins_fbW  (s : State) : (s.configurePins).fbW = s.fbW := rfl
@[simp] theorem State.configurePins_fbH  (s : State) : (s.configurePins).fbH = s.fbH := rfl
@[simp] theorem State.configurePins_fb  (s : State) : (s.configurePins).fb = s.fb := rfl
@[simp] theorem State.configurePins_attached  (s : State) : (s.configurePins).attached = s.attached := rfl
@[simp] theorem State.configurePins_pb  (s : State) : (s.configurePins).pb = s.pb := rfl
@[simp] theorem State.configurePins_pollLimit  (s : State) : (s.configurePins).pollLimit = s.pollLimit := rfl
@[simp] theorem State.configurePins_lastResult  (s : State) : (s.configurePins).lastResult = s.lastResult := rfl
@[simp] theorem State.configurePins_faults  (s : State) : (s.configurePins).faults = s.faults := rfl
@[simp] theorem State.configurePins_rdata  (s : State) : (s.configurePins).rdata = s.rdata := rfl
@[simp] theorem State.configurePins_pinsConfigured  (s : State) : (s.configurePins).pinsConfigured = true := rfl
@[simp] theorem State.configurePins_rstOut  (s : State) : (s.configurePins).rstOut = if s.pinsConfigured then s.rstOut else .x := rfl
@[simp] theorem State.configurePins_dcOut  (s : State) : (s.configurePins).dcOut = if s.pinsConfigured then s.dcOut else .x := rfl
@[simp] theorem State.configurePins_seq  (s : State) : (s.configurePins).seq = s.seq := rfl
@[simp] theorem State.configurePins_cfg  (s : State) : (s.configurePins).cfg = s.cfg := rfl
@[simp] theorem State.configurePins_requests  (s : State) : (s.configurePins).requests = s.requests := rfl
@[simp] theorem State.configurePins_responses  (s : State) : (s.configurePins).responses = s.responses := rfl
@[simp] theorem State.configurePins_trace  (s : State) : (s.configurePins).trace = s.trace ++ [.cfg] := rfl
@[simp] theorem State.configurePins_env  (s : State) : (s.configurePins).env = s.env := rfl
@[simp] theorem State.configurePins_drawn  (s : State) : (s.configurePins).drawn = s.drawn := rfl
@[simp] theorem State.configurePins_unspec  (s : State) : (s.configurePins).unspec = s.unspec := rfl
@[simp] theorem State.configurePins_pbUnspec  (s : State) : (s.configurePins).pbUnspec = s.pbUnspec := rfl
@[simp] theorem State.configurePins_turns  (s : State) : (s.configurePins).turns = s.turns := rfl
@[simp] theorem State.configurePins_slice  (s : State) : (s.configurePins).slice = s.slice := rfl

/-! `blockReset` -/

@[simp] theorem State.blockReset_drv  (s : State) : (s.blockReset).drv = .uninit := rfl
@[simp] theorem State.blockReset_opBusy  (s : State) : (s.blockReset).opBusy = false := rfl
@[simp] theorem State.blockReset_fbValid  (s : State) : (s.blockReset).fbValid = false := rfl
@[simp] theorem State.blockReset_fbW  (s : State) : (s.blockReset).fbW = 0 := rfl
@[simp] theorem State.blockReset_fbH  (s : State) : (s.blockReset).fbH = 0 := rfl
@[simp] theorem State.blockReset_fb  (s : State) : (s.blockReset).fb = [] := rfl
@[simp] theorem State.blockReset_attached  (s : State) : (s.blockReset).attached = false := rfl
@[simp] theorem State.blockReset_pb  (s : State) : (s.blockReset).pb = [] := rfl
@[simp] theorem State.blockReset_pollLimit  (s : State) : (s.blockReset).pollLimit = s.cfg.defaultPollLimit := rfl
@[simp] theorem State.blockReset_lastResult  (s : State) : (s.blockReset).lastResult = .ok := rfl
@[simp] theorem State.blockReset_faults  (s : State) : (s.blockReset).faults = 0 := rfl
@[simp] theorem State.blockReset_rdata  (s : State) : (s.blockReset).rdata = 0 := rfl
@[simp] theorem State.blockReset_pinsConfigured  (s : State) : (s.blockReset).pinsConfigured = false := rfl
@[simp] theorem State.blockReset_rstOut  (s : State) : (s.blockReset).rstOut = .z := rfl
@[simp] theorem State.blockReset_dcOut  (s : State) : (s.blockReset).dcOut = .z := rfl
@[simp] theorem State.blockReset_seq  (s : State) : (s.blockReset).seq = .idle := rfl
@[simp] theorem State.blockReset_cfg  (s : State) : (s.blockReset).cfg = s.cfg := rfl
@[simp] theorem State.blockReset_requests  (s : State) : (s.blockReset).requests = s.requests := rfl
@[simp] theorem State.blockReset_responses  (s : State) : (s.blockReset).responses = s.responses := rfl
@[simp] theorem State.blockReset_trace  (s : State) : (s.blockReset).trace = s.trace := rfl
@[simp] theorem State.blockReset_env  (s : State) : (s.blockReset).env = s.env := rfl
@[simp] theorem State.blockReset_drawn  (s : State) : (s.blockReset).drawn = s.drawn := rfl
@[simp] theorem State.blockReset_unspec  (s : State) : (s.blockReset).unspec = s.unspec + 1 := rfl
@[simp] theorem State.blockReset_pbUnspec  (s : State) : (s.blockReset).pbUnspec = s.pbUnspec + 1 := rfl
@[simp] theorem State.blockReset_turns  (s : State) : (s.blockReset).turns = s.turns := rfl
@[simp] theorem State.blockReset_slice  (s : State) : (s.blockReset).slice = none := rfl

/-! `apply` writes FB, its dimensions and validity, ATTACHED, POLL_LIMIT and RDATA only. -/

@[simp] theorem State.apply_drv (e : Effect) (s : State) : (s.apply e).drv = s.drv := by cases e <;> rfl
@[simp] theorem State.apply_opBusy (e : Effect) (s : State) : (s.apply e).opBusy = s.opBusy := by cases e <;> rfl
@[simp] theorem State.apply_pb (e : Effect) (s : State) : (s.apply e).pb = s.pb := by cases e <;> rfl
@[simp] theorem State.apply_lastResult (e : Effect) (s : State) : (s.apply e).lastResult = s.lastResult := by cases e <;> rfl
@[simp] theorem State.apply_faults (e : Effect) (s : State) : (s.apply e).faults = s.faults := by cases e <;> rfl
@[simp] theorem State.apply_pinsConfigured (e : Effect) (s : State) : (s.apply e).pinsConfigured = s.pinsConfigured := by cases e <;> rfl
@[simp] theorem State.apply_rstOut (e : Effect) (s : State) : (s.apply e).rstOut = s.rstOut := by cases e <;> rfl
@[simp] theorem State.apply_dcOut (e : Effect) (s : State) : (s.apply e).dcOut = s.dcOut := by cases e <;> rfl
@[simp] theorem State.apply_seq (e : Effect) (s : State) : (s.apply e).seq = s.seq := by cases e <;> rfl
@[simp] theorem State.apply_cfg (e : Effect) (s : State) : (s.apply e).cfg = s.cfg := by cases e <;> rfl
@[simp] theorem State.apply_requests (e : Effect) (s : State) : (s.apply e).requests = s.requests := by cases e <;> rfl
@[simp] theorem State.apply_responses (e : Effect) (s : State) : (s.apply e).responses = s.responses := by cases e <;> rfl
@[simp] theorem State.apply_trace (e : Effect) (s : State) : (s.apply e).trace = s.trace := by cases e <;> rfl
@[simp] theorem State.apply_env (e : Effect) (s : State) : (s.apply e).env = s.env := by cases e <;> rfl
@[simp] theorem State.apply_drawn (e : Effect) (s : State) : (s.apply e).drawn = s.drawn := by cases e <;> rfl
@[simp] theorem State.apply_pbUnspec (e : Effect) (s : State) : (s.apply e).pbUnspec = s.pbUnspec := by cases e <;> rfl
@[simp] theorem State.apply_turns (e : Effect) (s : State) : (s.apply e).turns = s.turns := by cases e <;> rfl
@[simp] theorem State.apply_slice (e : Effect) (s : State) : (s.apply e).slice = s.slice := by cases e <;> rfl

/-! `takeTurn` writes `turns` and `slice` only. -/

@[simp] theorem State.takeTurn_drv (s : State) : s.takeTurn.drv = s.drv := by
  unfold State.takeTurn; split <;> rfl
@[simp] theorem State.takeTurn_opBusy (s : State) : s.takeTurn.opBusy = s.opBusy := by
  unfold State.takeTurn; split <;> rfl
@[simp] theorem State.takeTurn_fbValid (s : State) : s.takeTurn.fbValid = s.fbValid := by
  unfold State.takeTurn; split <;> rfl
@[simp] theorem State.takeTurn_fbW (s : State) : s.takeTurn.fbW = s.fbW := by
  unfold State.takeTurn; split <;> rfl
@[simp] theorem State.takeTurn_fbH (s : State) : s.takeTurn.fbH = s.fbH := by
  unfold State.takeTurn; split <;> rfl
@[simp] theorem State.takeTurn_fb (s : State) : s.takeTurn.fb = s.fb := by
  unfold State.takeTurn; split <;> rfl
@[simp] theorem State.takeTurn_attached (s : State) : s.takeTurn.attached = s.attached := by
  unfold State.takeTurn; split <;> rfl
@[simp] theorem State.takeTurn_pb (s : State) : s.takeTurn.pb = s.pb := by
  unfold State.takeTurn; split <;> rfl
@[simp] theorem State.takeTurn_pollLimit (s : State) : s.takeTurn.pollLimit = s.pollLimit := by
  unfold State.takeTurn; split <;> rfl
@[simp] theorem State.takeTurn_lastResult (s : State) : s.takeTurn.lastResult = s.lastResult := by
  unfold State.takeTurn; split <;> rfl
@[simp] theorem State.takeTurn_faults (s : State) : s.takeTurn.faults = s.faults := by
  unfold State.takeTurn; split <;> rfl
@[simp] theorem State.takeTurn_rdata (s : State) : s.takeTurn.rdata = s.rdata := by
  unfold State.takeTurn; split <;> rfl
@[simp] theorem State.takeTurn_pinsConfigured (s : State) : s.takeTurn.pinsConfigured = s.pinsConfigured := by
  unfold State.takeTurn; split <;> rfl
@[simp] theorem State.takeTurn_rstOut (s : State) : s.takeTurn.rstOut = s.rstOut := by
  unfold State.takeTurn; split <;> rfl
@[simp] theorem State.takeTurn_dcOut (s : State) : s.takeTurn.dcOut = s.dcOut := by
  unfold State.takeTurn; split <;> rfl
@[simp] theorem State.takeTurn_seq (s : State) : s.takeTurn.seq = s.seq := by
  unfold State.takeTurn; split <;> rfl
@[simp] theorem State.takeTurn_cfg (s : State) : s.takeTurn.cfg = s.cfg := by
  unfold State.takeTurn; split <;> rfl
@[simp] theorem State.takeTurn_requests (s : State) : s.takeTurn.requests = s.requests := by
  unfold State.takeTurn; split <;> rfl
@[simp] theorem State.takeTurn_responses (s : State) : s.takeTurn.responses = s.responses := by
  unfold State.takeTurn; split <;> rfl
@[simp] theorem State.takeTurn_trace (s : State) : s.takeTurn.trace = s.trace := by
  unfold State.takeTurn; split <;> rfl
@[simp] theorem State.takeTurn_env (s : State) : s.takeTurn.env = s.env := by
  unfold State.takeTurn; split <;> rfl
@[simp] theorem State.takeTurn_drawn (s : State) : s.takeTurn.drawn = s.drawn := by
  unfold State.takeTurn; split <;> rfl
@[simp] theorem State.takeTurn_unspec (s : State) : s.takeTurn.unspec = s.unspec := by
  unfold State.takeTurn; split <;> rfl
@[simp] theorem State.takeTurn_pbUnspec (s : State) : s.takeTurn.pbUnspec = s.pbUnspec := by
  unfold State.takeTurn; split <;> rfl

theorem State.takeTurn_slice_of_nil (s : State) (h : s.turns = []) : s.takeTurn = { s with slice := none } := by
  unfold State.takeTurn; rw [h]

end Sys2Proof.Machine
end

