-- ==== Sys2Proof/Laws/Sequencer.lean ====
section
/-! SUPPORT. What the sequencer can do: a micro-step's frame and its cost, how runs compose, and the transfer of a list of bytes. -/

namespace Sys2Proof.Machine

/-! ### The frame of a run -/

theorem DriverFrame.refl (s : State) : DriverFrame s s := ⟨rfl, rfl, rfl, rfl, rfl, rfl, rfl, rfl, rfl, rfl, rfl, rfl, rfl⟩

theorem DriverFrame.trans {a b c : State} (h : DriverFrame a b) (k : DriverFrame b c) : DriverFrame a c :=
  ⟨k.1.trans h.1, k.2.trans h.2, k.3.trans h.3, k.4.trans h.4, k.5.trans h.5, k.6.trans h.6, k.7.trans h.7,
    k.8.trans h.8, k.9.trans h.9, k.10.trans h.10, k.11.trans h.11, k.12.trans h.12, k.13.trans h.13⟩

/-- A statement that is no effect never writes what `DriverFrame` lists. -/
theorem State.perform_frame {op : SeqOp} (he : op.isEffect = false) (rest : List SeqOp) (s : State) :
    DriverFrame s (s.perform op rest) := by
  cases op with
  | effect e => simp [SeqOp.isEffect] at he
  | busSetup => unfold State.perform; cases s.setupAnswer <;> exact ⟨rfl, rfl, rfl, rfl, rfl, rfl, rfl, rfl, rfl, rfl, rfl, rfl, rfl⟩
  | xfer dc bs => unfold State.perform; dsimp only; split <;> exact ⟨rfl, rfl, rfl, rfl, rfl, rfl, rfl, rfl, rfl, rfl, rfl, rfl, rfl⟩
  | sample n =>
    unfold State.perform State.afterSample; dsimp only
    split
    · exact ⟨rfl, rfl, rfl, rfl, rfl, rfl, rfl, rfl, rfl, rfl, rfl, rfl, rfl⟩
    · split <;> exact ⟨rfl, rfl, rfl, rfl, rfl, rfl, rfl, rfl, rfl, rfl, rfl, rfl, rfl⟩
  | _ => exact ⟨rfl, rfl, rfl, rfl, rfl, rfl, rfl, rfl, rfl, rfl, rfl, rfl, rfl⟩

/-! ### How runs compose -/

/-- A run of a request that has ended does nothing. -/
theorem State.runFor_ended {s : State} (h : s.seq.isRunning = false) (n : Nat) : State.runFor n s = s := by
  cases n with
  | zero => rfl
  | succ n => unfold State.runFor; split <;> simp_all [Sequencer.isRunning]

/-- The first micro-step of a run. -/
theorem State.runFor_cons {s : State} {op : SeqOp} {rest : List SeqOp} (h : s.seq = .running (op :: rest)) (n : Nat) :
    State.runFor (n + 1) s = State.runFor n (s.perform op rest) := by
  simp [State.runFor, h]

/-- A run is its micro-steps, one after another. -/
theorem State.runFor_succ (n : Nat) (s : State) : State.runFor (n + 1) s = State.runFor n s.microStep := by
  unfold State.microStep
  split
  · rename_i h; exact State.runFor_cons h n
  · rename_i h
    have stays : ∀ k, State.runFor k s = s := by
      intro k; cases k with
      | zero => rfl
      | succ k => simp [State.runFor, h]
    rw [stays, stays]
  · rename_i h; rw [State.runFor_ended (by simp [h, Sequencer.isRunning]), State.runFor_ended (by simp [h, Sequencer.isRunning])]
  · rename_i h; rw [State.runFor_ended (by simp [h, Sequencer.isRunning]), State.runFor_ended (by simp [h, Sequencer.isRunning])]

/-- A run may be cut anywhere. -/
theorem State.runFor_add (m n : Nat) (s : State) : State.runFor (m + n) s = State.runFor n (State.runFor m s) := by
  induction m generalizing s with
  | zero => simp [State.runFor]
  | succ m ih =>
    have : m + 1 + n = (m + n) + 1 := by omega
    rw [this, State.runFor_succ, ih, State.runFor_succ]

/-- What every micro-step of a request keeps, its run keeps. -/
theorem State.runFor_induct {P : State → Prop} (step : ∀ s op rest, P s → s.seq = .running (op :: rest) → P (s.perform op rest))
    (n : Nat) (s : State) (h : P s) : P (State.runFor n s) := by
  induction n generalizing s with
  | zero => exact h
  | succ n ih =>
    unfold State.runFor
    split
    · exact ih _ (step _ _ _ h ‹_›)
    · exact h
    · exact h
    · exact h

/-- Which statements a statement leaves: none, those after it, or those it expands to. -/
theorem State.perform_left (op : SeqOp) (rest : List SeqOp) (s : State) :
    (s.perform op rest).seq = .idle ∨ (s.perform op rest).seq = .running rest ∨
    (∃ new, (s.perform op rest).seq = .running (new ++ rest) ∧ new.all (fun op => !op.isEffect && !op.quiet) = true) ∨
    (∃ new, (s.perform op rest).seq = .running (new ++ [.xferFail]) ∧ new.all (fun op => !op.isEffect && !op.quiet) = true) := by
  have moves : ∀ {dc} (bs : List Byte), (bs.map (SeqOp.moveByte dc)).all (fun op => !op.isEffect && !op.quiet) = true :=
    fun bs => List.all_eq_true.2 fun x hx => by obtain ⟨b, _, rfl⟩ := List.mem_map.1 hx; rfl
  cases op with
  | busSetup => unfold State.perform; cases s.setupAnswer <;> simp
  | xfer dc bs =>
    unfold State.perform; dsimp only; split
    · exact .inr (.inl rfl)
    · cases s.xferAnswer with
      | ok => exact .inr (.inr (.inl ⟨_, rfl, moves _⟩))
      | err k => exact .inr (.inr (.inr ⟨_, rfl, moves _⟩))
  | sample n =>
    unfold State.perform State.afterSample; dsimp only
    split
    · exact .inr (.inl rfl)
    · split
      · exact .inl rfl
      · exact .inr (.inr (.inl ⟨[.poll (n + 1)], rfl, rfl⟩))
  | poll n => exact .inr (.inr (.inl ⟨sendCommand s.cfg.cmdGetStatus ++ [.delay .poll, .sample n], rfl, rfl⟩))
  | sendPlane => exact .inr (.inr (.inl ⟨[.xfer dcDataLevel _], rfl, rfl⟩))
  | xferFail => exact .inl rfl
  | raise e => exact .inl rfl
  | complete => exact .inl rfl
  | completeRead => exact .inl rfl
  | _ => exact .inr (.inl rfl)

/-- Statements without an effect leave statements without an effect. -/
theorem State.perform_noEffect {op : SeqOp} {rest : List SeqOp} {s : State} (h : s.seq = .running (op :: rest))
    (he : s.seq.noEffect = true) : (s.perform op rest).seq.noEffect = true := by
  rw [h] at he
  simp only [Sequencer.noEffect, List.all_cons, Bool.and_eq_true] at he
  obtain h1 | h1 | ⟨new, h1, h2⟩ | ⟨new, h1, h2⟩ := State.perform_left op rest s <;> rw [h1]
  · rfl
  · exact he.2
  · simp only [Sequencer.noEffect, List.all_append, he.2, Bool.and_true]
    rw [List.all_eq_true] at h2 ⊢
    exact fun x hx => (Bool.and_eq_true _ _ ▸ h2 x hx).1
  · simp only [Sequencer.noEffect, List.all_append, Bool.and_eq_true]
    rw [List.all_eq_true] at h2 ⊢
    exact ⟨fun x hx => (Bool.and_eq_true _ _ ▸ h2 x hx).1, rfl⟩

/-- The frame of a run without an effect. -/
theorem State.runFor_frame (n : Nat) {s : State} (he : s.seq.noEffect = true) : DriverFrame s (State.runFor n s) :=
  (State.runFor_induct (P := fun t => DriverFrame s t ∧ t.seq.noEffect = true)
    (fun t op rest h hs => by
      refine ⟨h.1.trans (State.perform_frame ?_ rest t), State.perform_noEffect hs h.2⟩
      have := h.2
      rw [hs] at this
      simp only [Sequencer.noEffect, List.all_cons, Bool.and_eq_true, Bool.not_eq_true'] at this
      exact this.1) n s ⟨DriverFrame.refl s, he⟩).1

/-- The frame of the execution of a request without an effect. -/
theorem State.execute_frame {ops : List SeqOp} (he : (ops.all fun op => !op.isEffect) = true) (s : State) :
    DriverFrame s (s.execute ops) :=
  DriverFrame.trans (b := { s with opBusy := true, seq := .running ops }) ⟨rfl, rfl, rfl, rfl, rfl, rfl, rfl, rfl, rfl, rfl, rfl, rfl, rfl⟩
    (State.runFor_frame _ he)

/-! ### The cost of what is left -/

/-- The cost of a list of statements. -/
theorem State.work_running {s : State} {ops : List SeqOp} (h : s.seq = .running ops) : s.work = (ops.map s.cost).sum := by
  simp [State.work, h]

theorem State.work_ended {s : State} (h : s.seq.isRunning = false) : s.work = 0 := by
  unfold State.work; split <;> simp_all [Sequencer.isRunning]

/-- A statement's cost depends on the dimensions and the poll limit alone. -/
theorem State.cost_congr {s t : State} (hw : t.fbW = s.fbW) (hh : t.fbH = s.fbH) (hp : t.pollLimit = s.pollLimit) :
    t.cost = s.cost := by
  funext op
  cases op <;> simp [State.cost, State.planeSize, State.stride, State.pollsLeft, hw, hh, hp]

theorem State.cost_goto (ops : List SeqOp) (s : State) : (s.goto ops).cost = s.cost := State.cost_congr rfl rfl rfl

theorem State.sum_cost_moveByte (s : State) (dc : Level) (bs : List Byte) :
    ((bs.map (SeqOp.moveByte dc)).map s.cost).sum = bs.length := by
  induction bs with
  | nil => rfl
  | cons b bs ih => simp [State.cost] at *; omega

theorem State.pollsLeft_pos (n : BitVec 32) (s : State) : 1 ≤ s.pollsLeft n := by
  unfold State.pollsLeft
  split
  · omega
  · split
    · rename_i h; rw [BitVec.lt_def] at h; omega
    · have := n.isLt; omega

/-- A busy sample below the bound leaves one poll less. -/
theorem State.pollsLeft_succ {n : BitVec 32} {s : State} (hl : s.pollLimit ≠ 0#32) (hn : ¬ s.pollLimit ≤ n + 1) :
    s.pollsLeft (n + 1) + 1 ≤ s.pollsLeft n := by
  have h1 := n.isLt
  have h2 : (n + 1).toNat = n.toNat + 1 ∨ ((n + 1).toNat = 0 ∧ n.toNat = 4294967295) := by
    rw [BitVec.toNat_add]; simp; omega
  rw [BitVec.not_le] at hn
  unfold State.pollsLeft
  rw [if_neg hl, if_neg hl, if_pos hn]
  rw [BitVec.lt_def] at hn
  split <;> rename_i h <;> rw [BitVec.lt_def] at h <;> omega

theorem State.cost_pos (s : State) (op : SeqOp) : 0 < s.cost op := by
  cases op <;> simp [State.cost]
  exact State.pollsLeft_pos _ s

/-- With a bound on the polls, every micro-step that is no effect leaves less to do (60_exceptions.md R308). -/
theorem State.work_perform {s : State} {op : SeqOp} {rest : List SeqOp} (h : s.seq = .running (op :: rest))
    (he : op.isEffect = false) (hl : s.pollLimit ≠ 0#32) : (s.perform op rest).work < s.work := by
  have hf := State.perform_frame he rest s
  have hc : (s.perform op rest).cost = s.cost := State.cost_congr hf.fbW hf.fbH hf.pollLimit
  have hs : s.work = s.cost op + (rest.map s.cost).sum := by rw [State.work_running h]; rfl
  have goes : ∀ {ops}, (s.perform op rest).seq = .running ops → (ops.map s.cost).sum < s.cost op + (rest.map s.cost).sum →
      (s.perform op rest).work < s.work := by
    intro ops h1 h2; rw [State.work_running h1, hc, hs]; exact h2
  have ends : (s.perform op rest).seq = .idle → (s.perform op rest).work < s.work := by
    intro h1
    rw [State.work_ended (by simp [h1, Sequencer.isRunning]), hs]
    have := State.cost_pos s op
    omega
  have one : (s.perform op rest).seq = .running rest → (s.perform op rest).work < s.work := fun h1 =>
    goes h1 (by have := State.cost_pos s op; omega)
  cases op with
  | setDrv d => exact one rfl
  | configurePins => exact one rfl
  | driveRst v => exact one rfl
  | driveDc v => exact one rfl
  | delay t => exact one rfl
  | moveByte dc b => exact one rfl
  | packPlane p => exact one rfl
  | xferFail => exact ends rfl
  | raise e => exact ends rfl
  | complete => exact ends rfl
  | completeRead => exact ends rfl
  | effect e => simp [SeqOp.isEffect] at he
  | busSetup =>
    cases ha : s.setupAnswer with
    | ok => exact one (by simp [State.perform, ha])
    | fail => exact ends (by simp [State.perform, ha])
  | sendPlane => exact goes rfl (by simp [State.cost])
  | poll n =>
    refine goes rfl ?_
    have hp := State.pollsLeft_pos n s
    simp [sendCommand, State.cost]; omega
  | xfer dc bs =>
    by_cases hb : bs.isEmpty
    · exact one (by simp [State.perform, hb])
    · cases ha : s.xferAnswer with
      | ok =>
        refine goes (ops := bs.map (SeqOp.moveByte dc) ++ rest) (by simp [State.perform, hb, ha, transferOps]) ?_
        rw [List.map_append, List.sum_append, State.sum_cost_moveByte]
        simp [State.cost]
      | err k =>
        refine goes (ops := (bs.take k).map (SeqOp.moveByte dc) ++ [.xferFail]) (by simp [State.perform, hb, ha, transferOps]) ?_
        rw [List.map_append, List.sum_append, State.sum_cost_moveByte]
        have : (bs.take k).length ≤ bs.length := by simp
        simp [State.cost] at *; omega
  | sample n =>
    have hu : (s.perform (.sample n) rest).seq = .running rest ∨ (s.perform (.sample n) rest).seq = .idle ∨
        ((s.perform (.sample n) rest).seq = .running (.poll (n + 1) :: rest) ∧ ¬ (s.pollLimit ≤ n + 1)) := by
      unfold State.perform State.afterSample
      dsimp only
      split
      · exact .inl rfl
      · split
        · exact .inr (.inl rfl)
        · rename_i h2
          refine .inr (.inr ⟨rfl, fun h3 => h2 ⟨hl, h3⟩⟩)
    rcases hu with h1 | h1 | ⟨h1, h2⟩
    · exact one h1
    · exact ends h1
    · refine goes h1 ?_
      have h3 := State.pollsLeft_succ hl h2
      simp only [List.map_cons, List.sum_cons, State.cost]
      omega

/-! ### An effect ends its request's work -/

/-- A completion ends the request. -/
theorem State.perform_completes {op : SeqOp} (h : op.completes = true) (rest : List SeqOp) (s : State) :
    (s.perform op rest).seq = .idle := by
  cases op <;> first | rfl | simp [SeqOp.completes] at h

/-- After an effect comes its request's completion. -/
theorem effectsLast_effect {e : Effect} {rest : List SeqOp} (h : effectsLast (.effect e :: rest) = true) :
    ∃ op, rest = [op] ∧ op.completes = true := by
  match rest, h with
  | [], h => simp [effectsLast, SeqOp.isEffect] at h
  | [op], h => exact ⟨op, rfl, h⟩
  | a :: b :: l, h => simp [effectsLast, SeqOp.isEffect] at h

/-- After any other statement the rest has the same form. -/
theorem effectsLast_cons {op : SeqOp} {rest : List SeqOp} (he : op.isEffect = false) :
    effectsLast (op :: rest) = effectsLast rest := by
  cases op <;> first | (simp [SeqOp.isEffect] at he; done) | simp [effectsLast, SeqOp.isEffect]

/-- Statements without an effect may come before. -/
theorem effectsLast_append {new rest : List SeqOp} (h : new.all (fun op => !op.isEffect) = true)
    (hr : effectsLast rest = true) : effectsLast (new ++ rest) = true := by
  induction new with
  | nil => exact hr
  | cons op new ih =>
    simp only [List.all_cons, Bool.and_eq_true, Bool.not_eq_true'] at h
    rw [List.cons_append, effectsLast_cons h.1]
    exact ih (by simpa using h.2)

/-- A micro-step keeps the form. -/
theorem State.perform_effectsLast {op : SeqOp} {rest ops : List SeqOp} {s : State} (he : effectsLast (op :: rest) = true)
    (ho : (s.perform op rest).seq = .running ops) : effectsLast ops = true := by
  have hr : effectsLast rest = true := by
    cases ho : op.isEffect with
    | false => rwa [effectsLast_cons ho] at he
    | true =>
      cases op <;> first | (simp [SeqOp.isEffect] at ho; done) | skip
      obtain ⟨o, rfl, h⟩ := effectsLast_effect he
      cases o <;> first | rfl | simp [SeqOp.completes] at h
  have ne : ∀ new : List SeqOp, new.all (fun op => !op.isEffect && !op.quiet) = true →
      new.all (fun op => !op.isEffect) = true := by
    intro new h
    rw [List.all_eq_true] at h ⊢
    exact fun x hx => (Bool.and_eq_true _ _ ▸ h x hx).1
  obtain h1 | h1 | ⟨new, h1, h2⟩ | ⟨new, h1, h2⟩ := State.perform_left op rest s <;> rw [h1] at ho
  · cases ho
  · cases ho; exact hr
  · cases ho; exact effectsLast_append (ne _ h2) hr
  · cases ho; exact effectsLast_append (ne _ h2) rfl

end Sys2Proof.Machine
end

