-- ==== Sys2Proof/Laws/Procedures.lean ====
section
/-! SUPPORT. The driver's procedures as runs: how many micro-steps each takes and the one state it ends in, so that no proof
unfolds a micro-step of them again. -/

namespace Sys2Proof.Machine

/-! ### Draws -/

/-- A prepared answer is the next one. -/
theorem State.xferAnswer_of_cons {s : State} {a : XferAnswer} {xs : List XferAnswer} (h : s.env.xfers = a :: xs) :
    s.xferAnswer = a := by
  simp [State.xferAnswer, h]

theorem State.drawXfer_of_cons {s : State} {a : XferAnswer} {xs : List XferAnswer} (h : s.env.xfers = a :: xs) :
    s.drawXfer = { s with env := { s.env with xfers := xs } } := by
  simp [State.drawXfer, h]

theorem State.sampleAnswer_of_cons {s : State} {v : Level} {vs : List Level} (h : s.env.samples = v :: vs) :
    s.sampleAnswer = v := by
  simp [State.sampleAnswer, h]

theorem State.drawSample_of_cons {s : State} {v : Level} {vs : List Level} (h : s.env.samples = v :: vs) :
    s.drawSample = { s with env := { s.env with samples := vs } } := by
  simp [State.drawSample, h]

theorem State.setupAnswer_of_cons {s : State} {a : SetupAnswer} {ss : List SetupAnswer} (h : s.env.setups = a :: ss) :
    s.setupAnswer = a := by
  simp [State.setupAnswer, h]

theorem State.drawSetup_of_cons {s : State} {a : SetupAnswer} {ss : List SetupAnswer} (h : s.env.setups = a :: ss) :
    s.drawSetup = { s with env := { s.env with setups := ss } } := by
  simp [State.drawSetup, h]

/-! ### A request's end -/

/-- A run that ends within the work of its request is the request's run. -/
theorem State.run_eq_of_runFor {s t : State} {n : Nat} (hs : s.slice = none) (h : State.runFor n s = t)
    (ht : t.seq.isRunning = false) (hn : n ≤ s.work) : s.run = t := by
  obtain ⟨k, hk⟩ := Nat.exists_eq_add_of_le hn
  rw [State.run, hs, Option.getD_none, hk, State.runFor_add, h, State.runFor_ended ht]

/-- A request that ends within the work of its statements ends in that state. -/
theorem State.execute_eq {s t : State} {ops : List SeqOp} {n : Nat} (hs : s.slice = none)
    (h : State.runFor n { s with opBusy := true, seq := .running ops } = t) (ht : t.seq.isRunning = false)
    (hn : n ≤ (ops.map s.cost).sum) : s.execute ops = t :=
  State.run_eq_of_runFor hs h ht hn

/-- With a bound on the polls, a run of as many micro-steps as there is work ends the request, or strands it with no
statement left. -/
theorem State.runFor_work (n : Nat) (s : State) (hl : s.pollLimit ≠ 0#32)
    (he : ∀ ops, s.seq = .running ops → effectsLast ops = true) (hn : s.work ≤ n) : (State.runFor n s).work = 0 := by
  induction n generalizing s with
  | zero => simpa [State.runFor] using hn
  | succ n ih =>
    cases hq : s.seq with
    | idle => rw [State.runFor_ended (by simp [hq, Sequencer.isRunning])]; exact State.work_ended (by simp [hq, Sequencer.isRunning])
    | receiving h g =>
      rw [State.runFor_ended (by simp [hq, Sequencer.isRunning])]; exact State.work_ended (by simp [hq, Sequencer.isRunning])
    | running ops =>
      cases ops with
      | nil => simp [State.runFor, hq, State.work]
      | cons op rest =>
        rw [State.runFor_cons hq]
        have hE := he _ hq
        cases ho : op.isEffect with
        | false =>
          have h1 := State.work_perform hq ho hl
          exact ih _ (by rw [(State.perform_frame ho rest s).pollLimit]; exact hl)
            (fun ops h => State.perform_effectsLast hE h) (by omega)
        | true =>
          cases op <;> simp [SeqOp.isEffect] at ho
          rename_i e
          obtain ⟨o, rfl, hc⟩ := effectsLast_effect hE
          have hp := State.cost_pos s o
          rw [State.work_running hq] at hn
          simp only [List.map_cons, List.map_nil, List.sum_cons, List.sum_nil] at hn
          have h1 : s.cost (.effect e) = 1 := rfl
          obtain ⟨m, rfl⟩ : ∃ m, n = m + 1 := ⟨n - 1, by omega⟩
          rw [State.runFor_cons (op := o) (rest := []) rfl]
          have hd := State.perform_completes hc [] (s.perform (.effect e) [o])
          rw [State.runFor_ended (by rw [hd]; rfl)]
          exact State.work_ended (by rw [hd]; rfl)

/-! ### Requests that move no byte -/

/-- A turn that grants what a request takes runs it to its end. -/
theorem State.execute_eq_of_granted {s t : State} {ops : List SeqOp} {n : Nat} (hg : n ≤ s.slice.getD n)
    (h : State.runFor n { s with opBusy := true, seq := .running ops } = t) (ht : t.seq.isRunning = false)
    (hn : n ≤ (ops.map s.cost).sum) : s.execute ops = t := by
  cases hs : s.slice with
  | none => exact State.execute_eq hs h ht hn
  | some k =>
    rw [hs, Option.getD_some] at hg
    obtain ⟨m, rfl⟩ := Nat.exists_eq_add_of_le hg
    unfold State.execute State.run
    rw [show Option.getD (State.slice { s with opBusy := true, seq := .running ops }) _ = n + m from by simp [hs],
      State.runFor_add, h, State.runFor_ended ht]

/-- A check that fails (60_exceptions.md R301, R303). -/
theorem State.execute_raise {s : State} (hg : 1 ≤ s.slice.getD 1) (e : ResultCode) :
    s.execute [.raise e] = s.raise e :=
  State.execute_eq_of_granted (n := 1) hg rfl rfl (by simp [State.cost])

/-- A request without an effect (60_exceptions.md R302). -/
theorem State.execute_complete {s : State} (hg : 1 ≤ s.slice.getD 1) :
    s.execute [.complete] = s.complete 0x00 :=
  State.execute_eq_of_granted (n := 1) hg rfl rfl (by simp [State.cost])

/-- A request with one effect. -/
theorem State.execute_effect {s : State} (hg : 2 ≤ s.slice.getD 2) (e : Effect) :
    s.execute [.effect e, .complete] = (s.apply e).complete 0x00 :=
  State.execute_eq_of_granted (n := 2) hg (by cases e <;> rfl) rfl (by simp [State.cost])

/-- FB_READ's effect, whose completion carries RDATA (41_framebuffer.md R145). -/
theorem State.execute_read {s : State} (hg : 2 ≤ s.slice.getD 2) (i : Nat) :
    s.execute [.effect (.readCell i), .completeRead] = (s.apply (.readCell i)).complete ((s.fbCell i).setWidth 8) :=
  State.execute_eq_of_granted (n := 2) hg rfl rfl (by simp [State.cost])

/-! ### Transfers -/

/-- The bytes of a transfer move one after another (43_panel_driver.md R203). -/
theorem State.runFor_moveBytes (dc : Level) (bs : List Byte) (rest : List SeqOp) (s : State)
    (h : s.seq = .running (bs.map (SeqOp.moveByte dc) ++ rest)) :
    State.runFor bs.length s =
      { s with trace := s.trace ++ bs.map (Event.byte dc), seq := .running rest } := by
  induction bs generalizing s with
  | nil => cases s; simp only [List.map_nil, List.nil_append] at h; subst h; simp [State.runFor]
  | cons b bs ih =>
    rw [List.length_cons, State.runFor_cons (op := .moveByte dc b) (rest := bs.map (SeqOp.moveByte dc) ++ rest) (by simpa using h), ih _ rfl]
    simp [State.perform, State.goto, State.emit]

/-- A transfer of some bytes that all move (43_panel_driver.md R203). -/
theorem State.runFor_xfer_ok {dc : Level} {bs : List Byte} {rest : List SeqOp} {s : State} (hb : bs ≠ [])
    (h : s.seq = .running (.xfer dc bs :: rest)) (ha : s.xferAnswer = .ok) :
    State.runFor (bs.length + 1) s =
      { s.drawXfer with trace := s.trace ++ bs.map (Event.byte dc), seq := .running rest } := by
  have hb' : bs.isEmpty = false := by cases bs <;> simp_all
  rw [State.runFor_cons h, State.runFor_moveBytes dc bs rest]
  · simp [State.perform, hb', State.goto]
  · simp [State.perform, hb', ha, transferOps, State.goto]

/-- A transfer of some bytes that fails after `k` of them (43_panel_driver.md R203). -/
theorem State.runFor_xfer_err {dc : Level} {bs : List Byte} {rest : List SeqOp} {s : State} {k : Nat} (hb : bs ≠ [])
    (h : s.seq = .running (.xfer dc bs :: rest)) (ha : s.xferAnswer = .err k) :
    State.runFor ((bs.take k).length + 2) s =
      State.raise .transferError
        { s.drawXfer with trace := s.trace ++ ((bs.take k).map (Event.byte dc) ++ [.xferErr]), seq := .idle } := by
  have hb' : bs.isEmpty = false := by cases bs <;> simp_all
  rw [State.runFor_cons h, State.runFor_add _ 1, State.runFor_moveBytes dc (bs.take k) [.xferFail]]
  · simp [State.perform, hb', State.goto, State.runFor, State.emit, State.raise, State.respond]
  · simp [State.perform, hb', ha, transferOps, State.goto]

/-- `SendCommand(b)` when the transfer moves (43_panel_driver.md R200). -/
theorem State.runFor_sendCommand {b : Byte} {rest : List SeqOp} {s : State} (h : s.seq = .running (sendCommand b ++ rest))
    (ha : s.xferAnswer = .ok) :
    State.runFor 3 s =
      { s.drawXfer with dcOut := .low, trace := s.trace ++ [.byte false b], seq := .running rest } := by
  rw [State.runFor_cons (op := .driveDc false) (rest := .xfer false [b] :: rest) (by simpa [sendCommand, dcCommandLevel] using h)]
  exact (State.runFor_xfer_ok (s := State.goto _ { s with dcOut := .low }) (List.cons_ne_nil b []) rfl (by simpa [State.xferAnswer] using ha)).trans rfl

/-- `SendDataBuffer(bs)` when the transfer moves (43_panel_driver.md R202). -/
theorem State.runFor_sendDataBuffer {bs : List Byte} {rest : List SeqOp} {s : State} (hb : bs ≠ [])
    (h : s.seq = .running (sendDataBuffer bs ++ rest)) (ha : s.xferAnswer = .ok) :
    State.runFor (bs.length + 2) s =
      { s.drawXfer with dcOut := .high, trace := s.trace ++ bs.map (Event.byte true), seq := .running rest } := by
  rw [State.runFor_cons (op := .driveDc true) (rest := .xfer true bs :: rest) (by simpa [sendDataBuffer, dcDataLevel] using h)]
  exact (State.runFor_xfer_ok (s := State.goto _ { s with dcOut := .high }) hb rfl (by simpa [State.xferAnswer] using ha)).trans rfl

/-! ### Handshakes -/

/-- One poll whose command byte moves, up to the tests after its sample (43_panel_driver.md R205). -/
theorem State.runFor_poll {n : BitVec 32} {rest : List SeqOp} {s : State} {v : Level} {xs : List XferAnswer} {vs : List Level}
    (h : s.seq = .running (.poll n :: rest)) (hx : s.env.xfers = .ok :: xs) (hv : s.env.samples = v :: vs) :
    State.runFor 6 s =
      State.afterSample (n + 1) v rest
        { s with
          dcOut := .low
          trace := s.trace ++ pollTrace s.cfg v
          env := { s.env with xfers := xs, samples := vs }
          seq := .running (.sample n :: rest) } := by
  have hc := State.runFor_sendCommand (s := s.perform (.poll n) rest) (b := s.cfg.cmdGetStatus)
    (rest := .delay .poll :: .sample n :: rest) (by simp [State.perform]) (State.xferAnswer_of_cons (xs := xs) hx)
  rw [State.runFor_cons h, State.runFor_add 3 2, hc,
    State.drawXfer_of_cons (s := s.perform (.poll n) rest) (xs := xs) hx]
  cases s
  simp only at hv
  simp [State.runFor, State.perform, State.goto, State.emit, State.sampleAnswer, State.drawSample, hv, State.afterSample,
    pollTrace, dcCommandLevel, State.raise, State.respond]

/-- A busy sample below the bound: the handshake goes on (43_panel_driver.md R205). -/
theorem State.afterSample_busy {n : BitVec 32} {rest : List SeqOp} {s : State}
    (h : s.pollLimit ≠ 0#32 → n < s.pollLimit) :
    s.afterSample n s.cfg.busyActiveLevel rest = s.goto (.poll n :: rest) := by
  unfold State.afterSample
  rw [if_neg (by simp), if_neg]
  rintro ⟨h1, h2⟩
  exact absurd (h h1) (by simpa using h2)

/-- Polls that read busy, with the bound still ahead (43_panel_driver.md R205). -/
theorem State.runFor_busyPolls (m : Nat) {n : BitVec 32} {rest : List SeqOp} {s : State} {xs : List XferAnswer}
    {vs : List Level} (h : s.seq = .running (.poll n :: rest)) (hx : s.env.xfers = List.replicate m .ok ++ xs)
    (hv : s.env.samples = List.replicate m s.cfg.busyActiveLevel ++ vs)
    (hm : s.pollLimit ≠ 0#32 → n.toNat + m < s.pollLimit.toNat) :
    State.runFor (6 * m) s =
      { s with
        dcOut := if m = 0 then s.dcOut else .low
        trace := s.trace ++ busyPolls s.cfg m
        env := { s.env with xfers := xs, samples := vs }
        seq := .running (.poll (n + BitVec.ofNat 32 m) :: rest) } := by
  induction m generalizing s n with
  | zero =>
    cases s with | _ => ?_
    simp at hx hv h
    subst h
    simp [State.runFor, busyPolls, ← hx, ← hv]
  | succ m ih =>
    rw [show 6 * (m + 1) = 6 + 6 * m by omega, State.runFor_add, State.runFor_poll h (xs := List.replicate m .ok ++ xs)
      (vs := List.replicate m s.cfg.busyActiveLevel ++ vs) (v := s.cfg.busyActiveLevel) (by simpa [List.replicate_succ] using hx)
      (by simpa [List.replicate_succ] using hv)]
    have hlt := s.pollLimit.isLt
    have hadd : s.pollLimit ≠ 0#32 → (n + 1).toNat = n.toNat + 1 := by
      intro hl; have := hm hl; rw [BitVec.toNat_add]; simp; omega
    rw [State.afterSample_busy (s := { s with
          dcOut := .low
          trace := s.trace ++ pollTrace s.cfg s.cfg.busyActiveLevel
          env := { s.env with xfers := List.replicate m .ok ++ xs, samples := List.replicate m s.cfg.busyActiveLevel ++ vs }
          seq := .running (.sample n :: rest) })]
    · rw [ih (n := n + 1) rfl rfl rfl]
      · simp [State.goto, busyPolls, List.replicate_succ]
        rw [BitVec.ofNat_add, BitVec.add_assoc, BitVec.add_comm (BitVec.ofNat 32 m)]
      · intro hl; have := hm hl; have := hadd hl; simp at *; omega
    · intro hl; have := hm hl; have := hadd hl; simp [BitVec.lt_def] at *; omega

/-- A handshake whose first `n` polls read busy and whose next one does not (43_panel_driver.md R205). -/
theorem State.runFor_waitBusy (n : Nat) {rest : List SeqOp} {s : State} {xs : List XferAnswer}
    {vs : List Level} (h : s.seq = .running (waitBusy ++ rest)) (hx : s.env.xfers = List.replicate (n + 1) .ok ++ xs)
    (hv : s.env.samples = List.replicate n s.cfg.busyActiveLevel ++ (!s.cfg.busyActiveLevel) :: vs)
    (hn : s.pollLimit ≠ 0#32 → n < s.pollLimit.toNat) :
    State.runFor (6 * n + 7) s =
      { s with
        dcOut := .low
        trace := s.trace ++ handshakeTrace s.cfg n
        env := { s.env with xfers := xs, samples := vs }
        seq := .running rest } := by
  rw [show 6 * n + 7 = 6 * n + (6 + 1) by omega, State.runFor_add, State.runFor_add,
    State.runFor_busyPolls n (n := 0) (rest := .delay .busySettle :: rest) (by simpa [waitBusy] using h)
      (xs := .ok :: xs) (by rw [hx, List.replicate_succ', List.append_assoc]; rfl) hv (by simpa using hn),
    State.runFor_poll rfl (xs := xs) (vs := vs) rfl rfl]
  simp [State.afterSample, State.runFor, State.perform, State.goto, State.emit, handshakeTrace]

/-- A handshake whose status command fails to move after `m` busy polls (43_panel_driver.md R203, R205). -/
theorem State.runFor_waitBusy_err (m k : Nat) {rest : List SeqOp} {s : State} {xs : List XferAnswer} {vs : List Level}
    (h : s.seq = .running (waitBusy ++ rest)) (hx : s.env.xfers = List.replicate m .ok ++ .err k :: xs)
    (hv : s.env.samples = List.replicate m s.cfg.busyActiveLevel ++ vs)
    (hm : s.pollLimit ≠ 0#32 → m < s.pollLimit.toNat) :
    State.runFor (6 * m + ((([s.cfg.cmdGetStatus].take k).length + 2) + 1 + 1)) s =
      State.raise .transferError
        { s with
          dcOut := .low
          trace := s.trace ++ (busyPolls s.cfg m ++ ([.byte false s.cfg.cmdGetStatus].take k ++ [.xferErr]))
          env := { s.env with xfers := xs, samples := vs } } := by
  rw [State.runFor_add, State.runFor_busyPolls m (n := 0) (rest := .delay .busySettle :: rest) (by simpa [waitBusy] using h)
    hx hv (by simpa using hm)]
  refine (State.runFor_cons rfl _).trans ((State.runFor_cons rfl _).trans
    ((State.runFor_xfer_err (List.cons_ne_nil s.cfg.cmdGetStatus []) rfl rfl).trans ?_))
  simp [State.perform, sendCommand, State.goto, State.raise, State.respond, State.drawXfer, dcCommandLevel, PinLevel.ofLevel]

/-- A handshake that reads busy POLL_LIMIT times (43_panel_driver.md R205). -/
theorem State.runFor_waitBusy_notResponding {rest : List SeqOp} {s : State} {xs : List XferAnswer} {vs : List Level}
    (h : s.seq = .running (waitBusy ++ rest)) (hl : s.pollLimit ≠ 0#32)
    (hx : s.env.xfers = List.replicate s.pollLimit.toNat .ok ++ xs)
    (hv : s.env.samples = List.replicate s.pollLimit.toNat s.cfg.busyActiveLevel ++ vs) :
    State.runFor (6 * s.pollLimit.toNat) s =
      State.raise .notResponding
        { s with
          dcOut := .low
          trace := s.trace ++ busyPolls s.cfg s.pollLimit.toNat
          env := { s.env with xfers := xs, samples := vs } } := by
  have hpos : s.pollLimit.toNat ≠ 0 := fun h0 => hl (BitVec.eq_of_toNat_eq (by simpa using h0))
  obtain ⟨m, hm⟩ : ∃ m, s.pollLimit.toNat = m + 1 := Nat.exists_eq_succ_of_ne_zero hpos
  rw [hm] at hx hv ⊢
  rw [show 6 * (m + 1) = 6 * m + 6 by omega, State.runFor_add,
    State.runFor_busyPolls m (n := 0) (rest := .delay .busySettle :: rest) (by simpa [waitBusy] using h)
      (xs := .ok :: xs) (vs := s.cfg.busyActiveLevel :: vs) (by rw [hx, List.replicate_succ', List.append_assoc]; rfl)
      (by rw [hv, List.replicate_succ', List.append_assoc]; rfl) (by intro; simp; omega),
    State.runFor_poll rfl (xs := xs) (vs := vs) rfl rfl]
  have he : (0#32 + BitVec.ofNat 32 m + 1) = s.pollLimit := by
    apply BitVec.eq_of_toNat_eq; have := s.pollLimit.isLt; simp; omega
  simp only [State.afterSample]
  rw [if_neg (by simp), if_pos]
  · simp [State.raise, State.respond, busyPolls, List.replicate_succ']
  · exact ⟨hl, by show s.pollLimit ≤ 0#32 + BitVec.ofNat 32 m + 1; rw [he]; exact BitVec.le_refl _⟩

/-- A handshake within the limit has a poll left after its busy ones. -/
theorem State.pollsLeft_ge {s : State} {n : Nat} (h : n < 4294967296 ∧ (s.pollLimit ≠ 0#32 → n < s.pollLimit.toNat)) :
    n + 1 ≤ s.pollsLeft 0 := by
  unfold State.pollsLeft
  split
  · exact h.1
  · rename_i hl; have := h.2 hl; rw [if_pos (by rw [BitVec.lt_def]; simp; omega)]; simp; omega

/-- The polls of a whole handshake are POLL_LIMIT. -/
theorem State.pollsLeft_zero {s : State} (h : s.pollLimit ≠ 0#32) : s.pollsLeft 0 = s.pollLimit.toNat := by
  have hpos : s.pollLimit.toNat ≠ 0 := fun h0 => h (BitVec.eq_of_toNat_eq (by simpa using h0))
  unfold State.pollsLeft
  rw [if_neg h, if_pos]
  · rfl
  · rw [BitVec.lt_def]; simp; omega

end Sys2Proof.Machine
end

