-- ==== Sys2Proof/Laws/Init.lean ====
section
/-! SUPPORT. INIT as pieces: the run of pieces that succeed, and INIT's statements as those of its pieces, so that no proof about
INIT unfolds a micro-step. -/

namespace Sys2Proof.Machine

/-- The statements of a piece. -/
def Piece.ops : Piece → List SeqOp
  | .say es     => es.filterMap fun e => match e with
    | .wait t => some (.delay t)
    | .cfg | .setup _ | .rst _ | .byte _ _ | .xferErr | .sample _ => none
  | .send dc bs => [.driveDc dc, .xfer dc bs]
  | .shake _    => waitBusy
  | .reach d    => [.setDrv d]

/-- The statements of pieces, one after another. -/
def piecesOps (ps : List Piece) : List SeqOp := ps.flatMap Piece.ops

/-- The DC pin after pieces that succeed. -/
def piecesDc : PinLevel → List Piece → PinLevel
  | d, []               => d
  | _, .send dc _ :: ps => piecesDc (.ofLevel dc) ps
  | _, .shake _ :: ps   => piecesDc .low ps
  | d, .say _ :: ps     => piecesDc d ps
  | d, .reach _ :: ps   => piecesDc d ps

/-- What a run needs of a piece: one delay, a transfer of some bytes, a handshake within the limit. -/
def Piece.ok (s : State) : Piece → Prop
  | .say es => ∃ t, es = [.wait t]
  | .send _ bs => bs ≠ []
  | .shake n => n < 4294967296 ∧ (s.pollLimit ≠ 0#32 → n < s.pollLimit.toNat)
  | .reach _ => True

/-- Pieces that succeed: how long their statements run, and the one state they end in. -/
theorem State.runFor_pieces (ps : List Piece) {rest : List SeqOp} {s : State} {xs vs}
    (hok : ∀ p ∈ ps, p.ok s) (h : s.seq = .running (piecesOps ps ++ rest))
    (hx : s.env.xfers = List.replicate (piecesTransfers ps) .ok ++ xs)
    (hv : s.env.samples = piecesSamples s.cfg ps ++ vs) :
    ∃ n, n ≤ ((piecesOps ps).map s.cost).sum ∧ State.runFor n s =
      { s with
        dcOut := piecesDc s.dcOut ps
        drv := piecesReach s.drv ps
        trace := s.trace ++ piecesTrace s.cfg ps
        env := { s.env with xfers := xs, samples := vs }
        seq := .running rest } := by
  induction ps generalizing s with
  | nil =>
    refine ⟨0, by simp, ?_⟩
    cases s
    simp [piecesOps, piecesTransfers, piecesSamples] at h hx hv
    subst h
    simp [State.runFor, piecesReach, piecesDc, piecesTrace, ← hx, ← hv]
  | cons p ps ih =>
    have hp := hok p (List.mem_cons_self ..)
    have hops : piecesOps (p :: ps) ++ rest = p.ops ++ (piecesOps ps ++ rest) := by simp [piecesOps]
    rw [hops] at h
    have hT : piecesTransfers (p :: ps) = p.transfers + piecesTransfers ps := by simp [piecesTransfers]
    have hS : piecesSamples s.cfg (p :: ps) = p.samples s.cfg ++ piecesSamples s.cfg ps := by simp [piecesSamples]
    rw [hT, List.replicate_add, List.append_assoc] at hx
    rw [hS, List.append_assoc] at hv
    -- one piece
    have one : ∃ n, n ≤ (p.ops.map s.cost).sum ∧ State.runFor n s =
        { s with
          dcOut := piecesDc s.dcOut [p]
          drv := piecesReach s.drv [p]
          trace := s.trace ++ p.trace s.cfg
          env := { s.env with
            xfers := List.replicate (piecesTransfers ps) .ok ++ xs
            samples := piecesSamples s.cfg ps ++ vs }
          seq := .running (piecesOps ps ++ rest) } := by
      cases p with
      | say es =>
        obtain ⟨t, rfl⟩ := hp
        refine ⟨1, by simp [Piece.ops, State.cost], ?_⟩
        rw [State.runFor_cons (op := .delay t) (rest := piecesOps ps ++ rest) h]
        simp [Piece.transfers, Piece.samples] at hx hv
        cases s
        simp at hx hv
        simp [State.runFor, State.perform, State.emit, State.goto, Piece.trace, piecesReach, piecesDc, ← hx, ← hv]
      | reach d =>
        refine ⟨1, by simp [Piece.ops, State.cost], ?_⟩
        rw [State.runFor_cons (op := .setDrv d) (rest := piecesOps ps ++ rest) h]
        simp [Piece.transfers, Piece.samples] at hx hv
        cases s
        simp at hx hv
        simp [State.runFor, State.perform, State.goto, Piece.trace, piecesReach, piecesDc, ← hx, ← hv]
      | send dc bs =>
        refine ⟨(bs.length + 1) + 1, by simp [Piece.ops, State.cost], ?_⟩
        simp [Piece.transfers, Piece.samples] at hx hv
        rw [State.runFor_cons (op := .driveDc dc) (rest := .xfer dc bs :: (piecesOps ps ++ rest)) h]
        have ha := State.xferAnswer_of_cons (s := s) (a := .ok)
          (xs := List.replicate (piecesTransfers ps) .ok ++ xs) (by rw [hx])
        have hd := State.drawXfer_of_cons
          (s := State.goto (.xfer dc bs :: (piecesOps ps ++ rest)) { s with dcOut := .ofLevel dc })
          (a := .ok) (xs := List.replicate (piecesTransfers ps) .ok ++ xs) (by show s.env.xfers = _; rw [hx])
        refine (State.runFor_xfer_ok
          (s := State.goto (.xfer dc bs :: (piecesOps ps ++ rest)) { s with dcOut := .ofLevel dc })
          hp rfl (by simpa [State.xferAnswer] using ha)).trans ?_
        rw [hd]
        cases s
        simp at hv
        simp [State.goto, piecesReach, piecesDc, Piece.trace, ← hv]
      | shake n =>
        refine ⟨6 * n + 7, ?_, ?_⟩
        · have : n + 1 ≤ s.pollsLeft 0#32 := State.pollsLeft_ge hp
          simp [Piece.ops, waitBusy, State.cost]; omega
        · exact State.runFor_waitBusy n h (by rw [hx]; rfl) (by rw [hv]; simp [Piece.samples]) hp.2
    obtain ⟨n, hn, hrun⟩ := one
    obtain ⟨m, hm, hrun'⟩ := ih (s := State.runFor n s)
      (by intro q hq; have := hok q (List.mem_cons_of_mem _ hq); rw [hrun]; cases q <;> exact this)
      (by rw [hrun]) (by rw [hrun]) (by rw [hrun])
    refine ⟨n + m, ?_, ?_⟩
    · have : State.cost (State.runFor n s) = s.cost := by rw [hrun]; exact State.cost_congr rfl rfl rfl
      rw [this] at hm
      have : piecesOps (p :: ps) = p.ops ++ piecesOps ps := by simp [piecesOps]
      rw [this, List.map_append, List.sum_append]; omega
    · rw [State.runFor_add, hrun', hrun]
      have h1 : piecesReach s.drv (p :: ps) = piecesReach (piecesReach s.drv [p]) ps := by cases p <;> rfl
      have h3 : piecesDc s.dcOut (p :: ps) = piecesDc (piecesDc s.dcOut [p]) ps := by cases p <;> rfl
      have h2 : piecesTrace s.cfg (p :: ps) = p.trace s.cfg ++ piecesTrace s.cfg ps := by simp [piecesTrace]
      rw [h1, h2, h3]; simp

/-- The statements of the table's pieces are those of its entries, where each entry has its number of bytes. -/
theorem tablePieces_ops (ns) (es : List InitEntry) (h : ∀ e ∈ es, e.data.length = e.count) (j : Nat) :
    piecesOps (tablePieces ns j es) = es.flatMap replayEntry := by
  induction es generalizing j with
  | nil => rfl
  | cons e es ih =>
    have ht : e.data.take e.count = e.data := List.take_of_length_le (by rw [h e (List.mem_cons_self ..)])
    have ih' := ih (fun e he => h e (List.mem_cons_of_mem _ he))
    have hd : ∀ l : List Byte, piecesOps (l.map fun b => .send dcDataLevel [b]) = l.flatMap sendData := by
      intro l; induction l with
      | nil => rfl
      | cons b l ih => simpa [piecesOps, Piece.ops, sendData] using ih
    have ap : ∀ a b, piecesOps (a ++ b) = piecesOps a ++ piecesOps b := by intro a b; simp [piecesOps]
    have co : ∀ a b, piecesOps (a :: b) = a.ops ++ piecesOps b := by intro a b; simp [piecesOps]
    rw [tablePieces, List.cons_append, co, ap, hd, List.flatMap_cons, replayEntry, ht]
    cases e.wait
    · simp [ih', Piece.ops, sendCommand]
    · simp [ih', co, Piece.ops, sendCommand]

/-- INIT after its bring-up and its reset recipe. -/
def initTail (c : Config) (ns : Nat → Nat) : List Piece :=
  [.shake (ns 0), .reach .resetComplete, .say [.wait .initSettle]]
    ++ tablePieces ns 1 c.initTable
    ++ [.shake (ns (waitEntries c + 1)), .reach .initApplied,
      .send dcCommandLevel [c.cmdStartBw], .send dcDataLevel (clearPlane c),
      .send dcCommandLevel [c.cmdStartRed], .send dcDataLevel (clearPlane c),
      .send dcCommandLevel [c.cmdRefresh], .say [.wait .refreshSettle], .shake (ns (waitEntries c + 2)), .reach .ready]

/-- INIT's bring-up and its reset recipe (43_panel_driver.md R209, R206). -/
def initHead : List SeqOp := [.setDrv .uninit, .configurePins, .busSetup, .driveRst true, .driveDc false,
  .setDrv .busConfigured, .driveRst true, .delay .rstHigh1, .driveRst false, .delay .rstLow, .driveRst true, .delay .rstHigh2]

/-- The pieces of INIT, its first three apart. -/
theorem initPieces_eq (c ns) :
    initPieces c ns = .say [.rst true] :: .reach .busConfigured :: .say recipeTrace :: initTail c ns := by
  simp [initPieces, initTail]

/-- INIT's statements are those of its pieces. -/
theorem initOps_eq (c ns) (h : ∀ e ∈ c.initTable, e.data.length = e.count) :
    initOps c = initHead ++ (piecesOps (initTail c ns) ++ [.complete]) := by
  have ap : ∀ a b, piecesOps (a ++ b) = piecesOps a ++ piecesOps b := by intro a b; simp [piecesOps]
  rw [initTail, ap, ap, tablePieces_ops _ _ h]
  simp [piecesOps, Piece.ops, initOps, initHead, bringUpBus, hardReset, replayInitTable, clearPanelWhite,
      sendCommand, sendDataBuffer, clearPlane]

/-- 43_panel_driver.md R219 (b). -/
theorem entry_length {c : Config} (h : c.wf = true) : ∀ e ∈ c.initTable, e.data.length = e.count := by
  simp [Config.wf, InitEntry.wf] at h
  intro e he; exact (h.1.2 e he).1.2

/-- A legal configuration's pieces meet what a run needs of them. -/
theorem initTail_ok {s : State} {ns} (h : s.cfg.wf = true)
    (hw : ∀ j, j < initHandshakes s.cfg → ns j < 4294967296 ∧ (s.pollLimit ≠ 0#32 → ns j < s.pollLimit.toNat)) :
    ∀ p ∈ initTail s.cfg ns, p.ok s := by
  have tab : ∀ (es : List InitEntry) (j : Nat), (∀ i, i < j + es.countP (fun e => e.wait) → ns i < 4294967296 ∧
      (s.pollLimit ≠ 0#32 → ns i < s.pollLimit.toNat)) → ∀ p ∈ tablePieces ns j es, p.ok s := by
    intro es; induction es with
    | nil => simp [tablePieces]
    | cons e es ih =>
      intro j hj p hp
      rw [tablePieces] at hp
      simp only [List.cons_append, List.mem_cons, List.mem_append, List.mem_map] at hp
      rcases hp with rfl | ⟨b, _, rfl⟩ | hp
      · simp [Piece.ok]
      · simp [Piece.ok]
      · cases hw : e.wait <;> rw [hw] at hp
        · exact ih j (by simpa [List.countP_cons, hw] using hj) p (by simpa using hp)
        · simp only [if_true, List.mem_cons] at hp
          simp only [List.countP_cons, hw, if_true] at hj
          rcases hp with rfl | hp
          · exact hj j (by omega)
          · exact ih (j+1) (fun i hi => hj i (by omega)) p hp
  have hpl : clearPlane s.cfg ≠ [] := by
    simp [Config.wf] at h
    simp [clearPlane, ceil8]
    omega
  intro p hp
  have hh : initHandshakes s.cfg = waitEntries s.cfg + 3 := rfl
  simp only [initTail, List.mem_append, List.mem_cons, List.not_mem_nil, or_false] at hp
  rcases hp with (( rfl | rfl | rfl) | hp) | rfl | rfl | rfl | rfl | rfl | rfl | rfl | rfl | rfl | rfl
  · exact hw _ (by omega)
  · trivial
  · exact ⟨_, rfl⟩
  · exact tab _ 1 (fun i hi => hw i (by unfold waitEntries at hh; omega)) p hp
  · exact hw _ (by omega)
  · trivial
  · simp [Piece.ok]
  · exact hpl
  · simp [Piece.ok]
  · exact hpl
  · simp [Piece.ok]
  · exact ⟨_, rfl⟩
  · exact hw _ (by omega)
  · trivial

/-- INIT's bring-up and reset recipe, when the bus setup succeeds. -/
theorem State.runFor_initHead {s : State} {l : List SeqOp} {ss} (h : s.seq = .running (initHead ++ l))
    (hs : s.env.setups = .ok :: ss) :
    State.runFor 12 s = { s with
      drv := .busConfigured
      pinsConfigured := true
      rstOut := .high
      dcOut := .low
      trace := s.trace ++ ([.cfg, .setup .ok, .rst true] ++ recipeTrace)
      env := { s.env with setups := ss }
      seq := .running l } := by
  have ha := State.setupAnswer_of_cons hs
  cases s
  simp at h hs
  subst h
  simp [State.runFor, initHead, State.perform, State.setupAnswer, hs, State.goto, State.drawSetup, State.emit,
      State.configurePins, recipeTrace, PinLevel.ofLevel]

/-- INIT up to one of its pieces, the ones before it all succeeding. -/
theorem State.runFor_init {s : State} {ns pre post ss xs vs} (hwf : s.cfg.wf = true)
    (hw : ∀ j, j < initHandshakes s.cfg → ns j < 4294967296 ∧ (s.pollLimit ≠ 0#32 → ns j < s.pollLimit.toNat))
    (hsp : initTail s.cfg ns = pre ++ post)
    (he : s.env = ⟨.ok :: ss, List.replicate (piecesTransfers pre) .ok ++ xs, piecesSamples s.cfg pre ++ vs⟩) :
    ∃ n, n + ((piecesOps post).map s.cost).sum + 1 ≤ ((initOps s.cfg).map s.cost).sum ∧
      State.runFor n { s with opBusy := true, seq := .running (initOps s.cfg) } =
        { s with
          opBusy := true
          drv := piecesReach .busConfigured pre
          pinsConfigured := true
          rstOut := .high
          dcOut := piecesDc .low pre
          trace := s.trace ++ ([.cfg, .setup .ok, .rst true] ++ recipeTrace ++ piecesTrace s.cfg pre)
          env := ⟨ss, xs, vs⟩
          seq := .running (piecesOps post ++ [.complete]) } := by
  have ho := initOps_eq s.cfg ns (entry_length hwf)
  have hops : piecesOps (initTail s.cfg ns) = piecesOps pre ++ piecesOps post := by rw [hsp]; simp [piecesOps]
  rw [hops, List.append_assoc] at ho
  have h1 := State.runFor_initHead (s := { s with opBusy := true, seq := .running (initOps s.cfg) })
      (l := piecesOps pre ++ (piecesOps post ++ [.complete])) (ss := ss) (by rw [← ho]) (by simp [he])
  obtain ⟨n, hn, h2⟩ := State.runFor_pieces pre (rest := piecesOps post ++ [.complete])
      (s := State.runFor 12 { s with opBusy := true, seq := .running (initOps s.cfg) }) (xs := xs) (vs := vs)
    (by intro p hp
        have := initTail_ok hwf hw p (by rw [hsp]; exact List.mem_append_left _ hp)
        rw [h1]; cases p <;> exact this) (by rw [h1]) (by rw [h1]; simp [he]) (by rw [h1]; simp [he])
  refine ⟨12 + n, ?_, ?_⟩
  · have hc : State.cost (State.runFor 12 { s with opBusy := true, seq := .running (initOps s.cfg) }) = s.cost := by
      rw [h1]; exact State.cost_congr rfl rfl rfl
    rw [hc] at hn
    rw [ho]
    simp only [List.map_append, List.sum_append]
    have : (initHead.map s.cost).sum = 12 := rfl
    have h3 : ([SeqOp.complete].map s.cost).sum = 1 := rfl
    omega
  · rw [State.runFor_add, h2, h1]; simp

end Sys2Proof.Machine
end

