-- ==== Sys2Proof/Laws/Memory.lean ====
section
/-! SUPPORT. The laws of the framebuffer store: a read after a write, what a write leaves alone, what a fill holds, and that
every operation keeps the canonical form, so that equal stores are equal data. -/

namespace Sys2Proof.Machine

/-- What the canonical form says, as a proposition. -/
theorem Memory.wf_iff (m : Memory) :
    Memory.wf m = true ↔ m.Pairwise (fun a b => a.1 < b.1) ∧ ∀ e ∈ m, e.2 ≠ 0#2 := by
  simp [Memory.wf, List.all_eq_true]

theorem Memory.wf_tail {e : Nat × BitVec 2} {m : Memory} (h : Memory.wf (e :: m) = true) : Memory.wf m = true := by
  rw [Memory.wf_iff] at *
  exact ⟨(List.pairwise_cons.1 h.1).2, fun x hx => h.2 x (List.mem_cons_of_mem _ hx)⟩

/-- An index below every listed one reads as WHITE. -/
theorem Memory.read_eq_zero_of_lt {m : Memory} {i : Nat} (h : ∀ e ∈ m, i < e.1) : Memory.read m i = 0#2 := by
  induction m with
  | nil => rfl
  | cons e m ih =>
    have he := h e (List.mem_cons_self ..)
    have : e.1 ≠ i := by omega
    simp only [Memory.read, this, if_false]
    exact ih fun x hx => h x (List.mem_cons_of_mem _ hx)

/-- The listed indexes above the head of a store in canonical form. -/
theorem Memory.wf_head_lt {e : Nat × BitVec 2} {m : Memory} (h : Memory.wf (e :: m) = true) : ∀ x ∈ m, e.1 < x.1 :=
  (List.pairwise_cons.1 ((Memory.wf_iff _).1 h).1).1

/-- Read after write, at the cell written. -/
theorem Memory.read_write_same {m : Memory} (h : Memory.wf m = true) (i : Nat) (v : BitVec 2) :
    Memory.read (Memory.write m i v) i = v := by
  induction m with
  | nil => by_cases hv : v = 0#2 <;> simp [Memory.write, Memory.read, hv]
  | cons e m ih =>
    obtain ⟨j, w⟩ := e
    have hlt := Memory.wf_head_lt h
    simp only [Memory.write]
    by_cases h1 : i < j
    · by_cases hv : v = 0#2
      · simp only [h1, hv, if_true]
        refine Memory.read_eq_zero_of_lt fun x hx => ?_
        rcases List.mem_cons.1 hx with rfl | hx
        · exact h1
        · exact lt_trans h1 (hlt x hx)
      · simp [h1, hv, Memory.read]
    · by_cases h2 : i = j
      · subst h2
        by_cases hv : v = 0#2
        · simp only [h1, hv, if_true, if_false]
          exact Memory.read_eq_zero_of_lt hlt
        · simp [hv, Memory.read]
      · have h3 : j ≠ i := fun h => h2 h.symm
        simp [h1, h2, Memory.read, h3, ih (Memory.wf_tail h)]

/-- A write leaves every other cell alone. -/
theorem Memory.read_write_other {m : Memory} {i k : Nat} (v : BitVec 2) (hk : k ≠ i) :
    Memory.read (Memory.write m i v) k = Memory.read m k := by
  have hik : i ≠ k := fun h => hk h.symm
  induction m with
  | nil => by_cases hv : v = 0#2 <;> simp [Memory.write, Memory.read, hv, hik]
  | cons e m ih =>
    obtain ⟨j, w⟩ := e
    simp only [Memory.write]
    by_cases h1 : i < j
    · by_cases hv : v = 0#2 <;> simp [h1, hv, Memory.read, hik]
    · by_cases h2 : i = j
      · subst h2
        by_cases hv : v = 0#2 <;> simp [hv, Memory.read, hik]
      · simp only [h1, h2, if_false, Memory.read]
        rw [ih]

/-- Every entry of a written store is the new one or was there. -/
theorem Memory.mem_write {m : Memory} {i : Nat} {v : BitVec 2} {e : Nat × BitVec 2} (h : e ∈ Memory.write m i v) :
    (e = (i, v) ∧ v ≠ 0#2) ∨ e ∈ m := by
  induction m with
  | nil =>
    by_cases hv : v = 0#2
    · simp [Memory.write, hv] at h
    · exact .inl ⟨by simpa [Memory.write, hv] using h, hv⟩
  | cons x m ih =>
    obtain ⟨j, w⟩ := x
    simp only [Memory.write] at h
    split at h
    · split at h
      · exact .inr h
      · rcases List.mem_cons.1 h with rfl | h
        · exact .inl ⟨rfl, ‹_›⟩
        · exact .inr h
    · split at h
      · split at h
        · exact .inr (List.mem_cons_of_mem _ h)
        · rcases List.mem_cons.1 h with rfl | h
          · exact .inl ⟨rfl, ‹_›⟩
          · exact .inr (List.mem_cons_of_mem _ h)
      · rcases List.mem_cons.1 h with rfl | h
        · exact .inr (List.mem_cons_self ..)
        · exact (ih h).imp id (List.mem_cons_of_mem _)

/-- A write keeps the canonical form. -/
theorem Memory.write_wf {m : Memory} (h : Memory.wf m = true) (i : Nat) (v : BitVec 2) :
    Memory.wf (Memory.write m i v) = true := by
  induction m with
  | nil => by_cases hv : v = 0#2 <;> simp [Memory.write, Memory.wf, hv]
  | cons e m ih =>
    obtain ⟨j, w⟩ := e
    have hlt := Memory.wf_head_lt h
    have ht := Memory.wf_tail h
    have hw : w ≠ 0#2 := ((Memory.wf_iff _).1 h).2 _ (List.mem_cons_self ..)
    have cons_wf : ∀ {k : Nat} {u : BitVec 2} {t : Memory}, u ≠ 0#2 → (∀ x ∈ t, k < x.1) → Memory.wf t = true →
        Memory.wf ((k, u) :: t) = true := by
      intro k u t hu hk ht
      rw [Memory.wf_iff] at *
      refine ⟨List.pairwise_cons.2 ⟨hk, ht.1⟩, fun x hx => ?_⟩
      rcases List.mem_cons.1 hx with rfl | hx
      · exact hu
      · exact ht.2 x hx
    simp only [Memory.write]
    by_cases h1 : i < j
    · by_cases hv : v = 0#2
      · simpa [h1, hv] using h
      · simp only [h1, hv, if_true, if_false]
        refine cons_wf hv (fun x hx => ?_) h
        rcases List.mem_cons.1 hx with rfl | hx
        · exact h1
        · exact lt_trans h1 (hlt x hx)
    · by_cases h2 : i = j
      · subst h2
        by_cases hv : v = 0#2
        · simpa [hv] using ht
        · simpa [hv] using cons_wf hv hlt ht
      · simp only [h1, h2, if_false]
        refine cons_wf hw (fun x hx => ?_) (ih ht)
        rcases Memory.mem_write hx with ⟨rfl, -⟩ | hx
        · show j < i
          omega
        · exact hlt x hx

/-- What a fill lists: the cells below `n`, unless filled with WHITE, and what was listed from `n` on. -/
theorem Memory.mem_fill {m : Memory} {n : Nat} {v : BitVec 2} {e : Nat × BitVec 2} :
    e ∈ Memory.fill m n v ↔ (v ≠ 0#2 ∧ e.1 < n ∧ e.2 = v) ∨ (e ∈ m ∧ n ≤ e.1) := by
  obtain ⟨j, w⟩ := e
  by_cases hv : v = 0#2
  · simp [Memory.fill, hv]
  · simp only [Memory.fill, hv, if_false, List.mem_append, List.mem_map, List.mem_range, List.mem_filter,
      decide_eq_true_eq, Prod.mk.injEq, ne_eq, not_false_eq_true, true_and]
    constructor
    · rintro (⟨a, ha, rfl, rfl⟩ | h)
      · exact .inl ⟨ha, rfl⟩
      · exact .inr h
    · rintro (⟨ha, rfl⟩ | h)
      · exact .inl ⟨j, ha, rfl, rfl⟩
      · exact .inr h

/-- A fill keeps the canonical form. -/
theorem Memory.fill_wf {m : Memory} (h : Memory.wf m = true) (n : Nat) (v : BitVec 2) :
    Memory.wf (Memory.fill m n v) = true := by
  have hm := (Memory.wf_iff m).1 h
  refine (Memory.wf_iff _).2 ⟨?_, fun e he => ?_⟩
  · unfold Memory.fill
    refine List.pairwise_append.2 ⟨?_, hm.1.filter _, fun a ha b hb => ?_⟩
    · split
      · exact List.Pairwise.nil
      · exact List.pairwise_map.2 List.pairwise_lt_range
    · have hb' : n ≤ b.1 := by simpa using (List.mem_filter.1 hb).2
      split at ha
      · simp at ha
      · obtain ⟨i, hi, rfl⟩ := List.mem_map.1 ha
        have : i < n := List.mem_range.1 hi
        show i < b.1
        omega
  · rcases Memory.mem_fill.1 he with ⟨hv, -, rfl⟩ | ⟨he, -⟩
    · exact hv
    · exact hm.2 e he

/-- In canonical form, a store holds at an index what it lists there. -/
theorem Memory.read_of_mem {m : Memory} (h : Memory.wf m = true) {e : Nat × BitVec 2} (he : e ∈ m) :
    Memory.read m e.1 = e.2 := by
  induction m with
  | nil => simp at he
  | cons x m ih =>
    rcases List.mem_cons.1 he with rfl | he
    · simp [Memory.read]
    · have hne : x.1 ≠ e.1 := ne_of_lt (Memory.wf_head_lt h e he)
      simp [Memory.read, hne, ih (Memory.wf_tail h) he]

/-- A cell that is not listed holds WHITE. -/
theorem Memory.read_of_not_mem {m : Memory} {i : Nat} (h : ∀ e ∈ m, e.1 ≠ i) : Memory.read m i = 0#2 := by
  induction m with
  | nil => rfl
  | cons x m ih =>
    have hx := h x (List.mem_cons_self ..)
    simp [Memory.read, hx, ih fun e he => h e (List.mem_cons_of_mem _ he)]

/-- What a store holds at an index is WHITE or a listed entry's. -/
theorem Memory.read_eq_zero_or_mem (m : Memory) (i : Nat) : Memory.read m i = 0#2 ∨ (i, Memory.read m i) ∈ m := by
  induction m with
  | nil => exact .inl rfl
  | cons x m ih =>
    obtain ⟨j, w⟩ := x
    by_cases hj : j = i
    · subst hj; right; simp [Memory.read]
    · simp only [Memory.read, hj, if_false]
      exact ih.imp id (List.mem_cons_of_mem _)

/-- After a fill, the cells below `n` hold the code. -/
theorem Memory.read_fill_low {m : Memory} (h : Memory.wf m = true) {n i : Nat} (v : BitVec 2) (hi : i < n) :
    Memory.read (Memory.fill m n v) i = v := by
  by_cases hv : v = 0#2
  · subst hv
    refine Memory.read_of_not_mem fun e he => ?_
    rcases Memory.mem_fill.1 he with ⟨hv, -⟩ | ⟨-, hle⟩
    · exact absurd rfl hv
    · omega
  · exact Memory.read_of_mem (Memory.fill_wf h n v) (e := (i, v)) (Memory.mem_fill.2 (.inl ⟨hv, hi, rfl⟩))

/-- Two stores in canonical form that hold the same everywhere are the same list. -/
theorem Memory.ext_of_read {m k : Memory} (hm : Memory.wf m = true) (hk : Memory.wf k = true)
    (h : ∀ i, Memory.read m i = Memory.read k i) : m = k := by
  have mem_of : ∀ {a b : Memory}, Memory.wf a = true → (∀ i, Memory.read a i = Memory.read b i) → ∀ e ∈ a, e ∈ b := by
    intro a b ha hab e he
    have h1 := Memory.read_of_mem ha he
    have h2 : e.2 ≠ 0#2 := ((Memory.wf_iff _).1 ha).2 e he
    rcases Memory.read_eq_zero_or_mem b e.1 with h3 | h3
    · rw [← hab, h1] at h3; exact absurd h3 h2
    · rw [← hab, h1] at h3; exact h3
  have nodup : ∀ {a : Memory}, Memory.wf a = true → a.Nodup := fun ha =>
    ((Memory.wf_iff _).1 ha).1.imp fun hlt heq => by rw [heq] at hlt; exact lt_irrefl _ hlt
  have hperm : m.Perm k := (List.perm_ext_iff_of_nodup (nodup hm) (nodup hk)).2 fun e =>
    ⟨mem_of hm h e, mem_of hk (fun i => (h i).symm) e⟩
  exact hperm.eq_of_pairwise
    (fun a b _ _ hab hba => absurd (lt_trans hab hba) (lt_irrefl _)) ((Memory.wf_iff _).1 hm).1 ((Memory.wf_iff _).1 hk).1

/-- The reset store is in canonical form. -/
theorem Memory.wf_nil : Memory.wf [] = true := by decide

end Sys2Proof.Machine
end

