-- ==== Sys2Proof/Laws/Invariant.lean ====
section
/-! SUPPORT. The invariant through the shared operations: both ends of a request, one micro-step, a run, and the procedures' lists
of statements. -/

namespace Sys2Proof.Machine

/-- Recording an error leaves FAULTS' reserved bits 0 (10_state.md R43). -/
theorem setFault_reserved (f : BitVec 16) (e : ResultCode) (he : e ≠ .ok) (h : f &&& 0xFE01 = 0) :
    setFault f e &&& 0xFE01 = 0 := by
  unfold setFault
  cases e <;> simp [ResultCode.num] at * <;>
    (rw [BitVec.and_comm, BitVec.and_or_distrib_left, BitVec.and_comm, h]; decide)

/-- Only SETUP_ERROR sets FAULTS[6] (60_exceptions.md R307). -/
theorem hasFault_setFault (f : BitVec 16) (e : ResultCode) (he : e ≠ .setupError) :
    hasFault (setFault f e) .setupError = hasFault f .setupError := by
  cases e <;> simp [hasFault, setFault, ResultCode.num] at *

/-- A raise ends in a state that meets the invariant. -/
theorem ArchInv.raise {s : State} {e : ResultCode} (h : ArchInv s) (he : e ≠ .ok)
    (hs : e = .setupError → s.drv = .uninit) : Inv (s.raise e) := by
  refine ⟨⟨h.config, h.dims, h.attachment, h.cells, h.reach, h.codes, h.readData, setFault_reserved _ _ he
      h.reserved, h.pins, h.driven, ?_⟩, ?_, rfl, fun _ => rfl⟩
  · intro hh
    by_cases h2 : e = .setupError
    · exact hs h2
    · exact h.latch (by rw [← hasFault_setFault s.faults e h2]; exact hh)
  · show (false = true ↔ Sequencer.idle ≠ .idle); simp

/-- A completion ends in a state that meets the invariant. -/
theorem ArchInv.complete {s : State} (d : Byte) (h : ArchInv s) : Inv (s.complete d) := by
  refine ⟨⟨h.config, h.dims, h.attachment, h.cells, h.reach, h.codes, h.readData, h.reserved, h.pins, h.driven,
      h.latch⟩, ?_, rfl, fun _ => rfl⟩
  · show (false = true ↔ Sequencer.idle ≠ .idle); simp

/-- The first statement may be performed, and the rest after it. -/
theorem opsOk_uncons {c : Config} {v : SeqView} {op : SeqOp} {rest : List SeqOp} (h : opsOk c v (op :: rest) = true)
    (h1 : op ≠ .xferFail) (h2 : op.quiet = false) : opOk c v op = true ∧ opsOk c (opView v op) rest = true := by
  cases op <;> first | contradiction | (simpa [opsOk] using h)

/-- A statement that may be performed, before statements that may be performed after it. -/
theorem opsOk_cons {c : Config} {v : SeqView} {op : SeqOp} {rest : List SeqOp} (h1 : opOk c v op = true)
    (h : opsOk c (opView v op) rest = true) : opsOk c v (op :: rest) = true := by
  cases op <;> first | (simp [opOk] at h1; done) | (simp [opsOk, h1, h]) | skip
  cases rest with
  | nil => rfl
  | cons a b => simp only [opsOk, h1, h, Bool.and_self]

/-- What a request's next statements must meet for the invariant to hold. -/
theorem ArchInv.goto {s : State} {ops} (h : ArchInv s) (ho : opsOk s.cfg s.view ops = true)
    (hl : hasFault s.faults .setupError = true → ops.all SeqOp.quiet = true) (hb : s.opBusy = true) :
    Inv (s.goto ops) := by
  refine ⟨⟨h.config, h.dims, h.attachment, h.cells, h.reach, h.codes, h.readData, h.reserved, h.pins, h.driven,
      h.latch⟩, ?_, ho, hl⟩
  show (s.opBusy = true ↔ Sequencer.running ops ≠ .idle); simp [hb]

/-- The bytes of an allowed transfer may move. -/
theorem opsOk_moveBytes {c : Config} {v : SeqView} {dc : Level} {bs : List Byte} {rest : List SeqOp}
    (h : bs.all (fun b => byteAllowed c.cmdRefresh v.drv v.dc dc b) = true) (hr : opsOk c v rest = true) :
    opsOk c v (bs.map (SeqOp.moveByte dc) ++ rest) = true := by
  induction bs with
  | nil => exact hr
  | cons b bs ih =>
    simp only [List.all_cons, Bool.and_eq_true] at h
    exact opsOk_cons (op := .moveByte dc b) h.1 (ih h.2)

/-- 00_scope.md R7 (d): a poll never issues the refresh command. -/
theorem getStatus_ne_refresh {c : Config} (h : c.wf = true) : c.cmdGetStatus ≠ c.cmdRefresh := by
  simp [Config.wf] at h; tauto

/-- What an effect that may be performed does, keeps what holds of the state elements (41_framebuffer.md, 42_renderer.md). -/
theorem ArchInv.apply {s : State} {e : Effect} (h : ArchInv s) (he : e.ok s.cfg s.view = true) : ArchInv (s.apply e) := by
  cases e with
  | createFb w h' =>
    simp only [Effect.ok, Bool.and_eq_true, decide_eq_true_eq, State.view, Bool.not_eq_true'] at he
    obtain ⟨⟨⟨⟨h1, h2⟩, h3⟩, h4⟩, h5⟩ := he
    have hd := h.dims
    rw [h1] at hd
    simp only [Bool.false_eq_true, if_false] at hd
    have hfb : s.fb = [] := by
      cases hf : s.fb with
      | nil => rfl
      | cons a l =>
        have := h.reach a (by rw [hf]; exact List.mem_cons_self ..)
        simp [State.fbCells, hd.1] at this
    have hnil : (s.apply (.createFb w h')).fb = [] := by
      show Memory.fill s.fb _ 0#2 = []
      rw [hfb]; simp [Memory.fill]
    exact ⟨h.config, ⟨h2, h3, h4, h5⟩, fun _ => rfl, by rw [hnil]; rfl, by rw [hnil]; simp, by rw [hnil]; simp,
      h.readData, h.reserved, h.pins, h.driven, h.latch⟩
  | destroyFb =>
    simp only [Effect.ok, State.view, Bool.not_eq_true'] at he
    exact ⟨h.config, ⟨rfl, rfl⟩, fun hh => absurd (he.symm.trans hh) (by simp), rfl, by simp [State.apply],
      by simp [State.apply], h.readData, h.reserved, h.pins, h.driven, h.latch⟩
  | fillFb c =>
    have hc : legalCode c = true := he
    refine ⟨h.config, h.dims, h.attachment, Memory.fill_wf h.cells _ _, ?_, ?_, h.readData, h.reserved, h.pins,
      h.driven, h.latch⟩
    · intro e hm
      rcases Memory.mem_fill.1 hm with ⟨_, h1, _⟩ | ⟨h1, _⟩
      · exact h1
      · exact h.reach e h1
    · intro e hm
      rcases Memory.mem_fill.1 hm with ⟨_, _, h1⟩ | ⟨h1, _⟩
      · rw [h1]; exact hc
      · exact h.codes e h1
  | writeCell i c =>
    simp only [Effect.ok, Bool.and_eq_true, decide_eq_true_eq] at he
    refine ⟨h.config, h.dims, h.attachment, Memory.write_wf h.cells _ _, ?_, ?_, h.readData, h.reserved, h.pins,
      h.driven, h.latch⟩
    · intro e hm
      rcases Memory.mem_write hm with ⟨rfl, _⟩ | h1
      · exact he.1
      · exact h.reach e h1
    · intro e hm
      rcases Memory.mem_write hm with ⟨rfl, _⟩ | h1
      · exact he.2
      · exact h.codes e h1
  | readCell i =>
    have he : i < s.fbCells := of_decide_eq_true he
    refine ⟨h.config, h.dims, h.attachment, h.cells, h.reach, h.codes, ?_, h.reserved, h.pins, h.driven, h.latch⟩
    show legalColor ((s.fbCell i).setWidth 8) = true
    rw [State.fbCell, if_pos he]
    rcases Memory.read_eq_zero_or_mem s.fb i with h1 | h1
    · rw [h1]; rfl
    · have : legalCode (Memory.read s.fb i) = true := h.codes _ h1
      revert this
      generalize Memory.read s.fb i = v
      revert v; decide
  | setAttached b =>
    have hb : (!b || s.fbValid) = true := he
    refine ⟨h.config, h.dims, ?_, h.cells, h.reach, h.codes, h.readData, h.reserved, h.pins, h.driven, h.latch⟩
    intro hh
    have hbt : b = true := hh
    show s.fbValid = true
    simpa [hbt] using hb
  | setPollLimit v =>
    exact ⟨h.config, h.dims, h.attachment, h.cells, h.reach, h.codes, h.readData, h.reserved, h.pins, h.driven, h.latch⟩

/-- A completion's list of one statement may be performed in every view. -/
theorem opsOk_completes {c : Config} {op : SeqOp} (h : op.completes = true) (v : SeqView) : opsOk c v [op] = true := by
  cases op <;> first | rfl | simp [SeqOp.completes] at h

/-- A statement that moves no byte keeps the invariant. -/
theorem Inv.perform_quiet {s : State} {op rest} (hi : Inv s) (hs : s.seq = .running (op :: rest))
    (hq : op.quiet = true) : Inv (s.perform op rest) := by
  have h := hi.toArchInv
  have ho : opsOk s.cfg s.view (op :: rest) = true := by have := hi.micro; rw [hs] at this; exact this
  have hb : s.opBusy = true := hi.busy.2 (by rw [hs]; simp)
  cases op with
  | complete => exact ArchInv.complete _ h
  | completeRead => exact ArchInv.complete _ h
  | raise e =>
    simp only [opsOk, Bool.and_eq_true, decide_eq_true_eq] at ho
    exact ArchInv.raise h ho.1 (fun he => absurd he ho.2)
  | effect e =>
    have hl : ∃ last, rest = [last] ∧ e.ok s.cfg s.view = true ∧ last.completes = true := by
      match rest, ho with
      | [], ho => simp [opsOk, opOk] at ho
      | [last], ho => exact ⟨last, rfl, by simpa [opsOk] using ho⟩
      | a :: b :: l, ho => simp [opsOk, opOk] at ho
    obtain ⟨last, rfl, he, hc⟩ := hl
    refine ArchInv.goto (ArchInv.apply h he) (opsOk_completes hc _) (fun _ => ?_) (by simpa using hb)
    cases last <;> first | rfl | simp [SeqOp.completes] at hc
  | _ => simp [SeqOp.quiet] at hq

/-- A micro-step keeps the invariant. -/
theorem Inv.perform {s : State} {op rest} (hi : Inv s) (hs : s.seq = .running (op :: rest)) :
    Inv (s.perform op rest) := by
  have h := hi.toArchInv
  have ho : opsOk s.cfg s.view (op :: rest) = true := by have := hi.micro; rw [hs] at this; exact this
  have hb : s.opBusy = true := hi.busy.2 (by rw [hs]; simp)
  cases hq : op.quiet with
  | true => exact Inv.perform_quiet hi hs hq
  | false =>
  have hl' : hasFault s.faults .setupError = false := by
    rw [← Bool.not_eq_true]; intro hh; have := hi.latchQuiet hh; rw [hs] at this
    simp [Sequencer.quiet, hq] at this
  have hl : ∀ {ops : List SeqOp}, hasFault s.faults .setupError = true → ops.all SeqOp.quiet = true :=
    fun hh => absurd (hl'.symm.trans hh) (by simp)
  by_cases hx : op = .xferFail
  · subst hx
    exact ArchInv.raise (s := s.emit .xferErr) ⟨h.config, h.dims, h.attachment, h.cells, h.reach, h.codes,
        h.readData, h.reserved, h.pins, h.driven, h.latch⟩ (by decide) nofun
  obtain ⟨h1, h2⟩ := opsOk_uncons ho hx hq
  cases op with
  | xferFail => contradiction
  | effect e => contradiction
  | raise e => contradiction
  | complete => contradiction
  | completeRead => contradiction
  | setDrv d =>
    simp only [opOk, Bool.and_eq_true, Bool.or_eq_true, decide_eq_true_eq] at h1
    refine ArchInv.goto (s := { s with drv := d }) ⟨h.config, h.dims, h.attachment, h.cells, h.reach, h.codes,
        h.readData, h.reserved, h.pins, ?_, ?_⟩ h2 hl hb
    · intro hd
      rcases h1.2 with h3 | h3
      · exact absurd h3 hd
      · exact ⟨h3.1.1, h3.1.2, h3.2⟩
    · intro hh; exact absurd (hl'.symm.trans hh) (by simp)
  | configurePins =>
    refine ArchInv.goto (s := s.configurePins) ⟨h.config, h.dims, h.attachment, h.cells, h.reach, h.codes,
        h.readData, h.reserved, ?_, ?_, h.latch⟩ h2 hl hb
    · simp only [State.configurePins]
      have := h.pins
      cases hp : s.pinsConfigured <;> simp [hp] at *
      exact this
    · intro hd
      have := h.driven hd
      simp [State.configurePins, this]
  | busSetup =>
    simp only [opOk, Bool.and_eq_true, decide_eq_true_eq] at h1
    unfold State.perform; dsimp only
    split
    · exact ArchInv.goto (s := s.drawSetup.emit (.setup .ok))
        ⟨h.config, h.dims, h.attachment, h.cells, h.reach, h.codes, h.readData, h.reserved, h.pins, h.driven,
        h.latch⟩ h2 hl hb
    · exact ArchInv.raise (s := s.drawSetup.emit (.setup .fail))
        ⟨h.config, h.dims, h.attachment, h.cells, h.reach, h.codes, h.readData, h.reserved, h.pins, h.driven,
        h.latch⟩ (by decide) (fun _ => h1.1)
  | driveRst v =>
    simp only [opOk] at h1
    have hp : s.pinsConfigured = true := h1
    refine ArchInv.goto (s := State.emit (.rst v) { s with rstOut := .ofLevel v })
        ⟨h.config, h.dims, h.attachment, h.cells, h.reach, h.codes, h.readData, h.reserved, ?_, ?_, h.latch⟩ h2 hl hb
    · refine ⟨?_, h.pins.2⟩
      show PinLevel.ofLevel v = .z ↔ s.pinsConfigured = false
      cases v <;> simp [hp, PinLevel.ofLevel]
    · intro hd; have := h.driven hd
      refine ⟨this.1, ?_, this.2.2⟩
      show (PinLevel.ofLevel v).driven = true
      cases v <;> rfl
  | driveDc v =>
    simp only [opOk] at h1
    have hp : s.pinsConfigured = true := h1
    refine ArchInv.goto (s := { s with dcOut := .ofLevel v })
        ⟨h.config, h.dims, h.attachment, h.cells, h.reach, h.codes, h.readData, h.reserved, ?_, ?_, h.latch⟩ h2 hl hb
    · refine ⟨h.pins.1, ?_⟩
      show PinLevel.ofLevel v = .z ↔ s.pinsConfigured = false
      cases v <;> simp [hp, PinLevel.ofLevel]
    · intro hd; have := h.driven hd
      refine ⟨this.1, this.2.1, ?_⟩
      show (PinLevel.ofLevel v).driven = true
      cases v <;> rfl
  | delay t =>
    exact ArchInv.goto (s := s.emit (.wait t)) ⟨h.config, h.dims, h.attachment, h.cells, h.reach, h.codes,
      h.readData, h.reserved, h.pins, h.driven, h.latch⟩ h2 hl hb
  | moveByte dc b =>
    exact ArchInv.goto (s := s.emit (.byte dc b))
      ⟨h.config, h.dims, h.attachment, h.cells, h.reach, h.codes, h.readData, h.reserved, h.pins, h.driven,
      h.latch⟩ h2 hl hb
  | packPlane p =>
    exact ArchInv.goto (s := s.writePb _) ⟨h.config, h.dims, h.attachment, h.cells, h.reach, h.codes,
      h.readData, h.reserved, h.pins, h.driven, h.latch⟩ h2 hl hb
  | xfer dc bs =>
    unfold State.perform; dsimp only
    split
    · exact ArchInv.goto h h2 hl hb
    · refine ArchInv.goto (s := s.drawXfer) ⟨h.config, h.dims, h.attachment, h.cells, h.reach, h.codes, h.readData,
        h.reserved, h.pins, h.driven, h.latch⟩ ?_ hl hb
      cases s.xferAnswer with
      | ok => exact opsOk_moveBytes h1 h2
      | err k =>
        refine opsOk_moveBytes (rest := [.xferFail]) ?_ rfl
        simp only [opOk, List.all_eq_true] at h1 ⊢
        exact fun b hb => h1 b (List.mem_of_mem_take hb)
  | poll n =>
    simp only [opOk, decide_eq_true_eq] at h1
    have hdrv : s.drv ≠ .uninit := h1
    have hd := h.driven hdrv
    refine ArchInv.goto h ?_ hl hb
    refine opsOk_cons (op := .driveDc dcCommandLevel) hd.1 (opsOk_cons
        (op := .xfer dcCommandLevel [s.cfg.cmdGetStatus]) ?_ (opsOk_cons (op := .delay .poll) rfl (opsOk_cons
        (op := .sample n) ?_ h2)))
    · have := getStatus_ne_refresh h.config
      simp [opOk, opView, byteAllowed, State.view, hdrv, this]
    · simp [opOk, opView, State.view, hdrv]
  | sample n =>
    simp only [opOk, Bool.and_eq_true, decide_eq_true_eq] at h1
    have hA : ArchInv (s.drawSample.emit (.sample s.sampleAnswer)) :=
        ⟨h.config, h.dims, h.attachment, h.cells, h.reach, h.codes, h.readData, h.reserved, h.pins, h.driven, h.latch⟩
    unfold State.perform State.afterSample; dsimp only
    split
    · exact ArchInv.goto hA h2 hl hb
    · split
      · exact ArchInv.raise hA (by decide) nofun
      · refine ArchInv.goto hA (opsOk_cons (op := .poll (n+1)) (decide_eq_true h1.1) ?_) hl hb
        have : opView s.view (.poll (n+1)) = s.view := by
          simp only [opView]; rw [← h1.2]
        show opsOk s.cfg (opView s.view (.poll (n+1))) rest = true
        rw [this]; exact h2
  | sendPlane =>
    simp only [opOk, Bool.and_eq_true, decide_eq_true_eq] at h1
    refine ArchInv.goto h (opsOk_cons (op := .xfer dcDataLevel _) ?_ h2) hl hb
    simp [opOk, byteAllowed, h1.1, h1.2]

/-- A run keeps the invariant. -/
theorem Inv.runFor (n : Nat) {s : State} (h : Inv s) : Inv (State.runFor n s) :=
  State.runFor_induct (P := Inv) (fun _ _ _ h hs => Inv.perform h hs) n s h

/-- A transfer may be performed where its bytes are allowed. -/
theorem opsOk_transfer {c : Config} {v : SeqView} (dc : Level) (bs : List Byte) (rest : List SeqOp)
    (hp : v.pins = true) (hu : v.drv ≠ .uninit) (hb : dc = false → 3 ≤ v.drv.num ∨ ∀ b ∈ bs, b ≠ c.cmdRefresh)
   (hr : opsOk c { v with dc := .ofLevel dc } rest = true) : opsOk c v (.driveDc dc :: .xfer dc bs :: rest) = true := by
  refine opsOk_cons hp (opsOk_cons ?_ hr)
  simp only [opOk, opView, List.all_eq_true]
  intro b hb'
  simp only [byteAllowed, Bool.and_eq_true, Bool.or_eq_true, decide_eq_true_eq]
  refine ⟨⟨hu, trivial⟩, ?_⟩
  cases dc with
  | true => exact .inl (.inl rfl)
  | false =>
    rcases hb rfl with h | h
    · right
      unfold DrvState.below
      rw [Bool.not_eq_true', decide_eq_false_iff_not]; exact Nat.not_lt.2 h
    · exact .inl (.inr (h b hb'))

/-- A handshake may be performed wherever the bus is configured. -/
theorem opsOk_waitBusy {c : Config} {v : SeqView} {rest : List SeqOp} (hu : v.drv ≠ .uninit)
    (hr : opsOk c { v with dc := .low } rest = true) : opsOk c v (waitBusy ++ rest) = true :=
  opsOk_cons (op := .poll 0) (by simpa [opOk] using hu) (opsOk_cons (op := .delay .busySettle) rfl hr)

/-- Data bytes, one transfer each, may be performed wherever the bus is configured. -/
theorem opsOk_sendDatas {c : Config} (bs : List Byte) {v : SeqView} {rest : List SeqOp} (hp : v.pins = true)
    (hu : v.drv ≠ .uninit) (hr : ∀ dc, dc = v.dc ∨ dc = .high → opsOk c { v with dc := dc } rest = true) :
    opsOk c v (bs.flatMap sendData ++ rest) = true := by
  induction bs generalizing v with
  | nil => exact hr v.dc (.inl rfl)
  | cons b bs ih =>
    refine opsOk_transfer true [b] (bs.flatMap sendData ++ rest) hp hu (by simp) (ih hp hu ?_)
    rintro dc (rfl | rfl)
    · exact hr _ (.inr rfl)
    · exact hr _ (.inr rfl)

/-- The entries of a legal INIT_TABLE may be performed wherever the bus is configured. -/
theorem opsOk_entries {c : Config} (es : List InitEntry) {v : SeqView} {rest : List SeqOp} (hp : v.pins = true)
    (hu : v.drv ≠ .uninit) (hd : v.dc.driven = true) (hw : ∀ e ∈ es, e.cmd ≠ c.cmdRefresh)
   (hr : ∀ dc : PinLevel, dc.driven = true → opsOk c { v with dc := dc } rest = true) :
    opsOk c v (es.flatMap replayEntry ++ rest) = true := by
  induction es generalizing v with
  | nil => exact hr v.dc hd
  | cons e es ih =>
    have hh : (e :: es).flatMap replayEntry ++ rest = .driveDc false :: .xfer false [e.cmd] ::
        ((e.data.take e.count).flatMap sendData ++ ((if e.wait then waitBusy else []) ++
        (es.flatMap replayEntry ++ rest))) := by
      simp [replayEntry, sendCommand, dcCommandLevel]
    rw [hh]
    refine opsOk_transfer false [e.cmd] _ hp hu (fun _ => .inr (by simpa using hw e (List.mem_cons_self ..)))
        (opsOk_sendDatas _ hp hu ?_)
    intro dc hdc
    have hdd : dc.driven = true := by rcases hdc with rfl | rfl <;> rfl
    have go : ∀ dc' : PinLevel, dc'.driven = true → opsOk c { v with dc := dc' }
        (es.flatMap replayEntry ++ rest) = true :=
      fun dc' hd' => ih (v := { v with dc := dc' }) hp hu hd' (fun e he => hw e (List.mem_cons_of_mem _ he)) hr
    split
    · exact opsOk_waitBusy hu (go _ rfl)
    · exact go _ hdd

/-- 43_panel_driver.md R219 (c): no entry issues the refresh command. -/
theorem entry_ne_refresh {c : Config} (h : c.wf = true) : ∀ e ∈ c.initTable, e.cmd ≠ c.cmdRefresh := by
  simp [Config.wf, InitEntry.wf] at h
  intro e he; exact (h.1.2 e he).2

/-- A hard reset may be performed wherever the bus is configured. -/
theorem opsOk_hardReset {c : Config} {v : SeqView} {rest : List SeqOp} (hp : v.pins = true) (hu : v.drv ≠ .uninit)
   (hr : opsOk c { v with dc := .low, rst := .high, drv := .resetComplete } rest = true) : opsOk c v
       (hardReset ++ rest) = true := by
  refine opsOk_cons (op := .driveRst true) hp (opsOk_cons (op := .delay _) rfl (opsOk_cons
      (op := .driveRst false) hp (opsOk_cons (op := .delay _) rfl (opsOk_cons (op := .driveRst true) hp (opsOk_cons
      (op := .delay _) rfl ?_)))))
  refine opsOk_waitBusy (rest := .setDrv .resetComplete :: rest) hu (opsOk_cons ?_ hr)
  simp [opOk, opView, drvMove, PinLevel.ofLevel, PinLevel.driven, hp, hu]

/-- INIT's statements may be performed in every state, for a legal configuration. -/
theorem opsOk_initOps {c : Config} (h : c.wf = true) (v : SeqView) : opsOk c v (initOps c) = true := by
  unfold initOps bringUpBus
  simp only [List.append_assoc, List.cons_append, List.nil_append]
  refine opsOk_cons (op := .setDrv .uninit) (by simp [opOk, drvMove]) (opsOk_cons (op := .configurePins) rfl
      (opsOk_cons (op := .busSetup) rfl
    (opsOk_cons (op := .driveRst true) rfl (opsOk_cons (op := .driveDc false) rfl (opsOk_cons
        (op := .setDrv .busConfigured) ?_
    (opsOk_hardReset rfl (by simp [opView]) (opsOk_cons (op := .delay .initSettle) rfl ?_)))))))
  · simp [opOk, opView, drvMove, PinLevel.driven, PinLevel.ofLevel]
  · unfold replayInitTable
    rw [List.append_assoc, List.append_assoc]
    refine opsOk_entries _ rfl (by simp [opView]) rfl (entry_ne_refresh h) ?_
    intro dc hd
    refine opsOk_waitBusy (by simp [opView]) (opsOk_cons (op := .setDrv .initApplied) ?_ ?_)
    · simp [opOk, opView, drvMove, PinLevel.driven, PinLevel.ofLevel]
    · unfold clearPanelWhite
      simp only [List.append_assoc, List.cons_append, List.nil_append]
      refine opsOk_transfer false _ _ rfl (by simp [opView]) (fun _ => .inl (by simp [opView, DrvState.num])) ?_
      refine opsOk_transfer true _ _ rfl (by simp [opView]) (fun _ => .inl (by simp [opView, DrvState.num])) ?_
      refine opsOk_transfer false _ _ rfl (by simp [opView]) (fun _ => .inl (by simp [opView, DrvState.num])) ?_
      refine opsOk_transfer true _ _ rfl (by simp [opView]) (fun _ => .inl (by simp [opView, DrvState.num])) ?_
      refine opsOk_transfer false _ _ rfl (by simp [opView]) (fun _ => .inl (by simp [opView, DrvState.num])) ?_
      refine opsOk_cons (op := .delay .refreshSettle) rfl (opsOk_waitBusy (by simp [opView]) (opsOk_cons
          (op := .setDrv .ready) ?_ rfl))
      simp [opOk, opView, drvMove, PinLevel.driven, PinLevel.ofLevel]

/-- UPDATE's statements may be performed from INIT_APPLIED on. -/
theorem opsOk_updateOps {c : Config} {v : SeqView} (hp : v.pins = true) (hd : 3 ≤ v.drv.num)
    (hr : v.rst.driven = true) : opsOk c v (updateOps c) = true := by
  have hu : v.drv ≠ .uninit := by intro h; rw [h] at hd; simp [DrvState.num] at hd
  unfold updateOps sendPackedPlane
  simp only [List.append_assoc, List.cons_append, List.nil_append]
  refine opsOk_transfer false _ _ hp hu (fun _ => .inl hd) (opsOk_cons (op := .packPlane _) rfl (opsOk_cons
      (op := .driveDc true) hp (opsOk_cons (op := .sendPlane) (by simp [opOk, opView, hu, dcDataLevel]) ?_)))
  refine opsOk_transfer false _ _ hp hu (fun _ => .inl hd) (opsOk_cons (op := .packPlane _) rfl (opsOk_cons
      (op := .driveDc true) hp (opsOk_cons (op := .sendPlane) (by simp [opOk, opView, hu, dcDataLevel]) ?_)))
  refine opsOk_transfer false _ _ hp hu (fun _ => .inl hd) (opsOk_cons (op := .delay .refreshSettle) rfl
      (opsOk_waitBusy hu (opsOk_cons (op := .setDrv .ready) ?_ rfl)))
  have : v.drv = .initApplied ∨ v.drv = .ready := by
    cases h : v.drv <;> rw [h] at hd <;> simp [DrvState.num] at *
  rcases this with h | h <;> simp [opOk, opView, drvMove, PinLevel.driven, h, hp] <;> simpa [PinLevel.driven] using hr

/-- Executing statements that may be performed keeps the invariant. -/
theorem ArchInv.execute {s : State} {ops : List SeqOp} (h : ArchInv s) (ho : opsOk s.cfg s.view ops = true)
    (hl : hasFault s.faults .setupError = true → ops.all SeqOp.quiet = true) : Inv (s.execute ops) :=
  Inv.runFor _ (ArchInv.goto (s := { s with opBusy := true })
      ⟨h.config, h.dims, h.attachment, h.cells, h.reach, h.codes, h.readData, h.reserved, h.pins, h.driven,
      h.latch⟩ ho hl rfl)

end Sys2Proof.Machine
end

