-- ==== Sys2Proof/Laws/Ops.lean ====
section
/-! SUPPORT. What the shared operations can answer: a micro-step either goes on or ends the request with one response, the
request channel offers a request, an illegal header or nothing yet, and a step is one agent's move. -/

namespace Sys2Proof.Machine

/-! ### One micro-step -/

/-- What a micro-step leaves as it was when the request goes on. -/
structure GoesOn (s t : State) : Prop where
  running    : t.seq.isRunning = true
  opBusy     : t.opBusy = s.opBusy
  lastResult : t.lastResult = s.lastResult
  responses  : t.responses = s.responses
  faults     : t.faults = s.faults

/-- How a micro-step that ends the request leaves it: one response, with data `d` (60_exceptions.md R301, R302). -/
structure Ends (d : Byte) (s t : State) : Prop where
  idle      : t.seq = .idle
  opBusy    : t.opBusy = false
  responses : t.responses = s.responses ++ [⟨t.lastResult, d⟩]
  faults    : t.faults = if t.lastResult = .ok then s.faults else setFault s.faults t.lastResult

theorem State.raise_ends (e : ResultCode) (he : e ≠ .ok) (s : State) : Ends 0x00 s (s.raise e) :=
  ⟨rfl, rfl, rfl, by simp [he]⟩

theorem State.complete_ends (d : Byte) (s : State) : Ends d s (s.complete d) := ⟨rfl, rfl, rfl, by simp⟩

/-- The response data of the statement that ends a request. -/
def SeqOp.data (s : State) : SeqOp → Byte
  | .completeRead => s.rdata
  | .setDrv _ | .configurePins | .busSetup | .driveRst _ | .driveDc _ | .delay _ | .xfer _ _ | .moveByte _ _ => 0x00
  | .xferFail | .poll _ | .sample _ | .packPlane _ | .sendPlane | .effect _ | .raise _ | .complete => 0x00

/-- A micro-step goes on or ends the request. -/
theorem State.perform_cases {op : SeqOp} (he : op ≠ .raise .ok) (rest : List SeqOp) (s : State) :
    GoesOn s (s.perform op rest) ∨ Ends (op.data s) s (s.perform op rest) := by
  cases op with
  | raise e => exact .inr (State.raise_ends e (fun h => he (h ▸ rfl)) s)
  | completeRead => exact .inr (State.complete_ends _ s)
  | effect e => exact .inl ⟨rfl, by simp [State.perform], by simp [State.perform], by simp [State.perform], by simp [State.perform]⟩
  | busSetup =>
    unfold State.perform; dsimp only
    split
    · exact .inl ⟨rfl, rfl, rfl, rfl, rfl⟩
    · exact .inr ⟨rfl, rfl, rfl, rfl⟩
  | xfer dc bs => unfold State.perform; dsimp only; split <;> exact .inl ⟨rfl, rfl, rfl, rfl, rfl⟩
  | sample n =>
    unfold State.perform State.afterSample; dsimp only
    split
    · exact .inl ⟨rfl, rfl, rfl, rfl, rfl⟩
    · split
      · exact .inr ⟨rfl, rfl, rfl, rfl⟩
      · exact .inl ⟨rfl, rfl, rfl, rfl, rfl⟩
  | xferFail => exact .inr ⟨rfl, rfl, rfl, rfl⟩
  | complete => exact .inr ⟨rfl, rfl, rfl, rfl⟩
  | _ => exact .inl ⟨rfl, rfl, rfl, rfl, rfl⟩

/-! ### The request channel (60_exceptions.md R315) -/

/-- The payload is not all there: the block waits, and has accepted what there is. -/
theorem State.collect_waiting {h : Beat} {got : List Beat} {s : State}
    (hl : got.length + s.requests.length < payloadBeats h) :
    s.collect h got = .waiting { s with opBusy := true, seq := .receiving h (got ++ s.requests), requests := [] } := by
  have h1 : s.requests.take (payloadBeats h - got.length) = s.requests := List.take_of_length_le (by omega)
  have h2 : s.requests.drop (payloadBeats h - got.length) = [] := List.drop_of_length_le (by omega)
  simp [State.collect, h1, h2, hl]

/-- The payload is all there: the request it makes, or an illegal header. -/
theorem State.collect_complete {h : Beat} {got p rest : List Beat} {s : State} (hr : s.requests = p ++ rest)
    (hl : got.length + p.length = payloadBeats h) :
    s.collect h got =
      match decodeRequest h (got ++ p) with
      | .request i  => .request i { s with opBusy := true, seq := .idle, requests := rest }
      | .rejected _ => .illegal { s with opBusy := true, seq := .idle, requests := rest } := by
  have h1 : payloadBeats h - got.length = p.length := by omega
  cases hd : decodeRequest h (got ++ p) <;> simp [State.collect, h1, hr, hl, hd]

/-- Without a header the block waits (70_reset_and_hazards.md R341). -/
theorem State.fetch_waiting {s : State} (hs : s.seq = .idle) (hr : s.requests = []) : s.fetch = .waiting s := by
  simp [State.fetch, hs, hr]

/-- A header is accepted first. -/
theorem State.fetch_header {s : State} {h : Beat} {rest : List Beat} (hs : s.seq = .idle) (hr : s.requests = h :: rest) :
    s.fetch = State.collect h [] { s with requests := rest } := by
  simp [State.fetch, hs, hr]

/-! ### One step -/

/-- A step is the host's block reset or the sequencer's move. -/
theorem step_cases (s : State) :
    (∃ ts, s.turns = .blockReset :: ts ∧ step s = .next { s with turns := ts, slice := none }.blockReset) ∨
    ((∀ ts, s.turns ≠ .blockReset :: ts) ∧ step s = advance s.takeTurn) := by
  unfold step
  split
  · rename_i ts h
    exact .inl ⟨ts, h, by simp [State.takeTurn, h]⟩
  · rename_i h; exact .inr ⟨fun ts hh => by simp [h] at hh, rfl⟩
  · rename_i h; exact .inr ⟨fun ts hh => by simp [h] at hh, rfl⟩

/-- The sequencer's move while a request executes. -/
theorem advance_running {s : State} {op : SeqOp} {rest : List SeqOp} (h : s.seq = .running (op :: rest)) :
    advance s = .next s.run := by
  simp [advance, h]

/-- The sequencer's move otherwise. -/
theorem advance_fetch {s : State} (h : s.seq.isRunning = false) :
    advance s =
      match s.fetch with
      | .waiting t   => .next t
      | .request i t => exec i t
      | .illegal t   => .next (t.execute [.raise .illegalOp]) := by
  unfold advance
  split
  · rename_i hq; rw [hq] at h; simp [Sequencer.isRunning] at h
  · rename_i hq; rw [hq] at h; simp [Sequencer.isRunning] at h
  · rfl
  · rfl

end Sys2Proof.Machine
end

