-- ==== Sys2Proof/Laws/PerInstr.lean ====
section
/-! SUPPORT. A law of every request as syntax: the header the encoder gives it is accepted by its own row of the opcode table
(30_encoding.md R102, R103, R111), so no request's encoding sets a bit its format requires to be zero. -/

namespace Sys2Proof.Laws.EncodedHeaderMatchesRow

/-- The request's header matches a row of the table, that of its mnemonic. -/
def Statement (i : Instr) : Prop :=
  i.wellFormed = true → ∃ r ∈ opTable, r.mnemonic = i.mnemonic ∧ r.accepts (encodeHeader i) = true

/-- A header of X, Y and IMM8 fields keeps only its opcode under a mask that leaves those fields out. -/
theorem headerXY_and (m : Beat) (op : BitVec 8) (b : Byte) (x y : BitVec 16) (hb : b = 0 ∨ m &&& 0xFF00 = 0)
    (hxy : (x = 0 ∧ y = 0) ∨ m &&& 0xFFFFFFFF00000000 = 0) (hm : m &&& 0xFF = 0xFF) :
    headerXY op b x y &&& m = op.setWidth 64 := by
  apply BitVec.eq_of_getLsbD_eq
  intro j hj
  have h1 := congrArg (fun v : Beat => v.getLsbD j) hm
  have hb' : b = 0 ∨ (m &&& 0xFF00).getLsbD j = false := hb.imp id fun h => by rw [h]; simp
  have hxy' : (x = 0 ∧ y = 0) ∨ (m &&& 0xFFFFFFFF00000000).getLsbD j = false := hxy.imp id fun h => by rw [h]; simp
  simp only [headerXY, BitVec.getLsbD_and, BitVec.getLsbD_append, BitVec.getLsbD_setWidth, hj, decide_true, Bool.true_and] at h1 hb' hxy' ⊢
  by_cases hj8 : j < 8
  · have : (0xFF : Beat).getLsbD j = true := by interval_cases j <;> rfl
    simp_all
  · have hop : op.getLsbD j = false := BitVec.getLsbD_of_ge _ _ (by omega)
    simp only [hj8, if_false, hop]
    by_cases hj16 : j - 8 < 8
    · rcases hb' with rfl | h
      · simp [hj16]
      · have : (0xFF00 : Beat).getLsbD j = true := by
          have : 8 ≤ j ∧ j < 16 := by omega
          obtain ⟨h1, h2⟩ := this
          interval_cases j <;> rfl
        simp_all
    · simp only [hj16, if_false]
      by_cases hj32 : j - 8 - 8 < 16
      · simp [hj32]
      · simp only [hj32, if_false]
        rcases hxy' with ⟨rfl, rfl⟩ | h
        · simp
        · have : (0xFFFFFFFF00000000 : Beat).getLsbD j = true := by
            have : 32 ≤ j := by omega
            interval_cases j <;> rfl
          simp_all


/-- A header of a 32-bit value keeps only its opcode under the mask of formats L and W. -/
theorem headerVal_and (op : BitVec 8) (v : BitVec 32) : headerVal op v &&& 0x00000000FFFFFFFF = op.setWidth 64 := by
  have h : headerVal op v = headerXY op 0 (v.extractLsb' 0 16) (v.extractLsb' 16 16) := by
    apply BitVec.eq_of_getLsbD_eq
    intro j hj
    simp only [headerVal, headerXY, BitVec.getLsbD_append, BitVec.getLsbD_extractLsb']
    interval_cases j <;> simp
  rw [h]
  exact headerXY_and _ op 0 _ _ (.inl rfl) (.inr (by decide)) (by decide)

theorem nop : Statement (.nop) := fun _ =>
  ⟨opTable[0], List.getElem_mem _, rfl, decide_eq_true (headerXY_and _ _ _ _ _ (.inl rfl) (.inl ⟨rfl, rfl⟩) (by decide))⟩

theorem init : Statement (.init) := fun _ =>
  ⟨opTable[1], List.getElem_mem _, rfl, decide_eq_true (headerXY_and _ _ _ _ _ (.inl rfl) (.inl ⟨rfl, rfl⟩) (by decide))⟩

theorem hardReset : Statement (.hardReset) := fun _ =>
  ⟨opTable[2], List.getElem_mem _, rfl, decide_eq_true (headerXY_and _ _ _ _ _ (.inl rfl) (.inl ⟨rfl, rfl⟩) (by decide))⟩

theorem waitBusy : Statement (.waitBusy) := fun _ =>
  ⟨opTable[3], List.getElem_mem _, rfl, decide_eq_true (headerXY_and _ _ _ _ _ (.inl rfl) (.inl ⟨rfl, rfl⟩) (by decide))⟩

theorem sendCmd (b : Byte) : Statement (.sendCmd b) := fun _ =>
  ⟨opTable[4], List.getElem_mem _, rfl, decide_eq_true (headerXY_and _ _ _ _ _ (.inr (by decide)) (.inl ⟨rfl, rfl⟩) (by decide))⟩

theorem sendData (b : Byte) : Statement (.sendData b) := fun _ =>
  ⟨opTable[5], List.getElem_mem _, rfl, decide_eq_true (headerXY_and _ _ _ _ _ (.inr (by decide)) (.inl ⟨rfl, rfl⟩) (by decide))⟩

theorem sendBuf (bs : List Byte) : Statement (.sendBuf bs) := fun _ =>
  ⟨opTable[6], List.getElem_mem _, rfl, decide_eq_true (headerVal_and _ _)⟩

theorem setPollLimit (v : BitVec 32) : Statement (.setPollLimit v) := fun _ =>
  ⟨opTable[7], List.getElem_mem _, rfl, decide_eq_true (headerVal_and _ _)⟩

theorem fbCreate (w h : BitVec 16) : Statement (.fbCreate w h) := fun _ =>
  ⟨opTable[8], List.getElem_mem _, rfl, decide_eq_true (headerXY_and _ _ _ _ _ (.inl rfl) (.inr (by decide)) (by decide))⟩

theorem fbDestroy : Statement (.fbDestroy) := fun _ =>
  ⟨opTable[9], List.getElem_mem _, rfl, decide_eq_true (headerXY_and _ _ _ _ _ (.inl rfl) (.inl ⟨rfl, rfl⟩) (by decide))⟩

theorem fbClear (c : Byte) : Statement (.fbClear c) := fun _ =>
  ⟨opTable[10], List.getElem_mem _, rfl, decide_eq_true (headerXY_and _ _ _ _ _ (.inr (by decide)) (.inl ⟨rfl, rfl⟩) (by decide))⟩

theorem fbPixel (x y : BitVec 16) (c : Byte) : Statement (.fbPixel x y c) := fun _ =>
  ⟨opTable[11], List.getElem_mem _, rfl, decide_eq_true (headerXY_and _ _ _ _ _ (.inr (by decide)) (.inr (by decide)) (by decide))⟩

theorem fbRead (x y : BitVec 16) : Statement (.fbRead x y) := fun _ =>
  ⟨opTable[12], List.getElem_mem _, rfl, decide_eq_true (headerXY_and _ _ _ _ _ (.inl rfl) (.inr (by decide)) (by decide))⟩

theorem attach : Statement (.attach) := fun _ =>
  ⟨opTable[13], List.getElem_mem _, rfl, decide_eq_true (headerXY_and _ _ _ _ _ (.inl rfl) (.inl ⟨rfl, rfl⟩) (by decide))⟩

theorem detach : Statement (.detach) := fun _ =>
  ⟨opTable[14], List.getElem_mem _, rfl, decide_eq_true (headerXY_and _ _ _ _ _ (.inl rfl) (.inl ⟨rfl, rfl⟩) (by decide))⟩

theorem update : Statement (.update) := fun _ =>
  ⟨opTable[15], List.getElem_mem _, rfl, decide_eq_true (headerXY_and _ _ _ _ _ (.inl rfl) (.inl ⟨rfl, rfl⟩) (by decide))⟩

end Sys2Proof.Laws.EncodedHeaderMatchesRow
end

