-- ==== Sys2Proof/Tests/Slice0.lean ====
section
/-! SUPPORT. The model's own tests, their expected values from the spec's tables and vectors, and a witness for every obligation
that has hypotheses. -/

namespace Sys2Proof.Tests

open Sys2Proof Sys2Proof.Machine

/-! ### WellFormed refuses what LEN32 cannot say (30_encoding.md R101) -/

theorem test_wellFormed_payload_too_long : ∀ bs : List Byte, bs.length = 4294967296 →
    (Instr.sendBuf bs).wellFormed = false := fun bs h => by rw [Instr.wellFormed, h]; decide

theorem test_wellFormed_longest_payload : ∀ bs : List Byte, bs.length = 4294967295 →
    (Instr.sendBuf bs).wellFormed = true := fun bs h => by rw [Instr.wellFormed, h]; decide

/-- An ill-formed term, which the check refuses. -/
theorem test_wellFormed_refuses : (Instr.sendBuf (List.replicate 4294967296 0x00)).wellFormed = false :=
  test_wellFormed_payload_too_long _ List.length_replicate

/-! ### Decoding: words written out from 30_encoding.md R101 to R105, R111 and 95_test_vectors.md L2.1 -/

/-- spec/opcode_table.json, every row: mnemonic, match, mask. -/
theorem test_opTable_is_the_table_of_the_spec : (opTable.map fun r => (r.mnemonic, r.pattern, r.format.mask)) =
    [("NOP",            0x0000000000000000, 0xFFFFFFFFFFFFFFFF), ("INIT",      0x0000000000000001, 0xFFFFFFFFFFFFFFFF),
     ("HARD_RESET",     0x0000000000000002, 0xFFFFFFFFFFFFFFFF), ("WAIT_BUSY", 0x0000000000000003, 0xFFFFFFFFFFFFFFFF),
     ("SEND_CMD",       0x0000000000000004, 0xFFFFFFFFFFFF00FF), ("SEND_DATA", 0x0000000000000005, 0xFFFFFFFFFFFF00FF),
     ("SEND_BUF",       0x0000000000000006, 0x00000000FFFFFFFF),
     ("SET_POLL_LIMIT", 0x0000000000000007, 0x00000000FFFFFFFF),
     ("FB_CREATE",      0x0000000000000010, 0x00000000FFFFFFFF), ("FB_DESTROY", 0x0000000000000011, 0xFFFFFFFFFFFFFFFF),
     ("FB_CLEAR",       0x0000000000000012, 0xFFFFFFFFFFFF00FF), ("FB_PIXEL",   0x0000000000000013, 0x00000000FFFF00FF),
     ("FB_READ",        0x0000000000000014, 0x00000000FFFFFFFF), ("ATTACH",     0x0000000000000020, 0xFFFFFFFFFFFFFFFF),
     ("DETACH",         0x0000000000000021, 0xFFFFFFFFFFFFFFFF), ("UPDATE",     0x0000000000000022, 0xFFFFFFFFFFFFFFFF)] := by
  decide

/-- No two rows match one header: the masks all keep the opcode byte, and the opcodes differ. -/
theorem test_opTable_rows_do_not_overlap :
    (opTable.Pairwise fun a b => a.op ≠ b.op) ∧ ∀ r ∈ opTable, r.format.mask &&& 0xFF = 0xFF := by decide

theorem test_decode_nop : decodeTableWord 64 0x0000000000000000 = some .nop := by decide
theorem test_decode_init : decodeTableWord 64 0x0000000000000001 = some .init := by decide
theorem test_decode_hardReset : decodeTableWord 64 0x0000000000000002 = some .hardReset := by decide
theorem test_decode_waitBusy : decodeTableWord 64 0x0000000000000003 = some .waitBusy := by decide
theorem test_decode_sendCmd : decodeTableWord 64 0x0000000000001304 = some (.sendCmd 0x13) := by decide
theorem test_decode_sendData : decodeTableWord 64 0x000000000000A505 = some (.sendData 0xA5) := by decide
theorem test_decode_setPollLimit : decodeTableWord 64 0xFFFFFFFF00000007 = some (.setPollLimit 0xFFFFFFFF) := by decide
theorem test_decode_fbCreate : decodeTableWord 64 0x0008001000000010 = some (.fbCreate 16 8) := by decide
theorem test_decode_fbDestroy : decodeTableWord 64 0x0000000000000011 = some .fbDestroy := by decide
theorem test_decode_fbClear : decodeTableWord 64 0x0000000000000312 = some (.fbClear 0x03) := by decide
theorem test_decode_fbPixel : decodeTableWord 64 0x0001000800000113 = some (.fbPixel 8 1 0x01) := by decide
theorem test_decode_fbRead : decodeTableWord 64 0x0001000000000014 = some (.fbRead 0 1) := by decide
theorem test_decode_attach : decodeTableWord 64 0x0000000000000020 = some .attach := by decide
theorem test_decode_detach : decodeTableWord 64 0x0000000000000021 = some .detach := by decide
theorem test_decode_update : decodeTableWord 64 0x0000000000000022 = some .update := by decide

/-- V-E15: two payload beats, byte 8 in lane 0 of the second. -/
theorem test_decode_sendBuf :
    decodeBeats [0x0000000900000006, 0x0807060504030201, 0xFFFFFFFFFFFFFF09, 0x22] =
      (.request (.sendBuf [1, 2, 3, 4, 5, 6, 7, 8, 9]), [0x22]) := by decide

/-- V-E9: the payload of an illegal SEND_BUF header is consumed. -/
theorem test_decode_illegal_sendBuf :
    decodeBeats [0x0000000900000106, 1, 2, 0x22] = (.rejected .mustBeZero, [0x22]) := by decide

/-- V-E2 to V-E5, V-E12. -/
theorem test_decode_illegal :
    ([0x100, 0x10001, 0x08, 0xFF, 0xFF0013] : List Beat).map (fun h => decodeRequest h []) =
      [.rejected .mustBeZero, .rejected .mustBeZero, .rejected .unassignedOp, .rejected .unassignedOp,
       .rejected .mustBeZero] := by decide

/-- One word a family, bit by bit: Y in 63:48, X in 47:32, reserved 31:16, IMM8 in 15:8, OP in 7:0 (R101). -/
theorem test_decode_bit_by_bit :
    decodeTableWord 64 0b0000000000000110100000000000010100000000000000000000001000010011 = some (.fbPixel 0x8005 0x0006 0x02) ∧
    decodeTableWord 64 0b0000000000000000000000000000000000000000000000000000000000100010 = some .update ∧
    decodeTableWord 64 0b0000000000000000000000000000000000000000000000000111000100000100 = some (.sendCmd 0x71) := by decide

/-- 30_encoding.md R111: SEND_BUF's beats as the encoder lays them out (V-E15). -/
theorem test_encode_sendBuf :
    encode (.sendBuf [1, 2, 3, 4, 5, 6, 7, 8, 9]) = [0x0000000900000006, 0x0807060504030201, 0x0000000000000009] := by decide

/-! ### The first step after reset runs each row's word -/

/-- What a step answered. -/
def answers : Host.Outcome State Fault Refusal → Bool
  | .next _ => true
  | .fault _ => false
  | .refused _ => false

theorem test_first_step_runs_every_row :
    (opTable.all fun r => answers (step (State.reset.withFetchWord 64 r.pattern.toNat))) = true := by decide

theorem test_reset_store_wf : Memory.wf State.reset.fb = true := by decide

/-! ### States for the tests, under EX (95_test_vectors.md section 0) -/

/-- After block reset, with answers prepared. -/
def start (env : Environment) : State := { State.resetWith Config.ex with env := env }

/-- In a given driver state with the pins up. -/
def up (d : DrvState) (env : Environment) : State :=
  { start env with drv := d, pinsConfigured := true, rstOut := .high, dcOut := .low }

/-- With a framebuffer of given cells. -/
def withFb (w h : BitVec 16) (cells : Memory) (s : State) : State :=
  { s with fbValid := true, fbW := w, fbH := h, fb := cells }

/-- No answer prepared. -/
def silent : Environment := ⟨[], [], []⟩

/-- A field of what a request leaves. -/
def after {α : Type} (i : Instr) (s : State) (f : State → α) : Option α :=
  match exec i s with
  | .next t => some (f t)
  | .fault _ => none
  | .refused _ => none

/-- A field of what a step leaves. -/
def afterStep {α : Type} (s : State) (f : State → α) : Option α :=
  match step s with
  | .next t => some (f t)
  | .fault _ => none
  | .refused _ => none

/-! ### One request each (95_test_vectors.md L2.2 to L2.6) -/

/-- V-X4: FAULTS stays, LAST_RESULT is overwritten. -/
theorem test_nop : after .nop { start silent with faults := 0x40, lastResult := .setupError }
    (fun t => (t.lastResult, t.faults, t.trace)) = some (.ok, 0x40, []) := by decide

/-- V-PD21 -/
theorem test_init_setup_fails : after .init (start ⟨[.fail], [], []⟩)
    (fun t => (t.trace, t.drv, t.rstOut, t.dcOut, t.faults)) =
      some ([.cfg, .setup .fail], .uninit, .x, .x, 0x40) := by decide

/-- V-PD23 -/
theorem test_init_first_transfer_fails : after .init (start ⟨[.ok], [.err 0], []⟩)
    (fun t => (t.trace, t.drv, t.rstOut, t.dcOut)) =
      some ([.cfg, .setup .ok, .rst true, .rst true, .wait .rstHigh1, .rst false, .wait .rstLow, .rst true,
        .wait .rstHigh2, .xferErr], .busConfigured, .high, .low) := by decide

/-- V-PD18 -/
theorem test_hardReset : after .hardReset (up .ready ⟨[], [.ok], [true]⟩) (fun t => (t.trace, t.drv, t.lastResult)) =
    some ([.rst true, .wait .rstHigh1, .rst false, .wait .rstLow, .rst true, .wait .rstHigh2, .byte false 0x71,
      .wait .poll, .sample true, .wait .busySettle], .resetComplete, .ok) := by decide

/-- V-PD11 -/
theorem test_waitBusy_third_poll : after .waitBusy (up .ready ⟨[], [.ok, .ok, .ok], [false, false, true]⟩)
    (fun t => (t.lastResult, t.trace.length, t.trace.getLast?)) = some (.ok, 10, some (.wait .busySettle)) := by decide

/-- V-PD12 -/
theorem test_waitBusy_not_responding : after .waitBusy (up .ready ⟨[], [.ok, .ok, .ok], [false, false, false]⟩)
    (fun t => (t.lastResult, t.trace.length, t.faults)) = some (.notResponding, 9, 0x100) := by decide

/-- V-PD3 -/
theorem test_sendCmd_refresh : after (.sendCmd 0x12) (up .ready ⟨[], [.ok], []⟩) (fun t => (t.lastResult, t.trace)) =
    some (.ok, [.byte false 0x12]) := by decide

/-- V-PD4 -/
theorem test_sendCmd_refresh_too_early : after (.sendCmd 0x12) (up .resetComplete ⟨[], [.ok], []⟩)
    (fun t => (t.lastResult, t.trace)) = some (.stateError, []) := by decide

/-- V-PD5: a data byte is not a command. -/
theorem test_sendData : after (.sendData 0x12) (up .resetComplete ⟨[], [.ok], []⟩)
    (fun t => (t.lastResult, t.trace, t.dcOut)) = some (.ok, [.byte true 0x12], .high) := by decide

/-- V-PD8 -/
theorem test_sendBuf_fails_after_one : after (.sendBuf [0x11, 0x22, 0x33]) (up .ready ⟨[], [.err 1], []⟩)
    (fun t => (t.lastResult, t.trace, t.faults)) = some (.transferError, [.byte true 0x11, .xferErr], 0x80) := by decide

/-- V-PD7 -/
theorem test_sendBuf_empty : after (.sendBuf []) (up .ready ⟨[], [.err 0], []⟩)
    (fun t => (t.lastResult, t.trace, t.dcOut, t.env.xfers)) = some (.ok, [], .high, [.err 0]) := by decide

/-- V-PD19, V-PD20 -/
theorem test_setPollLimit : (start silent).sideband false 2 = 3 ∧
    after (.setPollLimit 0) (start silent) (State.sideband false 2) = some 0 := by decide

/-- V-F3: DIMS, and the last cell is WHITE. -/
theorem test_fbCreate : after (.fbCreate 32 32) (start silent) (fun t => (t.lastResult, t.dims, t.fbCell 1023)) =
    some (.ok, 0x00200020, 0) := by decide

/-- V-F5: the state check comes before the dimension check. -/
theorem test_fbCreate_twice : after (.fbCreate 0 0) (withFb 4 4 [] (start silent)) (fun t => (t.lastResult, t.dims)) =
    some (.stateError, 0x00040004) := by decide

/-- V-F7 -/
theorem test_fbDestroy_attached : after .fbDestroy { withFb 4 4 [] (start silent) with attached := true }
    (fun t => (t.lastResult, t.fbValid)) = some (.stateError, true) := by decide

/-- V-F8 -/
theorem test_fbDestroy : after .fbDestroy (withFb 4 4 [(15, 2)] (start silent)) (fun t => (t.lastResult, t.dims, t.fb)) =
    some (.ok, 0, []) := by decide

/-- L1-P2, the last cell of 2×2. -/
theorem test_fbClear : after (.fbClear 0x02) (withFb 2 2 [(0, 1)] (start silent)) (fun t => (t.fbCell 0, t.fbCell 3)) =
    some (2, 2) := by decide

/-- V-F10 -/
theorem test_fbClear_illegal : after (.fbClear 0x03) (withFb 4 4 [(0, 1)] (start silent))
    (fun t => (t.lastResult, t.fbCell 0)) = some (.illegalColor, 1) := by decide

/-- V-F13 -/
theorem test_fbPixel : after (.fbPixel 3 3 0x01) (withFb 4 4 [] (start silent)) (fun t => (t.fbCell 15, t.fbCell 14)) =
    some (1, 0) := by decide

/-- V-F12: the color is checked before the bounds. -/
theorem test_fbPixel_color_first : after (.fbPixel 100 100 0x07) (withFb 4 4 [] (start silent)) (fun t => t.lastResult) =
    some .illegalColor := by decide

/-- V-F16 -/
theorem test_fbRead : after (.fbRead 3 3) (withFb 4 4 [(15, 2)] (start silent))
    (fun t => (t.responses, State.sideband false 3 t)) = some ([⟨.ok, 0x02⟩], 0x00000002) := by decide

/-- V-F17 -/
theorem test_fbRead_out_of_bounds : after (.fbRead 4 0) (withFb 4 4 [(15, 2)] { start silent with rdata := 0x02 })
    (fun t => (t.responses, t.rdata, t.faults)) = some ([⟨.boundsError, 0x00⟩], 0x02, 0x20) := by decide

/-- V-RN8 -/
theorem test_attach_without_fb : after .attach (start silent) (fun t => (t.lastResult, t.attached)) =
    some (.stateError, false) := by decide

/-- V-RN9 -/
theorem test_attach : after .attach (withFb 2 2 [] (start silent)) (fun t => (t.lastResult, t.attached)) =
    some (.ok, true) := by decide

/-- V-RN10 -/
theorem test_detach : after .detach { start silent with attached := true } (fun t => (t.lastResult, t.attached)) =
    some (.ok, false) := by decide

/-- V-RN14 -/
theorem test_update : after .update { withFb 1 1 [(0, 2)] (up .ready ⟨[], List.replicate 6 .ok, [true]⟩) with attached := true }
    (fun t => (t.trace, t.drv)) =
      some ([.byte false 0x10, .byte true 0x00, .byte false 0x13, .byte true 0x80, .byte false 0x12, .wait .refreshSettle,
        .byte false 0x71, .wait .poll, .sample true, .wait .busySettle], .ready) := by decide

/-- V-RN12 -/
theorem test_update_uninit : after .update { withFb 2 2 [] (start silent) with attached := true }
    (fun t => (t.lastResult, t.trace, t.faults)) = some (.stateError, [], 0x08) := by decide

/-! ### Operations -/

/-- V-RN2: ten pixels a row, two rows. -/
theorem test_packPlane :
    let s := withFb 10 2 [(0, 1), (9, 2), (11, 2), (12, 1), (18, 1)] (start silent)
    s.packPlane .black = [0x80, 0x00, 0x20, 0x80] ∧ s.packPlane .red = [0x00, 0x40, 0x40, 0x00] := by decide

/-- V-S7, from a state inside an UPDATE. -/
theorem test_block_reset_abandons_the_request :
    afterStep { withFb 4 4 [(3, 1)] (up .ready silent) with
        opBusy := true, seq := .running [.moveByte true 0xFF, .complete], trace := [.byte false 0x10], faults := 2,
        turns := [.blockReset] }
      (fun t => (t.drv, t.fbValid, t.rstOut, t.responses, t.trace)) =
    some (.uninit, false, .z, [], [.byte false 0x10]) := by decide

/-- 20_memory.md R78, 70_reset_and_hazards.md R340 (a): FB_CREATE is accepted, a sideband read falls inside it with OP_BUSY = 1
and no framebuffer yet, and a block reset abandons it without a response. -/
theorem test_short_request_seen_and_abandoned :
    let s := { start silent with requests := [0x0008001000000010], turns := [.sequencer 0, .blockReset] }
    (afterStep s fun t => (State.sideband false 0 t, State.sideband false 1 t, t.responses)) = some (0x00000008, 0, []) ∧
    (afterStep s fun t => afterStep t fun u => (u.opBusy, u.fbValid, u.seq, u.responses)) =
      some (some (false, false, .idle, [])) := by decide

/-- 10_state.md R35, R48, log 22: between FB_CREATE's writes and its response, DIMS and FB_VALID both show the framebuffer. -/
theorem test_fbCreate_seen_before_its_response :
    afterStep { start silent with requests := [0x0008001000000010], turns := [.sequencer 1] }
      (fun t => (State.sideband false 0 t, State.sideband false 1 t, t.responses)) = some (0x00000028, 0x00080010, []) := by
  decide

/-- V-S4, with BUSY_IN = 1: STATUS at the end of program 1. -/
theorem test_status : { withFb 16 8 [(51, 2)] (up .ready silent) with attached := true }.sideband true 0 = 0x000000F4 := by
  decide

/-- V-M2, V-M7 -/
theorem test_line : lineMacro 0x000A000A 0 0 2 9 1 = [.fbPixel 0 0 1, .fbPixel 1 4 1] ∧
    lineMacro 0x000A000A 0 3 3 0 1 = [.fbPixel 0 3 1, .fbPixel 1 4 1, .fbPixel 2 5 1] := by decide

/-- V-M11, V-M12 -/
theorem test_rect : rectMacro 0x00080008 1 1 3 2 1 =
      [.fbPixel 1 1 1, .fbPixel 2 1 1, .fbPixel 3 1 1, .fbPixel 1 3 1, .fbPixel 2 3 1, .fbPixel 3 3 1] ∧
    rectMacro 0x00080008 5 1 3 2 1 = [] := by decide

/-- V-M16 -/
theorem test_fill : fillMacro (-1) (-1) 2 2 1 = [.fbPixel 0 0 1] := by decide

/-- V-M18, V-M21 -/
theorem test_bitmap : bitmapMacro 1 0 3 2 [0xA0, 0x40] 1 = some [.fbPixel 1 0 1, .fbPixel 3 0 1, .fbPixel 2 1 1] ∧
    bitmapMacro 0 0 9 1 [0xFF] 1 = none := by decide

/-- V-M22, V-M23 -/
theorem test_text : textMacro Config.ex 0 0 [65, 66] 2 =
      some [.fbPixel 0 0 2, .fbPixel 1 1 2, .fbPixel 2 0 2, .fbPixel 3 0 2, .fbPixel 2 1 2, .fbPixel 3 1 2] ∧
    textMacro Config.ex 0 0 [67] 2 = none := by decide

/-- V-M24 -/
theorem test_dump : dumpRequests (dumpMacro 0x00020002) = [.fbRead 0 0, .fbRead 1 0, .fbRead 0 1, .fbRead 1 1] ∧
    dumpText (dumpMacro 0x00020002) [0, 1, 0, 0] = "01\n00\n" := by decide

/-! ### Witnesses: for every obligation with hypotheses, a state and operands that meet them, clause by clause -/

open Sys2Proof.Claims

theorem witness_DecodeUndoesEncode : (Instr.sendBuf []).wellFormed = true ∧ (Instr.sendBuf [1, 2, 3]).wellFormed = true ∧
    (Instr.fbCreate 0xFFFF 0xFFFF).wellFormed = true := by decide

theorem witness_EncodeUndoesDecode :
    decodeRequest 0x0000000300000006 [0x0000000000332211] = .request (.sendBuf [0x11, 0x22, 0x33]) := by decide

/-- A header with one payload beat, and one with two of which one has come. -/
theorem witness_StepRunsTheDecodedRequest :
    (let s := { start silent with requests := [0x0000000300000006, 0x0000000000332211, 0x22] }
     s.seq = .idle ∧ s.requests = 0x0000000300000006 :: ([0x0000000000332211] ++ [0x22]) ∧
     [(0x0000000000332211 : Beat)].length = payloadBeats 0x0000000300000006 ∧
     decodeRequest 0x0000000300000006 [0x0000000000332211] = .request (.sendBuf [0x11, 0x22, 0x33]) ∧
     s.turns = [] ∧ { s with turns := [.sequencer 2] }.turns = .sequencer 2 :: []) ∧
    (let s := { start silent with requests := [0x09, 0x22], seq := .receiving 0x0000000900000006 [0x0807060504030201] }
     s.turns = [] ∧ { s with turns := [.sequencer 2] }.turns = .sequencer 2 :: [] ∧ s.requests = [0x09] ++ [0x22] ∧
     [(0x0807060504030201 : Beat)].length + [(0x09 : Beat)].length = payloadBeats 0x0000000900000006 ∧
     decodeRequest 0x0000000900000006 ([0x0807060504030201] ++ [0x09]) =
       .request (.sendBuf [1, 2, 3, 4, 5, 6, 7, 8, 9])) := by decide

theorem witness_IllegalHeaderIsAnsweredAndItsPayloadConsumed :
    let s := { start silent with requests := [0x0000000900000106, 1, 2, 0x22] }
    s.turns = [] ∧ { s with turns := [.sequencer 1] }.turns = .sequencer (0 + 1) :: [] ∧ s.seq = .idle ∧
      s.requests = 0x0000000900000106 :: ([1, 2] ++ [0x22]) ∧
      [(1 : Beat), 2].length = payloadBeats 0x0000000900000106 ∧
      ∀ r ∈ opTable, (0x0000000900000106 : Beat) &&& r.format.mask ≠ r.op.setWidth 64 := by decide

theorem witness_BlockWaitsForHeaderAndPayload :
    (let s := { start silent with requests := [0x0000000900000006, 1] }
     s.turns = [] ∧ s.seq = .idle ∧ s.requests = 0x0000000900000006 :: [1] ∧
       [(1 : Beat)].length < payloadBeats 0x0000000900000006) ∧
    ((start silent).turns = [] ∧ (start silent).seq = .idle ∧ (start silent).requests = []) := by decide

/-- A state inside a request, the host's next header waiting. -/
def inside : State :=
  { up .ready silent with opBusy := true, seq := .running [.moveByte false 0x10, .complete], requests := [0x22] }

theorem witness_NoBeatIsAcceptedWhileARequestExecutes :
    inside.seq = .running [.moveByte false 0x10, .complete] ∧ ∃ t, step inside = .next t := ⟨rfl, _, rfl⟩

theorem witness_BlockResetTakesEveryElementToItsResetValue :
    { inside with turns := [.blockReset] }.turns = .blockReset :: [] := rfl

theorem witness_FbCreateResult :
    granted (withFb 4 4 [] (start silent)) 2 ∧ (withFb 4 4 [] (start silent)).fbValid = true ∧
    (let s := start silent
     granted s 2 ∧ s.fbValid = false ∧ s.cfg.fbMaxW < (33 : BitVec 16).toNat ∧ s.cfg.fbMaxH < (33 : BitVec 16).toNat ∧
       s.fbW = 0 ∧ s.fbH = 0 ∧ Memory.wf s.fb = true ∧
       1 ≤ (1 : BitVec 16).toNat ∧ (1 : BitVec 16).toNat ≤ s.cfg.fbMaxW ∧
       1 ≤ (32 : BitVec 16).toNat ∧ (32 : BitVec 16).toNat ≤ s.cfg.fbMaxH) := by
  unfold granted; decide

theorem witness_FbDestroyResult :
    granted (start silent) 2 ∧ granted (withFb 4 4 [] (start silent)) 2 ∧ (start silent).fbValid = false ∧ { withFb 4 4 [] (start silent) with attached := true }.attached = true ∧
    (withFb 4 4 [] (start silent)).fbValid = true ∧ (withFb 4 4 [] (start silent)).attached = false := by
  unfold granted; decide

theorem witness_FbClearResult :
    ((0x03 : Byte) ≠ 0x00 ∧ (0x03 : Byte) ≠ 0x01 ∧ (0x03 : Byte) ≠ 0x02) ∧
    granted { withFb 4 4 [(15, 2)] (start silent) with slice := some 2 } 2 ∧
    Memory.wf { withFb 4 4 [(15, 2)] (start silent) with slice := some 2 }.fb = true := by unfold granted; decide

theorem witness_FbPixelResult :
    let s := withFb 4 3 [(11, 2)] (start silent)
    granted s 2 ∧ ((0xFF : Byte) ≠ 0x00 ∧ (0xFF : Byte) ≠ 0x01 ∧ (0xFF : Byte) ≠ 0x02) ∧ s.fbW.toNat ≤ (4 : BitVec 16).toNat ∧
      s.fbH.toNat ≤ (3 : BitVec 16).toNat ∧ (3 : BitVec 16).toNat < s.fbW.toNat ∧ (2 : BitVec 16).toNat < s.fbH.toNat ∧
      Memory.wf s.fb = true := by unfold granted; decide

/-- A state with a framebuffer that meets the invariant. -/
def painted : State := { withFb 4 4 [(15, 2)] (up .ready silent) with attached := true }

theorem witness_inv_painted : Inv painted := by
  refine ⟨⟨Config.ex_wf, ?_, ?_, ?_, ?_, ?_, ?_, ?_, ?_, ?_, ?_⟩, ?_, ?_, ?_⟩ <;> decide

theorem witness_FbReadResult :
    Inv painted ∧ granted painted 2 ∧ painted.fbW.toNat ≤ (4 : BitVec 16).toNat ∧ painted.fbH.toNat ≤ (4 : BitVec 16).toNat ∧
    (3 : BitVec 16).toNat < painted.fbW.toNat ∧ (3 : BitVec 16).toNat < painted.fbH.toNat ∧
    ∃ t, exec (.fbRead 3 3) painted = .next t := ⟨witness_inv_painted, by unfold granted; decide, by decide, by decide, by decide, by decide, _, rfl⟩

theorem witness_ClearThenReadGivesTheColor :
    granted painted 2 ∧ Memory.wf painted.fb = true ∧ (3 : BitVec 16).toNat < painted.fbW.toNat ∧
    (3 : BitVec 16).toNat < painted.fbH.toNat := by unfold granted; decide

theorem witness_FramebufferRequestsFrame : granted painted 2 ∧ ∃ x y, Instr.fbRead 3 3 = .fbRead x y :=
  ⟨by unfold granted; decide, 3, 3, rfl⟩

theorem witness_FillIsTheLoopOfCellWrites : Memory.wf [(1, 2), (3, 1)] = true := by decide

theorem witness_AttachResult : granted (start silent) 2 ∧ (start silent).fbValid = false ∧ granted painted 2 ∧
    painted.fbValid = true := by unfold granted; decide

theorem witness_DetachSetPollLimitAndNopResults : granted { painted with slice := some 2 } 2 := by unfold granted; decide

theorem witness_PlaneUnpacksToThePixels :
    let s := withFb 10 2 [(9, 2)] (start silent)
    9 < s.fbW.toNat ∧ 1 < s.fbH.toNat := by decide

theorem witness_PlanePaddingIsZero :
    let s := withFb 10 2 [(9, 2)] (start silent)
    1 < s.fbH.toNat ∧ s.fbW.toNat % 8 ≠ 0 ∧ 5 < 8 - s.fbW.toNat % 8 := by decide

theorem witness_NoPixelIsInBothPlanes : Inv painted ∧ 15 < painted.fbW.toNat * painted.fbH.toNat :=
  ⟨witness_inv_painted, by decide⟩

theorem witness_UpdateGuards :
    granted (up .ready silent) 1 ∧ (up .ready silent).attached = false ∧ granted painted 1 ∧ painted.attached = true ∧
    { painted with drv := .resetComplete }.drv.num < 3 := by unfold granted; decide

/-- A state from which an UPDATE's transfers succeed and its second poll finds the panel ready. -/
def updating : State :=
  { withFb 4 4 [(15, 2)] (up .initApplied ⟨[], List.replicate 7 .ok, [false, true]⟩) with attached := true }

theorem witness_UpdateRendersBothPlanes :
    updating.slice = none ∧ updating.attached = true ∧ 3 ≤ updating.drv.num ∧ 1 ≤ updating.fbW.toNat ∧
    1 ≤ updating.fbH.toNat ∧ withinLimit updating 1 ∧ calm updating (6 + 1) 1 [] [] := by
  unfold withinLimit calm; decide

theorem witness_UpdateNeverWritesTheFramebuffer : ∃ t, exec .update updating = .next t := ⟨_, rfl⟩

theorem witness_UpdateTransmissionGuarantees :
    updating.slice = none ∧ updating.attached = true ∧ 3 ≤ updating.drv.num ∧ ∃ t, exec .update updating = .next t :=
  ⟨rfl, rfl, by decide, _, rfl⟩

theorem witness_BusGuardRefusesInUninit : granted (start silent) 1 ∧ (start silent).drv = .uninit := by
  unfold granted; decide

theorem witness_SendCmdResult :
    granted (start silent) 1 ∧ (start silent).drv = .uninit ∧
    (let s := up .resetComplete ⟨[], [.err 1], []⟩
     granted s 1 ∧ s.slice = none ∧ s.drv ≠ .uninit ∧ (0x12 : Byte) = s.cfg.cmdRefresh ∧ s.drv.num < 3 ∧
       (0x71 : Byte) ≠ s.cfg.cmdRefresh ∧ s.xferAnswer = .err 1) ∧
    (let s := up .initApplied ⟨[], [.ok], []⟩
     s.slice = none ∧ s.drv ≠ .uninit ∧ 3 ≤ s.drv.num ∧ s.xferAnswer = .ok) := by unfold granted; decide

theorem witness_SendDataResult :
    granted (start silent) 1 ∧ (start silent).drv = .uninit ∧
    (up .busConfigured ⟨[], [.ok], []⟩).slice = none ∧ (up .busConfigured ⟨[], [.ok], []⟩).drv ≠ .uninit ∧
    (up .busConfigured ⟨[], [.ok], []⟩).xferAnswer = .ok ∧ (up .busConfigured ⟨[], [.err 0], []⟩).xferAnswer = .err 0 := by
  unfold granted; decide

theorem witness_SendBufResult :
    (up .ready ⟨[], [.err 3], []⟩).slice = none ∧ (up .ready ⟨[], [.err 3], []⟩).drv ≠ .uninit ∧
    ([0x11, 0x22, 0x33] : List Byte) ≠ [] ∧ (up .ready ⟨[], [.ok], []⟩).xferAnswer = .ok ∧
    (up .ready ⟨[], [.err 3], []⟩).xferAnswer = .err 3 := by decide

/-- The last poll the bound allows; every poll busy; a status command that fails after two busy polls. -/
theorem witness_WaitBusyResult :
    (let s := up .ready ⟨[], [.ok, .ok, .ok], [false, false, true]⟩
     s.slice = none ∧ s.drv ≠ .uninit ∧ withinLimit s 2 ∧ calm s (2 + 1) 2 [] []) ∧
    (let s := up .ready ⟨[], [.ok, .ok, .ok], [false, false, false]⟩
     s.pollLimit ≠ 0#32 ∧ s.env.xfers = List.replicate s.pollLimit.toNat .ok ++ [] ∧
       s.env.samples = List.replicate s.pollLimit.toNat s.cfg.busyActiveLevel ++ []) ∧
    (let s := up .ready ⟨[], [.ok, .ok, .err 0], [false, false]⟩
     withinLimit s 2 ∧ s.env.xfers = List.replicate 2 .ok ++ .err 0 :: [] ∧
       s.env.samples = List.replicate 2 s.cfg.busyActiveLevel ++ []) := by
  unfold withinLimit calm; decide

theorem witness_HardResetResult :
    (let s := up .ready ⟨[], [.ok], [true]⟩
     s.slice = none ∧ s.drv ≠ .uninit ∧ withinLimit s 0 ∧ calm s (0 + 1) 0 [] []) ∧
    (let s := up .busConfigured ⟨[], [.ok, .ok, .ok], [false, false, false]⟩
     s.slice = none ∧ s.drv ≠ .uninit ∧ s.pollLimit ≠ 0#32 ∧ s.env.xfers = List.replicate s.pollLimit.toNat .ok ++ [] ∧
       s.env.samples = List.replicate s.pollLimit.toNat s.cfg.busyActiveLevel ++ []) ∧
    (let s := up .initApplied ⟨[], [.ok, .ok, .err 1], [false, false]⟩
     s.slice = none ∧ s.drv ≠ .uninit ∧ withinLimit s 2 ∧ s.env.xfers = List.replicate 2 .ok ++ .err 1 :: [] ∧
       s.env.samples = List.replicate 2 s.cfg.busyActiveLevel ++ []) := by
  unfold withinLimit calm; decide

theorem witness_InitSetupFailure :
    granted { start silent with faults := 0x40 } 1 ∧ { start silent with faults := 0x40 }.faults.getLsbD 6 = true ∧
    (let s := start ⟨[.fail], [], []⟩
     s.slice = none ∧ s.faults.getLsbD 6 = false ∧ s.setupAnswer = .fail) := by unfold granted; decide

/-- Handshake 1, the first of the table, polls busy twice. -/
def busyTwice (j : Nat) : Nat := if j = 1 then 2 else 0

/-- EX's bring-up: 12 transfers and 4 handshakes, and two busy polls more. -/
def favourable : State := up .ready ⟨[.ok], List.replicate 14 .ok, [true, false, false, true, true, true]⟩

theorem witness_InitBringsThePanelUp :
    favourable.slice = none ∧ favourable.cfg.wf = true ∧ favourable.faults.getLsbD 6 = false ∧
    (∀ j, j < initHandshakes favourable.cfg → withinLimit favourable (busyTwice j)) ∧
    favourable.env = ⟨.ok :: [], List.replicate (piecesTransfers (initPieces favourable.cfg busyTwice)) .ok ++ [],
      piecesSamples favourable.cfg (initPieces favourable.cfg busyTwice) ++ []⟩ := by
  unfold withinLimit; decide

theorem witness_SetupLatchBlocksTheBus :
    granted { start silent with faults := 0x40 } 1 ∧ { start silent with faults := 0x40 }.faults.getLsbD 6 = true ∧ { start silent with faults := 0x40 }.drv = .uninit ∧
    ∃ t, exec .init { start silent with faults := 0x40 } = .next t := ⟨by unfold granted; decide, by decide, rfl, _, rfl⟩

theorem witness_UnboundedHandshakeKeepsPolling :
    let s := { up .ready ⟨[], [.ok, .ok, .ok], [false, false, false]⟩ with
      pollLimit := 0, opBusy := true, seq := .running [.poll 0, .delay .busySettle, .complete] }
    s.pollLimit = 0#32 ∧ s.seq = .running (.poll 0 :: [.delay .busySettle, .complete]) ∧
      s.env.xfers = List.replicate 3 .ok ++ [] ∧ s.env.samples = List.replicate 3 s.cfg.busyActiveLevel ++ [] := by decide

/-- A state in which the driver is about to become READY. -/
def moving : State := { up .initApplied silent with opBusy := true, seq := .running [.setDrv .ready, .complete] }

theorem witness_DriverStateMovesAlongTheTable : Inv moving ∧ moving.microStep.drv ≠ moving.drv := by
  refine ⟨⟨⟨Config.ex_wf, ?_, ?_, ?_, ?_, ?_, ?_, ?_, ?_, ?_, ?_⟩, ?_, ?_, ?_⟩, ?_⟩ <;> decide

/-- A refresh command about to move in INIT_APPLIED. -/
theorem witness_EveryByteRespectsTheDriverState :
    Inv { moving with seq := .running [.moveByte false 0x12, .complete] } := by
  refine ⟨⟨Config.ex_wf, ?_, ?_, ?_, ?_, ?_, ?_, ?_, ?_, ?_, ?_⟩, ?_, ?_, ?_⟩ <;> decide

theorem witness_ResetMeetsTheInvariant : Config.ex.wf = true := Config.ex_wf

theorem witness_StepKeepsTheInvariant : Inv inside := by
  refine ⟨⟨Config.ex_wf, ?_, ?_, ?_, ?_, ?_, ?_, ?_, ?_, ?_, ?_⟩, ?_, ?_, ?_⟩ <;> decide

theorem witness_EveryRequestCompletes : updating.slice = none ∧ updating.pollLimit ≠ 0#32 := by decide

theorem witness_CuttingARunDoesNotChangeIt :
    Inv inside ∧ inside.slice = none ∧ inside.pollLimit ≠ 0#32 := ⟨witness_StepKeepsTheInvariant, rfl, by decide⟩

theorem witness_FaultsAreStickyAndRecordEachError :
    Inv inside ∧ (∀ ts, inside.turns ≠ .blockReset :: ts) ∧ ∃ t, step inside = .next t :=
  ⟨witness_StepKeepsTheInvariant, nofun, _, rfl⟩

theorem witness_OnlyTheNamedRequestsWriteAnElement : ∃ t, exec (.fbPixel 3 3 1) painted = .next t := ⟨_, rfl⟩

theorem witness_SidebandWordsShowTheState : 4 ≤ 7 := by decide

theorem witness_FillMacroSetsItsRegionOnly :
    granted painted 2 ∧ Memory.wf painted.fb = true ∧ 3 < painted.fbW.toNat ∧ 3 < painted.fbH.toNat := by
  unfold granted; decide

/-- 8×8: every corner in bounds; and one that is not. -/
theorem witness_RectMacroDrawsItsTopAndBottomRows :
    (0 ≤ (1 : Int) ∧ (1 : Int) < dimsW 0x00080008 ∧ 0 ≤ (1 : Int) + 6 ∧ (1 : Int) + 6 < dimsW 0x00080008 ∧
      0 ≤ (1 : Int) + 2 ∧ (1 : Int) + 2 < dimsH 0x00080008) ∧ ¬ (5 : Int) + 3 < dimsW 0x00080008 := by decide

theorem witness_LineMacroDrawsOnePointAColumn :
    (0 ≤ (0 : Int) ∧ (0 : Int) < dimsW 0x00140014 ∧ (19 : Int) < dimsW 0x00140014 ∧ (5 : Int) < dimsH 0x00140014) ∧
      ¬ (20 : Int) < dimsW 0x00140014 := by decide

theorem witness_BitmapMacroSetsTheSetBits :
    ([0xFF] : List Byte).length < (9 + 7) / 8 * 1 ∧ (3 + 7) / 8 * 2 ≤ ([0xA0, 0x40] : List Byte).length ∧
    granted painted 2 ∧ Memory.wf painted.fb = true ∧ 3 < painted.fbW.toNat ∧ 3 < painted.fbH.toNat := by
  unfold granted; decide

/-- For each of the four requests, a state from which it completes with OK. -/
theorem witness_DelaysAddUpToTheLatencyBounds :
    (after .waitBusy (up .ready ⟨[], [.ok, .ok], [false, true]⟩) (fun t => (t.seq, t.lastResult)) = some (.idle, .ok)) ∧
    (after .hardReset (up .ready ⟨[], [.ok], [true]⟩) (fun t => (t.seq, t.lastResult)) = some (.idle, .ok)) ∧
    updating.attached = true ∧ (after .update updating (fun t => (t.seq, t.lastResult)) = some (.idle, .ok)) ∧
    (after .init favourable (fun t => (t.seq, t.lastResult)) = some (.idle, .ok)) := by decide

/-- A request, a legal header and an illegal one with payload. -/
theorem witness_EveryRequestCanBeSeenInExecution :
    { painted with slice := some 0 }.slice = some 0 ∧
    (let s := { painted with turns := [.sequencer 0], requests := [0x0000000300000106, 0x332211, 0x22] }
     s.seq = .idle ∧ s.turns = .sequencer 0 :: [] ∧ s.requests = 0x0000000300000106 :: ([0x332211] ++ [0x22]) ∧
       [(0x332211 : Beat)].length = payloadBeats 0x0000000300000106) := by decide

theorem witness_ResumingARequestEndsAsTheUncutOne :
    updating.pollLimit ≠ 0#32 ∧ ∃ t, exec .update { updating with slice := some 5 } = .next t := ⟨by decide, _, rfl⟩

/-- The split of EX's INIT before its first table command, before its table's handshake, and before its last one. -/
theorem witness_InitStopsAtThePieceThatFails :
    let ps := initPieces Config.ex busyTwice
    (∀ j, j < initHandshakes Config.ex → withinLimit favourable (busyTwice j)) ∧
    ps = ps.take 6 ++ .send false [0x04] :: ps.drop 7 ∧ ps = ps.take 7 ++ .shake 2 :: ps.drop 8 ∧
    ps = ps.take 18 ++ .shake 0 :: ps.drop 19 ∧
    (start ⟨[.ok], .ok :: .err 1 :: [], [true]⟩).env =
      ⟨.ok :: [], List.replicate (piecesTransfers (ps.take 6)) .ok ++ .err 1 :: [], piecesSamples Config.ex (ps.take 6) ++ []⟩ ∧
    (start ⟨[.ok], [.ok, .ok, .ok, .ok, .err 0], [true, false, false]⟩).env =
      ⟨.ok :: [], List.replicate (piecesTransfers (ps.take 7) + 2) .ok ++ .err 0 :: [],
        piecesSamples Config.ex (ps.take 7) ++ List.replicate 2 Config.ex.busyActiveLevel ++ []⟩ ∧
    (start ⟨[.ok], List.replicate 16 .ok, [true, false, false, true, true, false, false, false]⟩).env =
      ⟨.ok :: [], List.replicate (piecesTransfers (ps.take 18) + 3) .ok ++ [],
        piecesSamples Config.ex (ps.take 18) ++ List.replicate 3 Config.ex.busyActiveLevel ++ []⟩ := by
  unfold withinLimit; decide

end Sys2Proof.Tests
end

section
/-! PROOFS. Family 00_scope.md: the configurations with which the model starts, and those it refuses. -/

namespace Sys2Proof

/-- 43_panel_driver.md R219 (a), (b), (c) as a proposition. -/
theorem InitEntry.wf_iff (refresh : Byte) (e : InitEntry) :
    e.wf refresh = true ↔ e.count ≤ 16 ∧ e.data.length = e.count ∧ e.cmd ≠ refresh := by
  simp only [InitEntry.wf, Bool.and_eq_true, decide_eq_true_eq, and_assoc]

/-- A poll limit that is not the word 0 lies in the range of 00_scope.md R7 (g), whose upper end its width gives. -/
theorem pollLimit_ne_zero_iff (n : BitVec 32) : n ≠ 0 ↔ 1 ≤ n.toNat :=
  (BitVec.toNat_ne_iff_ne (y := 0)).symm.trans Nat.one_le_iff_ne_zero.symm

/-- 00_scope.md R7, with 43_panel_driver.md R219 for its (e), as a proposition. -/
theorem Config.wf_iff (c : Config) :
    c.wf = true ↔
      1 ≤ c.fbMaxW ∧ c.fbMaxW ≤ 65535 ∧ 1 ≤ c.fbMaxH ∧ c.fbMaxH ≤ 65535 ∧ 1 ≤ c.panelW ∧ c.panelW ≤ 65535 ∧
      1 ≤ c.panelH ∧ c.panelH ≤ 65535 ∧ c.cmdGetStatus ≠ c.cmdRefresh ∧
      (∀ e ∈ c.initTable, e.count ≤ 16 ∧ e.data.length = e.count ∧ e.cmd ≠ c.cmdRefresh) ∧
      1 ≤ c.defaultPollLimit.toNat := by
  simp only [Config.wf, Bool.and_eq_true, decide_eq_true_eq, List.all_eq_true, InitEntry.wf_iff,
    pollLimit_ne_zero_iff, and_assoc]

namespace Machine

theorem State.boot_of_wf {c : Config} (h : c.wf = true) : State.boot c = .next (State.resetWith c) :=
  if_pos h

theorem State.boot_of_not_wf {c : Config} (h : ¬ c.wf = true) : State.boot c = .refused .illegalConfiguration :=
  if_neg h

end Machine

/-- Settles O11: the check of `State.boot` is exactly the conditions of R7 and R219. -/
theorem illegalConfigurationsAreRefused : Obligations.IllegalConfigurationsAreRefused := by
  intro c
  rw [← Config.wf_iff]
  exact ⟨Machine.State.boot_of_wf, Machine.State.boot_of_not_wf⟩

end Sys2Proof
end

section
/-! PROOFS. Family 10_state.md: every request as the execution of one list of statements, the invariant through every step,
what a step answers, resumed runs, and which request writes which element. -/

namespace Sys2Proof.Machine

/-! ### A request is the execution of its statements -/

/-- The statements a request comes to in the state in which it is accepted; `exec_eq_execute` ties them to `exec`. -/
def requestOps (s : State) : Instr → List SeqOp
  | .nop            => [.complete]
  | .init           => if hasFault s.faults .setupError then [.raise .stateError] else initOps s.cfg
  | .hardReset      => if s.drv = .uninit then [.raise .stateError] else hardReset ++ [.complete]
  | .waitBusy       => if s.drv = .uninit then [.raise .stateError] else waitBusy ++ [.complete]
  | .sendCmd b      =>
    if s.drv = .uninit then [.raise .stateError]
    else if b = s.cfg.cmdRefresh ∧ s.drv.below .initApplied then [.raise .stateError]
    else sendCommand b ++ [.complete]
  | .sendData b     => if s.drv = .uninit then [.raise .stateError] else sendData b ++ [.complete]
  | .sendBuf bs     => if s.drv = .uninit then [.raise .stateError] else sendDataBuffer bs ++ [.complete]
  | .setPollLimit v => [.effect (.setPollLimit v), .complete]
  | .fbCreate w h   =>
    if s.fbValid then [.raise .stateError]
    else if w = 0 ∨ h = 0 ∨ s.cfg.fbMaxW < w.toNat ∨ s.cfg.fbMaxH < h.toNat then [.raise .allocError]
    else [.effect (.createFb w h), .complete]
  | .fbDestroy      =>
    if !s.fbValid then [.raise .stateError]
    else if s.attached then [.raise .stateError]
    else [.effect .destroyFb, .complete]
  | .fbClear c      => if !legalColor c then [.raise .illegalColor] else [.effect (.fillFb (colorCode c)), .complete]
  | .fbPixel x y c  =>
    if !legalColor c then [.raise .illegalColor]
    else if s.inBounds x y then [.effect (.writeCell (s.fbIdx x.toNat y.toNat) (colorCode c)), .complete]
    else [.complete]
  | .fbRead x y     =>
    if !s.inBounds x y then [.raise .boundsError]
    else [.effect (.readCell (s.fbIdx x.toNat y.toNat)), .completeRead]
  | .attach         => if !s.fbValid then [.raise .stateError] else [.effect (.setAttached true), .complete]
  | .detach         => [.effect (.setAttached false), .complete]
  | .update         =>
    if !s.attached then [.complete]
    else if s.drv.below .initApplied then [.raise .stateError]
    else updateOps s.cfg

/-- The state in which a request has been accepted and none of its statements performed (10_state.md R34). -/
def State.accept (ops : List SeqOp) (s : State) : State := { s with opBusy := true, seq := .running ops }

theorem State.execute_eq_run (ops : List SeqOp) (s : State) : s.execute ops = (s.accept ops).run := rfl

theorem exec_eq_execute (i : Instr) (s : State) : exec i s = .next (s.execute (requestOps s i)) := by
  cases i <;> rfl

/-! ### The statements of a request may be performed where it is accepted -/

/-- The code of a legal color byte is a legal code (10_state.md R37). -/
theorem legalCode_colorCode {c : Byte} (h : legalColor c = true) : legalCode (colorCode c) = true := by
  simp only [legalColor, Bool.or_eq_true, decide_eq_true_eq] at h
  obtain (rfl | rfl) | rfl := h <;> rfl

/-- A pixel in bounds is a cell of the framebuffer (20_memory.md R71). -/
theorem State.fbIdx_lt {x y : BitVec 16} {s : State} (h : s.inBounds x y = true) :
    s.fbIdx x.toNat y.toNat < s.fbCells := by
  simp only [State.inBounds, Bool.and_eq_true, decide_eq_true_eq] at h
  obtain ⟨hx, hy⟩ := h
  calc y.toNat * s.fbW.toNat + x.toNat < (y.toNat + 1) * s.fbW.toNat := by rw [Nat.succ_mul]; omega
    _ ≤ s.fbH.toNat * s.fbW.toNat := Nat.mul_le_mul_right _ hy
    _ = s.fbCells := Nat.mul_comm _ _

/-- One effect and its completion, where the effect may be performed. -/
theorem opsOk_effect {c : Config} {v : SeqView} {e : Effect} {op : SeqOp} (he : e.ok c v = true)
    (hc : op.completes = true) : opsOk c v [.effect e, op] = true := by
  simp [opsOk, he, hc]

/-- A check and what it decides between (60_exceptions.md R303). -/
theorem opsOk_ite {c : Config} {v : SeqView} {p : Prop} [Decidable p] {a b : List SeqOp}
    (ha : p → opsOk c v a = true) (hb : ¬ p → opsOk c v b = true) : opsOk c v (if p then a else b) = true := by
  split
  · exact ha ‹_›
  · exact hb ‹_›

/-- What BusGuard lets through (43_panel_driver.md R218) starts with the bus configured. -/
theorem opsOk_guarded {s : State} {ops : List SeqOp} (h : ArchInv s)
    (ho : s.drv ≠ .uninit → s.pinsConfigured = true → opsOk s.cfg s.view ops = true) :
    opsOk s.cfg s.view (if s.drv = .uninit then [.raise .stateError] else ops) = true :=
  opsOk_ite (fun _ => rfl) fun hu => ho hu (h.driven hu).1

theorem DrvState.le_num_of_not_below {d e : DrvState} (h : ¬ d.below e = true) : e.num ≤ d.num := by
  simpa [DrvState.below] using h

theorem opsOk_requestOps {s : State} (h : ArchInv s) (i : Instr) :
    opsOk s.cfg s.view (requestOps s i) = true := by
  cases i with
  | nop => rfl
  | setPollLimit v => rfl
  | detach => rfl
  | init => exact opsOk_ite (fun _ => rfl) fun _ => opsOk_initOps h.config _
  | hardReset => exact opsOk_guarded h fun hu hp => opsOk_hardReset hp hu rfl
  | waitBusy => exact opsOk_guarded h fun hu _ => opsOk_waitBusy hu rfl
  | sendData b => exact opsOk_guarded h fun hu hp => opsOk_transfer true [b] _ hp hu nofun rfl
  | sendBuf bs => exact opsOk_guarded h fun hu hp => opsOk_transfer true bs _ hp hu nofun rfl
  | sendCmd b =>
    refine opsOk_guarded h fun hu hp => opsOk_ite (fun _ => rfl) fun hr => ?_
    refine opsOk_transfer false [b] _ hp hu (fun _ => ?_) rfl
    by_cases hb : b = s.cfg.cmdRefresh
    · exact .inl (DrvState.le_num_of_not_below fun hd => hr ⟨hb, hd⟩)
    · exact .inr (by simpa using hb)
  | fbCreate w h =>
    refine opsOk_ite (fun _ => rfl) fun hv => opsOk_ite (fun _ => rfl) fun hd => opsOk_effect ?_ rfl
    have hw : w.toNat ≠ 0 := fun h0 => hd (.inl (BitVec.eq_of_toNat_eq h0))
    have hh : h.toNat ≠ 0 := fun h0 => hd (.inr (.inl (BitVec.eq_of_toNat_eq h0)))
    simp only [Effect.ok, State.view, hv, Bool.not_false, Bool.true_and, Bool.and_eq_true, decide_eq_true_eq]
    omega
  | fbDestroy =>
    exact opsOk_ite (fun _ => rfl) fun _ => opsOk_ite (fun _ => rfl) fun ha =>
      opsOk_effect (by simpa [Effect.ok, State.view] using ha) rfl
  | fbClear c =>
    exact opsOk_ite (fun _ => rfl) fun hc =>
      opsOk_effect (e := .fillFb _) (legalCode_colorCode (by simpa using hc)) rfl
  | fbPixel x y c =>
    refine opsOk_ite (fun _ => rfl) fun hc => opsOk_ite (fun hb => opsOk_effect ?_ rfl) fun _ => rfl
    have hk : legalCode (colorCode c) = true := legalCode_colorCode (by simpa using hc)
    simp [Effect.ok, State.view, State.fbIdx_lt hb, hk]
  | fbRead x y =>
    exact opsOk_ite (fun _ => rfl) fun hb =>
      opsOk_effect (e := .readCell _) (decide_eq_true (State.fbIdx_lt (by simpa using hb))) rfl
  | attach =>
    exact opsOk_ite (fun _ => rfl) fun hv => opsOk_effect (by simpa [Effect.ok, State.view] using hv) rfl
  | update =>
    refine opsOk_ite (fun _ => rfl) fun _ => opsOk_ite (fun _ => rfl) fun hd => ?_
    have hn : 3 ≤ s.drv.num := DrvState.le_num_of_not_below hd
    have hu : s.drv ≠ .uninit := fun h0 => by rw [h0] at hn; exact absurd hn (by decide)
    obtain ⟨hp, hr, -⟩ := h.driven hu
    exact opsOk_updateOps hp hn hr

/-- In UNINIT no request but INIT moves a byte (10_state.md R33). -/
theorem requestOps_quiet_of_uninit {s : State} (hu : s.drv = .uninit) {i : Instr} (hi : i ≠ .init) :
    (requestOps s i).all SeqOp.quiet = true := by
  have hb : DrvState.uninit.below .initApplied = true := rfl
  cases i with
  | init => exact absurd rfl hi
  | _ => simp only [requestOps, hu, hb, if_true]; (repeat' split) <;> rfl

/-- Under the setup latch no request moves a byte (60_exceptions.md R307). -/
theorem requestOps_quiet_of_latch {s : State} (h : ArchInv s) (hl : hasFault s.faults .setupError = true)
    (i : Instr) : (requestOps s i).all SeqOp.quiet = true := by
  by_cases hi : i = .init
  · subst hi; simp only [requestOps, hl, if_true]; rfl
  · exact requestOps_quiet_of_uninit (h.latch hl) hi

/-! ### The invariant where a step begins -/

theorem ArchInv.accept {s : State} {ops : List SeqOp} (h : ArchInv s) (ho : opsOk s.cfg s.view ops = true)
    (hl : hasFault s.faults .setupError = true → ops.all SeqOp.quiet = true) : Inv (s.accept ops) :=
  ArchInv.goto (s := { s with opBusy := true })
    ⟨h.config, h.dims, h.attachment, h.cells, h.reach, h.codes, h.readData, h.reserved, h.pins, h.driven, h.latch⟩
    ho hl rfl

theorem Inv.resetWith {c : Config} (h : c.wf = true) : Inv (State.resetWith c) where
  config := h
  dims := ⟨rfl, rfl⟩
  attachment := nofun
  cells := Memory.wf_nil
  reach := nofun
  codes := nofun
  readData := rfl
  reserved := BitVec.zero_and
  pins := ⟨⟨fun _ => rfl, fun _ => rfl⟩, ⟨fun _ => rfl, fun _ => rfl⟩⟩
  driven := fun hd => absurd rfl hd
  latch := fun _ => rfl
  busy := ⟨nofun, fun hs => absurd rfl hs⟩
  micro := rfl
  latchQuiet := fun _ => rfl

/-- A block reset leaves what the invariant speaks of as `State.resetWith` does (70_reset_and_hazards.md R340). -/
theorem Inv.blockReset {s : State} (h : s.cfg.wf = true) : Inv s.blockReset :=
  have hr := Inv.resetWith h
  ⟨⟨hr.config, hr.dims, hr.attachment, hr.cells, hr.reach, hr.codes, hr.readData, hr.reserved, hr.pins, hr.driven,
    hr.latch⟩, hr.busy, hr.micro, hr.latchQuiet⟩

/-- The invariant does not speak of the turns. -/
theorem Inv.takeTurn {s : State} (h : Inv s) : Inv s.takeTurn := by
  unfold State.takeTurn
  split <;>
  exact ⟨⟨h.config, h.dims, h.attachment, h.cells, h.reach, h.codes, h.readData, h.reserved, h.pins, h.driven,
    h.latch⟩, h.busy, h.micro, h.latchQuiet⟩

/-! ### What the request channel gives, and what the sequencer's move is -/

/-- From `s` to `t`, the request channel has given the sequencer beats: only OP_BUSY, the micro-state and the beats
left differ (60_exceptions.md R315). -/
def Accepts (s t : State) : Prop :=
  ∃ b q r, t = { s with opBusy := b, seq := q, requests := r }

theorem Accepts.arch {s t : State} (ht : Accepts s t) (h : ArchInv s) : ArchInv t := by
  obtain ⟨b, q, r, rfl⟩ := ht
  exact ⟨h.config, h.dims, h.attachment, h.cells, h.reach, h.codes, h.readData, h.reserved, h.pins, h.driven, h.latch⟩

/-- A payload that is not all there leaves the sequencer receiving it. -/
theorem State.collect_cases (h : Beat) (got : List Beat) (s : State) :
    (∃ all r, s.collect h got = .waiting { s with opBusy := true, seq := .receiving h all, requests := r } ∧
      all.length < payloadBeats h) ∨
    (∃ i t, s.collect h got = .request i t ∧ Accepts s t) ∨ ∃ t, s.collect h got = .illegal t ∧ Accepts s t := by
  unfold State.collect
  dsimp only
  split
  · exact .inl ⟨_, _, rfl, ‹_›⟩
  · split
    · exact .inr (.inl ⟨_, _, rfl, _, _, _, rfl⟩)
    · exact .inr (.inr ⟨_, rfl, _, _, _, rfl⟩)

/-- A payload being received meets the invariant. -/
theorem ArchInv.receiving {s : State} (hi : ArchInv s) {h : Beat} {all r : List Beat} (hl : all.length < payloadBeats h) :
    Inv { s with opBusy := true, seq := .receiving h all, requests := r } :=
  ⟨Accepts.arch ⟨_, _, _, rfl⟩ hi, ⟨nofun, fun _ => rfl⟩, decide_eq_true hl, fun _ => rfl⟩

/-- A payload being received goes on to be collected. -/
theorem State.fetch_receiving {s : State} {h : Beat} {got : List Beat} (hs : s.seq = .receiving h got) :
    s.fetch = s.collect h got := by
  simp [State.fetch, hs]

/-- What the request channel gives a sequencer that executes no request. -/
theorem Inv.fetch_cases {s : State} (hi : Inv s) (hs : s.seq.isRunning = false) :
    (∃ t, s.fetch = .waiting t ∧ Accepts s t ∧ Inv t) ∨ (∃ i t, s.fetch = .request i t ∧ Accepts s t) ∨
    ∃ t, s.fetch = .illegal t ∧ Accepts s t := by
  have collects : ∀ h got r, s.fetch = State.collect h got { s with requests := r } →
      (∃ t, s.fetch = .waiting t ∧ Accepts s t ∧ Inv t) ∨ (∃ i t, s.fetch = .request i t ∧ Accepts s t) ∨
      ∃ t, s.fetch = .illegal t ∧ Accepts s t := by
    intro h got r hf
    rw [hf]
    obtain ⟨all, r', hc, hl⟩ | ⟨i, t, hc, b, q, r', rfl⟩ | ⟨t, hc, b, q, r', rfl⟩ :=
      State.collect_cases h got { s with requests := r }
    · exact .inl ⟨_, hc, ⟨_, _, _, rfl⟩, hi.toArchInv.receiving hl⟩
    · exact .inr (.inl ⟨i, _, hc, _, _, _, rfl⟩)
    · exact .inr (.inr ⟨_, hc, _, _, _, rfl⟩)
  cases hq : s.seq with
  | running ops => rw [hq] at hs; exact absurd hs (by simp [Sequencer.isRunning])
  | receiving h got => exact collects h got s.requests (State.fetch_receiving hq)
  | idle =>
    cases hr : s.requests with
    | nil => exact .inl ⟨s, State.fetch_waiting hq hr, ⟨_, _, _, rfl⟩, hi⟩
    | cons h rest => exact collects h [] rest (State.fetch_header hq hr)

/-- The record of answers is the same in both states. -/
structure SameAnswers (s t : State) : Prop where
  responses  : t.responses = s.responses
  lastResult : t.lastResult = s.lastResult
  faults     : t.faults = s.faults

theorem SameAnswers.trans {s t u : State} (h : SameAnswers s t) (k : SameAnswers t u) : SameAnswers s u :=
  ⟨k.responses.trans h.responses, k.lastResult.trans h.lastResult, k.faults.trans h.faults⟩

/-- A request's end is the only answer since a state with the same record. -/
theorem SameAnswers.ends {s t u : State} {d : Byte} (h : SameAnswers s t) (he : Ends d t u) : Ends d s u :=
  ⟨he.idle, he.opBusy, h.responses ▸ he.responses, h.faults ▸ he.faults⟩

theorem GoesOn.sameAnswers {s t : State} (h : GoesOn s t) : SameAnswers s t :=
  ⟨h.responses, h.lastResult, h.faults⟩

theorem Accepts.sameAnswers {s t : State} (h : Accepts s t) : SameAnswers s t := by
  obtain ⟨b, q, r, rfl⟩ := h
  exact ⟨rfl, rfl, rfl⟩

/-- The sequencer's move takes what the request channel gives and then runs, or waits. -/
theorem Inv.advance_cases {s : State} (hi : Inv s) :
    ∃ u, Inv u ∧ SameAnswers s u ∧ (advance s = .next u ∨ advance s = .next u.run) := by
  have accepts : ∀ {t : State} {ops}, Accepts s t → opsOk t.cfg t.view ops = true →
      (hasFault t.faults .setupError = true → ops.all SeqOp.quiet = true) → advance s = .next (t.execute ops) →
      ∃ u, Inv u ∧ SameAnswers s u ∧ (advance s = .next u ∨ advance s = .next u.run) := by
    intro t ops ht ho hl ha
    exact ⟨t.accept ops, (ht.arch hi.toArchInv).accept ho hl, ht.sameAnswers.trans ⟨rfl, rfl, rfl⟩, .inr ha⟩
  cases hq : s.seq.isRunning with
  | true =>
    cases hs : s.seq with
    | running ops =>
      cases ops with
      | nil => have hm := hi.micro; rw [hs] at hm; exact absurd hm (by simp [Sequencer.ok, opsOk])
      | cons op rest => exact ⟨s, hi, ⟨rfl, rfl, rfl⟩, .inr (advance_running hs)⟩
    | _ => rw [hs] at hq; exact absurd hq (by simp [Sequencer.isRunning])
  | false =>
    have hadv := advance_fetch hq
    obtain ⟨t, hf, ht, hti⟩ | ⟨i, t, hf, ht⟩ | ⟨t, hf, ht⟩ := hi.fetch_cases hq <;> rw [hf] at hadv
    · exact ⟨t, hti, ht.sameAnswers, .inl hadv⟩
    · have hta := ht.arch hi.toArchInv
      exact accepts ht (opsOk_requestOps hta i) (fun hl => requestOps_quiet_of_latch hta hl i)
        (hadv.trans (exec_eq_execute i t))
    · exact accepts ht rfl (fun _ => rfl) hadv

/-- The sequencer's move from a state that meets the invariant answers a state that meets it. -/
theorem Inv.advance_next {s : State} (hi : Inv s) : ∃ t, advance s = .next t ∧ Inv t := by
  obtain ⟨u, hu, -, ha | ha⟩ := hi.advance_cases
  · exact ⟨u, ha, hu⟩
  · exact ⟨u.run, ha, hu.runFor _⟩

end Sys2Proof.Machine

namespace Sys2Proof

open Machine

/-- Settles O43: a block reset ends in the reset values, and the sequencer's move runs a request its checks let through. -/
theorem stepKeepsTheInvariant : Obligations.StepKeepsTheInvariant := by
  intro s hi
  obtain ⟨ts, -, hs⟩ | ⟨-, hs⟩ := step_cases s
  · exact ⟨_, hs, Inv.blockReset hi.config⟩
  · rw [hs]; exact hi.takeTurn.advance_next

/-- Settles O42: the reset values meet each clause. -/
theorem resetMeetsTheInvariant : Obligations.ResetMeetsTheInvariant :=
  ⟨fun _ h => Inv.resetWith h, Inv.resetWith Config.chip_wf⟩

end Sys2Proof

namespace Sys2Proof.Machine

/-! ### What a run answers -/

/-- The statement that is next may not raise OK. -/
theorem Inv.ne_raise_ok {s : State} {op : SeqOp} {rest : List SeqOp} (hi : Inv s)
    (hs : s.seq = .running (op :: rest)) : op ≠ .raise .ok := by
  rintro rfl
  have hm := hi.micro
  rw [hs] at hm
  exact absurd hm (by simp [Sequencer.ok, opsOk])

/-- A run answers nothing, or answers once and has ended. -/
theorem Inv.runFor_answers {s : State} (hi : Inv s) (n : Nat) :
    SameAnswers s (State.runFor n s) ∨ ∃ d, Ends d s (State.runFor n s) := by
  refine (State.runFor_induct (P := fun t => Inv t ∧ (SameAnswers s t ∨ ∃ d, Ends d s t)) ?_ n s
    ⟨hi, .inl ⟨rfl, rfl, rfl⟩⟩).2
  rintro t op rest ⟨ht, hst | ⟨d, hd⟩⟩ hs
  · refine ⟨ht.perform hs, ?_⟩
    obtain hg | he := State.perform_cases (ht.ne_raise_ok hs) rest t
    · exact .inl (hst.trans hg.sameAnswers)
    · exact .inr ⟨_, hst.ends he⟩
  · rw [hd.idle] at hs; exact absurd hs (by simp)

/-- The sequencer's move answers nothing, or answers once. -/
theorem Inv.advance_answers {s t : State} (hi : Inv s) (h : advance s = .next t) :
    SameAnswers s t ∨ ∃ d, Ends d s t := by
  obtain ⟨u, hu, hsu, ha | ha⟩ := hi.advance_cases <;> cases h.symm.trans ha
  · exact .inl hsu
  · exact (hu.runFor_answers (u.slice.getD u.work)).imp hsu.trans fun ⟨d, he⟩ => ⟨d, hsu.ends he⟩

/-! ### What a statement writes and which event it emits -/

/-- From `s` to `t`, no element has changed but OP_BUSY, LAST_RESULT, FAULTS and the micro-state, which every request
writes. -/
structure ElementsKept (s t : State) : Prop extends DriverFrame s t where
  drv            : t.drv = s.drv
  pb             : t.pb = s.pb
  pinsConfigured : t.pinsConfigured = s.pinsConfigured
  rstOut         : t.rstOut = s.rstOut
  dcOut          : t.dcOut = s.dcOut

/-- What `ElementsKept` speaks of beside `DriverFrame`. -/
def State.driverPart (s : State) : DrvState × List Byte × Bool × PinLevel × PinLevel :=
  (s.drv, s.pb, s.pinsConfigured, s.rstOut, s.dcOut)

theorem ElementsKept.of_frame {s t : State} (h : DriverFrame s t) (hd : t.driverPart = s.driverPart) :
    ElementsKept s t := by
  simp only [State.driverPart, Prod.mk.injEq] at hd
  obtain ⟨hdrv, hpb, hpins, hrst, hdc⟩ := hd
  exact ⟨h, hdrv, hpb, hpins, hrst, hdc⟩

/-- The element a statement writes beside those that every request writes; `perform_write` ties it to `perform`. -/
def State.write (op : SeqOp) (s : State) : State :=
  match op with
  | .setDrv d      => { s with drv := d }
  | .configurePins => s.configurePins
  | .driveRst v    => { s with rstOut := .ofLevel v }
  | .driveDc v     => { s with dcOut := .ofLevel v }
  | .packPlane p   => s.writePb (s.packPlane p)
  | .effect e      => s.apply e
  | .busSetup | .delay _ | .xfer _ _ | .moveByte _ _ | .xferFail | .poll _ | .sample _ | .sendPlane => s
  | .raise _ | .complete | .completeRead => s

theorem State.perform_write (op : SeqOp) (rest : List SeqOp) (s : State) :
    ElementsKept (s.write op) (s.perform op rest) := by
  cases op with
  | busSetup =>
    exact .of_frame (State.perform_frame rfl rest s) (by unfold State.perform; cases s.setupAnswer <;> rfl)
  | xfer dc bs =>
    exact .of_frame (State.perform_frame rfl rest s) (by unfold State.perform; dsimp only; split <;> rfl)
  | sample n =>
    refine .of_frame (State.perform_frame rfl rest s) ?_
    unfold State.perform State.afterSample
    dsimp only
    split
    · rfl
    · split <;> rfl
  | _ => exact .of_frame ⟨rfl, rfl, rfl, rfl, rfl, rfl, rfl, rfl, rfl, rfl, rfl, rfl, rfl⟩ rfl

/-- Only `DRV_STATE <- d` writes DRV_STATE. -/
theorem State.perform_drv {op : SeqOp} {rest : List SeqOp} {s : State} (h : (s.perform op rest).drv ≠ s.drv) :
    op = .setDrv (s.perform op rest).drv := by
  rw [(State.perform_write op rest s).drv] at h ⊢
  cases op with
  | setDrv d => rfl
  | effect e => exact absurd (State.apply_drv e s) h
  | _ => exact absurd rfl h

/-- The event a statement emits. -/
def SeqOp.event (s : State) : SeqOp → Option Event
  | .configurePins => some .cfg
  | .busSetup      => some (.setup s.setupAnswer)
  | .driveRst v    => some (.rst v)
  | .delay t       => some (.wait t)
  | .moveByte dc b => some (.byte dc b)
  | .xferFail      => some .xferErr
  | .sample _      => some (.sample s.sampleAnswer)
  | .setDrv _ | .driveDc _ | .xfer _ _ | .poll _ | .packPlane _ | .sendPlane | .effect _ => none
  | .raise _ | .complete | .completeRead => none

theorem State.perform_trace (op : SeqOp) (rest : List SeqOp) (s : State) :
    (s.perform op rest).trace = s.trace ++ (op.event s).toList := by
  cases op with
  | busSetup => cases h : s.setupAnswer <;> simp [State.perform, SeqOp.event, h]
  | xfer dc bs => simp only [State.perform, SeqOp.event]; split <;> simp
  | sample n =>
    simp only [State.perform, State.afterSample, SeqOp.event]
    split
    · simp
    · split <;> simp
  | _ => simp [State.perform, SeqOp.event, State.writePb]

/-- Only a byte that moves is a `Byte` event. -/
theorem SeqOp.eq_moveByte_of_event {s : State} {op : SeqOp} {dc : Level} {b : Byte}
    (h : op.event s = some (.byte dc b)) : op = .moveByte dc b := by
  cases op with
  | moveByte dc' b' => rw [SeqOp.event, Option.some.injEq, Event.byte.injEq] at h; rw [h.1, h.2]
  | _ => simp [SeqOp.event] at h

/-! ### One micro-step under the invariant -/

/-- A micro-step does nothing, or performs a statement. -/
theorem State.microStep_cases (s : State) :
    s.microStep = s ∨ ∃ op rest, s.seq = .running (op :: rest) ∧ s.microStep = s.perform op rest := by
  unfold State.microStep
  split
  · exact .inr ⟨_, _, ‹_›, rfl⟩
  · exact .inl rfl
  · exact .inl rfl
  · exact .inl rfl

/-- A statement that is neither quiet nor the failure of a transfer is performed where it may be. -/
theorem Inv.opOk_next {s : State} {op : SeqOp} {rest : List SeqOp} (hi : Inv s) (hs : s.seq = .running (op :: rest))
    (h1 : op ≠ .xferFail) (h2 : op.quiet = false) : opOk s.cfg s.view op = true := by
  have hm := hi.micro
  rw [hs] at hm
  exact (opsOk_uncons hm h1 h2).1

/-- The transitions of 10_state.md R32. -/
theorem drvMove_cases {a b : DrvState} (h : drvMove a b = true) (hne : b ≠ a) :
    b = .uninit ∨ (a = .uninit ∧ b = .busConfigured) ∨ (a ≠ .uninit ∧ b = .resetComplete) ∨
    (a = .resetComplete ∧ b = .initApplied) ∨ (a = .initApplied ∧ b = .ready) := by
  have hab : decide (a = b) = false := decide_eq_false hne.symm
  simp only [drvMove, hab, Bool.false_or] at h
  cases b <;> simp_all

theorem byteAllowed_iff (refresh : Byte) (drv : DrvState) (p : PinLevel) (dc : Level) (b : Byte) :
    byteAllowed refresh drv p dc b = true ↔
      drv ≠ .uninit ∧ p = .ofLevel dc ∧ (dc = false → b = refresh → 3 ≤ drv.num) := by
  have h3 : DrvState.initApplied.num = 3 := rfl
  cases dc <;> simp [byteAllowed, dcDataLevel, DrvState.below, h3, and_assoc, imp_iff_not_or]

end Sys2Proof.Machine

namespace Sys2Proof

open Machine

/-- Settles O46: the sequencer's move is at most one request's end. -/
theorem faultsAreStickyAndRecordEachError : Obligations.FaultsAreStickyAndRecordEachError := by
  intro s t hi hb hst
  obtain ⟨ts, hts, -⟩ | ⟨-, hs⟩ := step_cases s
  · exact absurd hts (hb ts)
  · obtain ⟨hr, hl, hf⟩ | ⟨d, he⟩ := hi.takeTurn.advance_answers (hs.symm.trans hst)
    · exact .inl ⟨by simpa using hr, by simpa using hl, by simpa using hf⟩
    · have hf := he.faults
      exact .inr ⟨t.lastResult, d, by simpa using he.responses, rfl, he.opBusy,
        fun h0 => by simpa [h0] using hf, fun h0 => by simpa [h0, setFault] using hf⟩

/-- Settles O40: only `DRV_STATE <- d` moves DRV_STATE, and under the invariant it may be performed. -/
theorem driverStateMovesAlongTheTable : Obligations.DriverStateMovesAlongTheTable := by
  intro s hi hne
  obtain h0 | ⟨op, rest, hs, hm⟩ := State.microStep_cases s
  · exact absurd (congrArg State.drv h0) hne
  · rw [hm] at hne ⊢
    have hop := State.perform_drv hne
    have ho := hi.opOk_next hs (by rw [hop]; simp) (by rw [hop]; rfl)
    rw [hop] at ho
    exact drvMove_cases (Bool.and_eq_true _ _ ▸ ho).1 hne

/-- Settles O41: a `Byte` event is the statement `moveByte`, and under the invariant it may be performed. -/
theorem everyByteRespectsTheDriverState : Obligations.EveryByteRespectsTheDriverState := by
  intro s hi
  obtain h0 | ⟨op, rest, hs, hm⟩ := State.microStep_cases s
  · exact ⟨[], by simp [h0], by simp, nofun⟩
  · refine ⟨(op.event s).toList, by rw [hm, State.perform_trace], by cases op.event s <;> simp, fun dc b hb => ?_⟩
    obtain rfl := SeqOp.eq_moveByte_of_event (Option.mem_toList.1 hb)
    exact (byteAllowed_iff ..).1 (hi.opOk_next hs nofun rfl)

end Sys2Proof

namespace Sys2Proof.Machine

/-! ### Settled states -/

theorem State.work_eq_zero_or_running (s : State) : s.work = 0 ∨ ∃ op rest, s.seq = .running (op :: rest) := by
  cases hs : s.seq with
  | running ops =>
    cases ops with
    | nil => exact .inl (State.work_running hs)
    | cons op rest => exact .inr ⟨op, rest, rfl⟩
  | _ => exact .inl (State.work_ended (by simp [hs, Sequencer.isRunning]))

/-- Without work left, a run does nothing. -/
theorem State.runFor_of_work {s : State} (h : s.work = 0) (n : Nat) : State.runFor n s = s := by
  induction n with
  | zero => rfl
  | succ n ih =>
    obtain h0 | ⟨op, rest, hs, -⟩ := State.microStep_cases s
    · rw [State.runFor_succ, h0, ih]
    · rw [State.work_running hs, List.map_cons, List.sum_cons] at h
      have := State.cost_pos s op
      omega

/-! ### A bounded run leaves less work with each micro-step -/

/-- Each handshake that is left has a bound, or nothing that is left is one. -/
def State.bounded (s : State) : Prop := s.pollLimit ≠ 0#32 ∨ s.seq.quiet = true

theorem SeqOp.quiet_of_isEffect {op : SeqOp} (h : op.isEffect = true) : op.quiet = true := by
  cases op with
  | effect _ => rfl
  | _ => exact absurd h Bool.false_ne_true

theorem State.perform_quiet {op : SeqOp} (hq : op.quiet = true) (rest : List SeqOp) (s : State) :
    (s.perform op rest).seq = .idle ∨ (s.perform op rest).seq = .running rest := by
  cases op with
  | effect _ => exact .inr rfl
  | raise _ | complete | completeRead => exact .inl rfl
  | _ => exact absurd hq Bool.false_ne_true

theorem State.cost_quiet {op : SeqOp} (hq : op.quiet = true) (s : State) : s.cost op = 1 := by
  cases op with
  | effect _ | raise _ | complete | completeRead => rfl
  | _ => exact absurd hq Bool.false_ne_true

/-- A quiet statement is one micro-step, whatever the state. -/
theorem State.work_quiet {s : State} {ops : List SeqOp} (hs : s.seq = .running ops)
    (hq : ops.all SeqOp.quiet = true) : s.work = ops.length := by
  have hc : ops.map s.cost = ops.map fun _ => 1 :=
    List.map_congr_left fun op ho => State.cost_quiet (List.all_eq_true.1 hq op ho) s
  simp [State.work_running hs, hc]

/-- What holds of a request whose effects, if it has one, come last: a micro-step leaves less work and keeps the
bound. An effect may lift the bound on polls, but no handshake comes after it. -/
theorem State.perform_bounded {s : State} {op : SeqOp} {rest : List SeqOp} (hs : s.seq = .running (op :: rest))
    (he : op.isEffect = true → rest.all SeqOp.quiet = true) (hb : s.bounded) :
    (s.perform op rest).bounded ∧ (s.perform op rest).work < s.work := by
  by_cases hq : (op :: rest).all SeqOp.quiet = true
  · have hw := State.work_quiet hs hq
    rw [List.all_cons, Bool.and_eq_true] at hq
    obtain ⟨hop, hrest⟩ := hq
    obtain h | h := State.perform_quiet hop rest s
    · exact ⟨.inr (by rw [h]; rfl), by rw [State.work_ended (by rw [h]; rfl), hw]; exact Nat.succ_pos _⟩
    · exact ⟨.inr (by rw [h]; exact hrest), by rw [State.work_quiet h hrest, hw]; exact Nat.lt_succ_self _⟩
  · have hl : s.pollLimit ≠ 0#32 := hb.resolve_right fun h => hq (by rw [hs] at h; exact h)
    have ho : op.isEffect = false := by
      rw [← Bool.not_eq_true]
      exact fun h => hq (by rw [List.all_cons, SeqOp.quiet_of_isEffect h, he h]; rfl)
    exact ⟨.inl (by rw [(State.perform_frame ho rest s).pollLimit]; exact hl), State.work_perform hs ho hl⟩

theorem State.perform_slice (op : SeqOp) (rest : List SeqOp) (s : State) : (s.perform op rest).slice = s.slice := by
  rw [(State.perform_write op rest s).slice]
  cases op with
  | effect e => exact State.apply_slice e s
  | _ => rfl

theorem State.runFor_slice (n : Nat) (s : State) : (State.runFor n s).slice = s.slice :=
  State.runFor_induct (P := fun t => t.slice = s.slice)
    (fun t op rest h _ => (State.perform_slice op rest t).trans h) n s rfl

section Resume

/-! `I` is what every micro-step of the request keeps; it says that an effect comes last. -/

variable {I : State → Prop} (keeps : ∀ s op rest, I s → s.seq = .running (op :: rest) → I (s.perform op rest))
  (last : ∀ s op rest, I s → s.seq = .running (op :: rest) → op.isEffect = true → rest.all SeqOp.quiet = true)
include keeps last

/-- As many micro-steps as there is work settle a bounded request. -/
theorem State.runFor_settles (n : Nat) {s : State} (hi : I s) (hb : s.bounded) (hn : s.work ≤ n) :
    (State.runFor n s).work = 0 := by
  induction n generalizing s with
  | zero => exact Nat.le_zero.1 hn
  | succ n ih =>
    obtain h0 | ⟨op, rest, hs⟩ := s.work_eq_zero_or_running
    · rw [State.runFor_of_work h0, h0]
    · obtain ⟨hb', hw⟩ := State.perform_bounded hs (last s op rest hi hs) hb
      rw [State.runFor_cons hs]
      exact ih (keeps s op rest hi hs) hb' (by omega)

/-- A bounded request that is cut after `k` micro-steps and goes on ends as the one that is not cut. -/
theorem State.run_runFor (k : Nat) {s : State} (hi : I s) (hb : s.bounded) (hs : s.slice = none) :
    (State.runFor k s).run = s.run := by
  obtain ⟨hi', hb'⟩ := State.runFor_induct (P := fun t => I t ∧ t.bounded)
    (fun t op rest h hq => ⟨keeps t op rest h.1 hq, (State.perform_bounded hq (last t op rest h.1 hq) h.2).1⟩)
    k s ⟨hi, hb⟩
  have hcut : (State.runFor k s).run = State.runFor (k + (State.runFor k s).work) s := by
    rw [State.run, State.runFor_slice, hs, State.runFor_add]; rfl
  have huncut : s.run = State.runFor s.work s := by rw [State.run, hs]; rfl
  have hcut0 := State.runFor_settles keeps last _ hi' hb' (Nat.le_refl _)
  rw [← State.runFor_add] at hcut0
  have huncut0 := State.runFor_settles keeps last _ hi hb (Nat.le_refl _)
  rw [hcut, huncut, ← State.runFor_of_work hcut0 s.work, ← State.runFor_add, Nat.add_comm, State.runFor_add,
    State.runFor_of_work huncut0]

end Resume

theorem SeqOp.quiet_of_completes {op : SeqOp} (h : op.completes = true) : op.quiet = true := by
  cases op with
  | complete | completeRead => rfl
  | _ => exact absurd h Bool.false_ne_true

/-- Of the statements that may be performed, an effect has its completion alone behind it. -/
theorem opsOk_effect_rest {c : Config} {v : SeqView} {e : Effect} {rest : List SeqOp}
    (h : opsOk c v (.effect e :: rest) = true) : ∃ op, rest = [op] ∧ op.completes = true := by
  match rest, h with
  | [], h => exact absurd h (by simp [opsOk, opOk])
  | [op], h => exact ⟨op, rfl, (Bool.and_eq_true _ _ ▸ h).2⟩
  | a :: b :: l, h => exact absurd h (by simp [opsOk, opOk])

theorem Inv.effect_last {s : State} {op : SeqOp} {rest : List SeqOp} (hi : Inv s)
    (hs : s.seq = .running (op :: rest)) (he : op.isEffect = true) : rest.all SeqOp.quiet = true := by
  have hm := hi.micro
  rw [hs] at hm
  cases op with
  | effect e =>
    obtain ⟨o, rfl, ho⟩ := opsOk_effect_rest hm
    simp [SeqOp.quiet_of_completes ho]
  | _ => exact absurd he Bool.false_ne_true

end Sys2Proof.Machine

namespace Sys2Proof

open Machine

/-- Settles O45: the invariant is kept by every micro-step and says that an effect comes last. -/
theorem cuttingARunDoesNotChangeIt : Obligations.CuttingARunDoesNotChangeIt := fun _ k hi hs hl =>
  State.run_runFor (I := Inv) (fun _ _ _ h hq => h.perform hq) (fun _ _ _ h hq => h.effect_last hq) k hi (.inl hl) hs

end Sys2Proof

namespace Sys2Proof.Machine

/-! ### Which statements a request may list -/

/-- The statement writes no element but DC_OUT and those every request writes, and a request of any kind may list it. -/
def SeqOp.plain : SeqOp → Bool
  | .setDrv _ | .configurePins | .driveRst _ | .packPlane _ | .effect _ => false
  | .busSetup | .driveDc _ | .delay _ | .xfer _ _ | .moveByte _ _ | .xferFail | .poll _ | .sample _ | .sendPlane => true
  | .raise _ | .complete | .completeRead => true

theorem plain_replayEntry (e : InitEntry) : (replayEntry e).all SeqOp.plain = true := by
  have hd : ((e.data.take e.count).flatMap sendData).all SeqOp.plain = true := by
    rw [List.all_flatMap, List.all_eq_true]
    exact fun _ _ => rfl
  unfold replayEntry
  rw [List.all_append, List.all_append, hd]
  split <;> rfl

section Procedures

/-! The procedures list plain statements and a few others: what holds of those holds of the procedure's statements. -/

variable {P : SeqOp → Prop} (plain : ∀ op, op.plain = true → P op)
include plain

theorem forall_of_plain {ops : List SeqOp} (h : ops.all SeqOp.plain = true) : ∀ op ∈ ops, P op :=
  fun op ho => plain op (List.all_eq_true.1 h op ho)

theorem forall_hardReset (drv : ∀ d, P (.setDrv d)) (rst : ∀ v, P (.driveRst v)) : ∀ op ∈ hardReset, P op := by
  have delay : ∀ t, P (.delay t) := fun t => plain _ rfl
  simp only [hardReset, List.forall_mem_append]
  exact ⟨⟨by simp [rst, delay], forall_of_plain plain rfl⟩, by simp [drv]⟩

theorem forall_replayInitTable (drv : ∀ d, P (.setDrv d)) (c : Config) : ∀ op ∈ replayInitTable c, P op := by
  simp only [replayInitTable, List.forall_mem_append]
  refine ⟨⟨forall_of_plain plain ?_, forall_of_plain plain rfl⟩, by simp [drv]⟩
  rw [List.all_flatMap, List.all_eq_true]
  exact fun e _ => plain_replayEntry e

theorem forall_clearPanelWhite (drv : ∀ d, P (.setDrv d)) (c : Config) : ∀ op ∈ clearPanelWhite c, P op := by
  unfold clearPanelWhite
  exact List.forall_mem_append.2 ⟨forall_of_plain plain rfl, by simp [drv]⟩

theorem forall_initOps (drv : ∀ d, P (.setDrv d)) (pins : P .configurePins) (rst : ∀ v, P (.driveRst v)) (c : Config) :
    ∀ op ∈ initOps c, P op := by
  have setup : P .busSetup := plain _ rfl
  have dc : P (.driveDc false) := plain _ rfl
  simp only [initOps, List.forall_mem_append]
  exact ⟨⟨⟨⟨⟨⟨by simp [drv, pins], by simp [bringUpBus, setup, dc, drv, rst]⟩, forall_hardReset plain drv rst⟩,
    forall_of_plain plain rfl⟩, forall_replayInitTable plain drv c⟩, forall_clearPanelWhite plain drv c⟩,
    forall_of_plain plain rfl⟩

theorem forall_updateOps (drv : ∀ d, P (.setDrv d)) (pack : ∀ p, P (.packPlane p)) (c : Config) :
    ∀ op ∈ updateOps c, P op := by
  have plane : ∀ p, ∀ op ∈ sendPackedPlane p, P op := fun p =>
    List.forall_mem_cons.2 ⟨pack p, forall_of_plain plain rfl⟩
  simp only [updateOps, List.forall_mem_append]
  exact ⟨⟨⟨⟨⟨⟨⟨forall_of_plain plain rfl, plane _⟩, forall_of_plain plain rfl⟩, plane _⟩, forall_of_plain plain rfl⟩,
    forall_of_plain plain rfl⟩, forall_of_plain plain rfl⟩,
    List.forall_mem_cons.2 ⟨drv _, forall_of_plain plain rfl⟩⟩

end Procedures

/-- The request is one the spec names for the effect. -/
def Effect.requestedBy (i : Instr) : Effect → Prop
  | .createFb w h   => i = .fbCreate w h
  | .destroyFb      => i = .fbDestroy
  | .fillFb _       => ∃ c, i = .fbClear c
  | .writeCell _ _  => ∃ x y c, i = .fbPixel x y c
  | .readCell _     => ∃ x y, i = .fbRead x y
  | .setAttached _  => i = .attach ∨ i = .detach
  | .setPollLimit v => i = .setPollLimit v

/-- The request is one the spec names for what the statement writes. -/
def SeqOp.requestedBy (i : Instr) : SeqOp → Prop
  | .effect e      => e.requestedBy i
  | .setDrv _      => i = .init ∨ i = .hardReset ∨ i = .update
  | .configurePins => i = .init
  | .driveRst _    => i = .init ∨ i = .hardReset
  | .packPlane _   => i = .update
  | .busSetup | .driveDc _ | .delay _ | .xfer _ _ | .moveByte _ _ | .xferFail | .poll _ | .sample _ | .sendPlane => True
  | .raise _ | .complete | .completeRead => True

theorem SeqOp.requestedBy_of_plain (i : Instr) (op : SeqOp) (h : op.plain = true) : op.requestedBy i := by
  cases op with
  | setDrv _ | configurePins | driveRst _ | packPlane _ | effect _ => exact absurd h Bool.false_ne_true
  | _ => trivial

/-- A check and what it decides between (60_exceptions.md R303). -/
theorem forall_mem_ite {P : SeqOp → Prop} {p : Prop} [Decidable p] {a b : List SeqOp} (ha : p → ∀ op ∈ a, P op)
    (hb : ¬ p → ∀ op ∈ b, P op) : ∀ op ∈ (if p then a else b), P op := by
  split
  · exact ha ‹_›
  · exact hb ‹_›

/-- A request lists the statements of its own procedure only. -/
theorem requestedBy_of_mem_requestOps (i : Instr) (s : State) : ∀ op ∈ requestOps s i, op.requestedBy i := by
  have plain := SeqOp.requestedBy_of_plain i
  have raises : ∀ e, ∀ op ∈ [SeqOp.raise e], op.requestedBy i := fun e => forall_of_plain plain rfl
  have completes : ∀ op ∈ [SeqOp.complete], op.requestedBy i := forall_of_plain plain rfl
  have effects : ∀ {e : Effect} {o : SeqOp}, e.requestedBy i → o.plain = true → ∀ op ∈ [.effect e, o], op.requestedBy i := by
    exact fun he ho => List.forall_mem_cons.2 ⟨he, List.forall_mem_singleton.2 (plain _ ho)⟩
  cases i with
  | nop => exact completes
  | setPollLimit v => exact effects rfl rfl
  | detach => exact effects (.inr rfl) rfl
  | init =>
    exact forall_mem_ite (fun _ => raises _) fun _ => forall_initOps plain (fun _ => .inl rfl) rfl (fun _ => .inl rfl) _
  | hardReset =>
    exact forall_mem_ite (fun _ => raises _) fun _ => List.forall_mem_append.2
      ⟨forall_hardReset plain (fun _ => .inr (.inl rfl)) (fun _ => .inr rfl), completes⟩
  | waitBusy =>
    exact forall_mem_ite (fun _ => raises _) fun _ => List.forall_mem_append.2 ⟨forall_of_plain plain rfl, completes⟩
  | sendCmd b =>
    exact forall_mem_ite (fun _ => raises _) fun _ => forall_mem_ite (fun _ => raises _) fun _ =>
      List.forall_mem_append.2 ⟨forall_of_plain plain rfl, completes⟩
  | sendData b =>
    exact forall_mem_ite (fun _ => raises _) fun _ => List.forall_mem_append.2
      ⟨forall_of_plain plain rfl, completes⟩
  | sendBuf bs =>
    exact forall_mem_ite (fun _ => raises _) fun _ => List.forall_mem_append.2
      ⟨forall_of_plain plain rfl, completes⟩
  | fbCreate w h =>
    exact forall_mem_ite (fun _ => raises _) fun _ => forall_mem_ite (fun _ => raises _) fun _ => effects rfl rfl
  | fbDestroy =>
    exact forall_mem_ite (fun _ => raises _) fun _ => forall_mem_ite (fun _ => raises _) fun _ => effects rfl rfl
  | fbClear c => exact forall_mem_ite (fun _ => raises _) fun _ => effects ⟨c, rfl⟩ rfl
  | fbPixel x y c =>
    exact forall_mem_ite (fun _ => raises _) fun _ =>
      forall_mem_ite (fun _ => effects ⟨x, y, c, rfl⟩ rfl) fun _ => completes
  | fbRead x y => exact forall_mem_ite (fun _ => raises _) fun _ => effects ⟨x, y, rfl⟩ rfl
  | attach => exact forall_mem_ite (fun _ => raises _) fun _ => effects (.inl rfl) rfl
  | update =>
    exact forall_mem_ite (fun _ => completes) fun _ => forall_mem_ite (fun _ => raises _) fun _ =>
      forall_updateOps plain (fun _ => .inr (.inr rfl)) (fun _ => rfl) _

/-! ### An element that a request changes is one its statements write -/

/-- A statement leaves those after it and plain ones. -/
theorem State.perform_left_plain {op : SeqOp} {rest ops : List SeqOp} {s : State}
    (h : (s.perform op rest).seq = .running ops) : ∀ o ∈ ops, o ∈ rest ∨ o.plain = true := by
  have same : (s.perform op rest).seq = .running rest → ∀ o ∈ ops, o ∈ rest ∨ o.plain = true := fun hs o ho => by
    rw [h] at hs; cases hs; exact .inl ho
  have ends : (s.perform op rest).seq = .idle → ∀ o ∈ ops, o ∈ rest ∨ o.plain = true := fun hs => by
    rw [h] at hs; exact absurd hs (by simp)
  have goes : ∀ new, new.all SeqOp.plain = true → (s.perform op rest).seq = .running (new ++ rest) →
      ∀ o ∈ ops, o ∈ rest ∨ o.plain = true := fun new hn hs o ho => by
    rw [h] at hs; cases hs
    exact (List.mem_append.1 ho).symm.imp id fun hm => List.all_eq_true.1 hn o hm
  have moves : ∀ dc (bs : List Byte), (bs.map (SeqOp.moveByte dc)).all SeqOp.plain = true := fun dc bs =>
    List.all_eq_true.2 fun o ho => by obtain ⟨b, -, rfl⟩ := List.mem_map.1 ho; rfl
  cases op with
  | busSetup =>
    cases ha : s.setupAnswer with
    | ok => exact same (by simp [State.perform, ha])
    | fail => exact ends (by simp [State.perform, ha])
  | xfer dc bs =>
    by_cases hb : bs.isEmpty
    · exact same (by simp [State.perform, hb])
    · cases ha : s.xferAnswer with
      | ok => exact goes _ (moves dc bs) (by simp [State.perform, hb, ha, transferOps])
      | err k =>
        have hs : (s.perform (.xfer dc bs) rest).seq = .running ((bs.take k).map (SeqOp.moveByte dc) ++ [.xferFail]) := by
          simp [State.perform, hb, ha, transferOps]
        rw [h] at hs; cases hs
        refine fun o ho => .inr ?_
        obtain hm | hm := List.mem_append.1 ho
        · exact List.all_eq_true.1 (moves dc _) o hm
        · rw [List.mem_singleton.1 hm]; rfl
  | sample n =>
    have hs : (s.perform (.sample n) rest).seq = .running rest ∨ (s.perform (.sample n) rest).seq = .idle ∨
        (s.perform (.sample n) rest).seq = .running ([.poll (n + 1)] ++ rest) := by
      unfold State.perform State.afterSample
      dsimp only
      split
      · exact .inl rfl
      · split
        · exact .inr (.inl rfl)
        · exact .inr (.inr rfl)
    exact hs.elim same fun hs => hs.elim ends (goes [.poll (n + 1)] rfl)
  | poll n => exact goes (sendCommand s.cfg.cmdGetStatus ++ [.delay .poll, .sample n]) rfl rfl
  | sendPlane => exact goes [.xfer dcDataLevel _] rfl rfl
  | xferFail => exact ends rfl
  | raise e => exact ends rfl
  | complete => exact ends rfl
  | completeRead => exact ends rfl
  | _ => exact same rfl

/-- Of all statements, only those in `w` write the element `f`. -/
structure WrittenBy {α : Type} (f : State → α) (w : SeqOp → Prop) : Prop where
  write    : ∀ s op, f (s.write op) ≠ f s → w op
  kept     : ∀ s t, ElementsKept s t → f t = f s
  notPlain : ∀ op, w op → op.plain = false
  accept   : ∀ ops s, f (s.accept ops) = f s

/-- A request that changed an element has a statement that writes it. -/
theorem WrittenBy.of_execute {α : Type} {f : State → α} {w : SeqOp → Prop} (h : WrittenBy f w) {ops : List SeqOp}
    {s : State} (hne : f (s.execute ops) ≠ f s) : ∃ op ∈ ops, w op := by
  by_contra hn
  push Not at hn
  refine hne (State.runFor_induct (P := fun t => f t = f s ∧ ∀ ops, t.seq = .running ops → ∀ op ∈ ops, ¬ w op)
    ?_ _ (s.accept ops) ⟨h.accept ops s, ?_⟩).1
  · rintro t op rest ⟨hf, hw⟩ hs
    obtain ⟨hop, hrest⟩ := List.forall_mem_cons.1 (hw _ hs)
    refine ⟨?_, fun ops' hq o ho => ?_⟩
    · rw [h.kept _ _ (State.perform_write op rest t), ← hf]
      by_contra hc
      exact hop (h.write t op hc)
    · obtain hm | hp := State.perform_left_plain hq o ho
      · exact hrest o hm
      · exact fun hwo => absurd (h.notPlain o hwo) (by simp [hp])
  · intro ops' hq
    cases hq
    exact hn

/-- A request that changed an element has a statement that writes it, and the spec names the request for it. -/
theorem WrittenBy.of_exec {α : Type} {f : State → α} {w : SeqOp → Prop} (h : WrittenBy f w) {i : Instr} {s t : State}
    (he : exec i s = .next t) (hne : f t ≠ f s) : ∃ op, w op ∧ op.requestedBy i := by
  rw [exec_eq_execute] at he
  cases he
  obtain ⟨op, ho, hw⟩ := h.of_execute hne
  exact ⟨op, hw, requestedBy_of_mem_requestOps i s op ho⟩

/-- An element of the framebuffer store or of the host's settings is written by effects alone. -/
theorem WrittenBy.of_effect {α : Type} {f : State → α} {w : Effect → Prop}
    (keeps : ∀ s t, DriverFrame s t → f t = f s) (apply : ∀ s e, f (s.apply e) ≠ f s → w e) :
    WrittenBy f fun op => ∃ e, op = .effect e ∧ w e where
  write s op hne := by
    cases op with
    | effect e => exact ⟨e, rfl, apply s e hne⟩
    | _ => exact (hne (keeps _ _ ⟨rfl, rfl, rfl, rfl, rfl, rfl, rfl, rfl, rfl, rfl, rfl, rfl, rfl⟩)).elim
  kept s t h := keeps s t h.toDriverFrame
  notPlain := by rintro _ ⟨e, rfl, -⟩; rfl
  accept _ _ := keeps _ _ ⟨rfl, rfl, rfl, rfl, rfl, rfl, rfl, rfl, rfl, rfl, rfl, rfl, rfl⟩

/-! The elements, each with the statements that write it. -/

theorem pollLimit_writtenBy :
    WrittenBy State.pollLimit fun op => ∃ e, op = .effect e ∧ ∃ v, e = .setPollLimit v :=
  .of_effect (fun _ _ h => h.pollLimit) fun s e hne => by
    cases e with
    | setPollLimit v => exact ⟨v, rfl⟩
    | _ => exact absurd rfl hne

theorem rdata_writtenBy : WrittenBy State.rdata fun op => ∃ e, op = .effect e ∧ ∃ k, e = .readCell k :=
  .of_effect (fun _ _ h => h.rdata) fun s e hne => by
    cases e with
    | readCell k => exact ⟨k, rfl⟩
    | _ => exact absurd rfl hne

theorem attached_writtenBy : WrittenBy State.attached fun op => ∃ e, op = .effect e ∧ ∃ b, e = .setAttached b :=
  .of_effect (fun _ _ h => h.attached) fun s e hne => by
    cases e with
    | setAttached b => exact ⟨b, rfl⟩
    | _ => exact absurd rfl hne

/-- FB_VALID, FB_W and FB_H. -/
def State.fbShape (s : State) : Bool × BitVec 16 × BitVec 16 := (s.fbValid, s.fbW, s.fbH)

theorem fbShape_writtenBy :
    WrittenBy State.fbShape fun op => ∃ e, op = .effect e ∧ ((∃ w h, e = .createFb w h) ∨ e = .destroyFb) :=
  .of_effect (fun _ _ h => by simp only [State.fbShape, h.fbValid, h.fbW, h.fbH]) fun s e hne => by
    cases e with
    | createFb w h => exact .inl ⟨w, h, rfl⟩
    | destroyFb => exact .inr rfl
    | _ => exact absurd rfl hne

theorem fb_writtenBy :
    WrittenBy State.fb fun op => ∃ e, op = .effect e ∧
      ((∃ w h, e = .createFb w h) ∨ e = .destroyFb ∨ (∃ c, e = .fillFb c) ∨ ∃ k c, e = .writeCell k c) :=
  .of_effect (fun _ _ h => h.fb) fun s e hne => by
    cases e with
    | createFb w h => exact .inl ⟨w, h, rfl⟩
    | destroyFb => exact .inr (.inl rfl)
    | fillFb c => exact .inr (.inr (.inl ⟨c, rfl⟩))
    | writeCell k c => exact .inr (.inr (.inr ⟨k, c, rfl⟩))
    | _ => exact absurd rfl hne

/-- What only the host and the configuration hold. -/
def State.given (s : State) : Config × List Beat × List Turn := (s.cfg, s.requests, s.turns)

theorem given_writtenBy : WrittenBy State.given fun op => ∃ e, op = .effect e ∧ False :=
  .of_effect (fun _ _ h => by simp only [State.given, h.cfg, h.requests, h.turns])
    fun s e hne => hne (by simp [State.given])

theorem drv_writtenBy : WrittenBy State.drv fun op => ∃ d, op = .setDrv d where
  write := by
    intro s op hne
    cases op with
    | setDrv d => exact ⟨d, rfl⟩
    | effect e => exact absurd (State.apply_drv e s) hne
    | _ => exact absurd rfl hne
  kept _ _ h := h.drv
  notPlain := by rintro _ ⟨d, rfl⟩; rfl
  accept _ _ := rfl

theorem pb_writtenBy : WrittenBy State.pb fun op => ∃ p, op = .packPlane p where
  write := by
    intro s op hne
    cases op with
    | packPlane p => exact ⟨p, rfl⟩
    | effect e => exact absurd (State.apply_pb e s) hne
    | _ => exact absurd rfl hne
  kept _ _ h := h.pb
  notPlain := by rintro _ ⟨p, rfl⟩; rfl
  accept _ _ := rfl

theorem pinsConfigured_writtenBy : WrittenBy State.pinsConfigured fun op => op = .configurePins where
  write := by
    intro s op hne
    cases op with
    | configurePins => rfl
    | effect e => exact absurd (State.apply_pinsConfigured e s) hne
    | _ => exact absurd rfl hne
  kept _ _ h := h.pinsConfigured
  notPlain := by rintro _ rfl; rfl
  accept _ _ := rfl

theorem rstOut_writtenBy : WrittenBy State.rstOut fun op => op = .configurePins ∨ ∃ v, op = .driveRst v where
  write := by
    intro s op hne
    cases op with
    | configurePins => exact .inl rfl
    | driveRst v => exact .inr ⟨v, rfl⟩
    | effect e => exact absurd (State.apply_rstOut e s) hne
    | _ => exact absurd rfl hne
  kept _ _ h := h.rstOut
  notPlain := by rintro _ (rfl | ⟨v, rfl⟩) <;> rfl
  accept _ _ := rfl

end Sys2Proof.Machine

namespace Sys2Proof

open Machine

/-- Settles O47: for each element, a statement that writes it stands in the requests the spec names only. -/
theorem onlyTheNamedRequestsWriteAnElement : Obligations.OnlyTheNamedRequestsWriteAnElement := by
  intro i s t he
  have hgiven : t.given = s.given := by
    by_contra hne
    obtain ⟨_, ⟨_, -, h⟩, -⟩ := given_writtenBy.of_exec he hne
    exact h
  simp only [State.given, Prod.mk.injEq] at hgiven
  refine ⟨fun hne => ?_, fun hne => ?_, fun hne => ?_, fun hne => ?_, fun hne => ?_, fun hne => ?_, fun hne => ?_,
    fun hne => ?_, fun hne => ?_, hgiven⟩
  · obtain ⟨_, ⟨_, rfl, v, rfl⟩, hi⟩ := pollLimit_writtenBy.of_exec he hne
    exact ⟨v, hi⟩
  · obtain ⟨_, ⟨_, rfl, _, rfl⟩, hi⟩ := rdata_writtenBy.of_exec he hne
    exact hi
  · obtain ⟨_, ⟨_, rfl, _, rfl⟩, hi⟩ := attached_writtenBy.of_exec he hne
    exact hi
  · have hshape : t.fbShape ≠ s.fbShape := fun h => by
      simp only [State.fbShape, Prod.mk.injEq] at h
      obtain ⟨hv, hw, hh⟩ := h
      exact hne.elim (fun n => n hv) fun n => n.elim (fun n => n hw) fun n => n hh
    obtain ⟨_, ⟨_, rfl, ⟨w, h, rfl⟩ | rfl⟩, hi⟩ := fbShape_writtenBy.of_exec he hshape
    · exact .inl ⟨w, h, hi⟩
    · exact .inr hi
  · obtain ⟨_, ⟨_, rfl, ⟨w, h, rfl⟩ | rfl | ⟨_, rfl⟩ | ⟨_, _, rfl⟩⟩, hi⟩ := fb_writtenBy.of_exec he hne
    · exact .inl ⟨w, h, hi⟩
    · exact .inr (.inl hi)
    · exact .inr (.inr (.inl hi))
    · exact .inr (.inr (.inr hi))
  · obtain ⟨_, ⟨_, rfl⟩, hi⟩ := drv_writtenBy.of_exec he hne
    exact hi
  · obtain ⟨_, ⟨_, rfl⟩, hi⟩ := pb_writtenBy.of_exec he hne
    exact hi
  · obtain ⟨_, rfl, hi⟩ := pinsConfigured_writtenBy.of_exec he hne
    exact hi
  · obtain ⟨_, rfl | ⟨_, rfl⟩, hi⟩ := rstOut_writtenBy.of_exec he hne
    · exact .inl hi
    · exact hi

end Sys2Proof

namespace Sys2Proof.Machine

/-! ### A request that is cut and goes on -/

theorem SeqOp.isEffect_of_plain (op : SeqOp) (h : op.plain = true) : op.isEffect = false := by
  cases op with
  | effect e => exact absurd h Bool.false_ne_true
  | _ => rfl

/-- Without an effect, effects come last. -/
theorem effectsLast_of_noEffect {ops : List SeqOp} (h : ∀ op ∈ ops, op.isEffect = false) : effectsLast ops = true := by
  have hl := effectsLast_append (new := ops) (rest := []) (List.all_eq_true.2 fun op ho => by simp [h op ho]) rfl
  rwa [List.append_nil] at hl

/-- The effects of a request come last. -/
theorem effectsLast_requestOps (s : State) (i : Instr) : effectsLast (requestOps s i) = true := by
  cases i with
  | init =>
    simp only [requestOps]
    split
    · rfl
    · exact effectsLast_of_noEffect (forall_initOps SeqOp.isEffect_of_plain (fun _ => rfl) rfl (fun _ => rfl) _)
  | _ => simp only [requestOps]; (repeat' split) <;> rfl

/-- The turn grants `g`. -/
def State.grant (g : Option Nat) (s : State) : State := { s with slice := g }

/-- A check does not look at the turn. -/
theorem requestOps_grant (g : Option Nat) (s : State) (i : Instr) :
    requestOps (s.grant g) i = requestOps s i := by
  cases i <;> rfl

theorem State.afterSample_grant (g : Option Nat) (n : BitVec 32) (v : Level) (rest : List SeqOp) (s : State) :
    (s.grant g).afterSample n v rest = (s.afterSample n v rest).grant g := by
  unfold State.afterSample
  rw [apply_ite (State.grant g), apply_ite (State.grant g)]
  rfl

theorem State.perform_grant (g : Option Nat) (op : SeqOp) (rest : List SeqOp) (s : State) :
    (s.grant g).perform op rest = (s.perform op rest).grant g := by
  cases op with
  | effect e => cases e <;> rfl
  | busSetup =>
    have ha : (s.grant g).setupAnswer = s.setupAnswer := rfl
    simp only [State.perform, ha]
    split <;> rfl
  | xfer dc bs => simp only [State.perform]; split <;> rfl
  | sample n => exact State.afterSample_grant g (n + 1) s.sampleAnswer rest (s.drawSample.emit (.sample s.sampleAnswer))
  | _ => rfl

theorem State.microStep_grant (g : Option Nat) (s : State) : (s.grant g).microStep = s.microStep.grant g := by
  unfold State.microStep
  simp only [show (s.grant g).seq = s.seq from rfl]
  split
  · exact State.perform_grant ..
  all_goals rfl

theorem State.runFor_grant (g : Option Nat) (n : Nat) (s : State) :
    State.runFor n (s.grant g) = (State.runFor n s).grant g := by
  induction n generalizing s with
  | zero => rfl
  | succ n ih => rw [State.runFor_succ, State.runFor_succ, State.microStep_grant, ih]

theorem SeqOp.quiet_of_effectsLast {op : SeqOp} {rest : List SeqOp} (h : effectsLast (op :: rest) = true)
    (he : op.isEffect = true) : rest.all SeqOp.quiet = true := by
  cases op with
  | effect e =>
    obtain ⟨o, rfl, ho⟩ := effectsLast_effect h
    simp [SeqOp.quiet_of_completes ho]
  | _ => exact absurd he Bool.false_ne_true

/-- What is left of the request has its effects last. -/
def State.effectsComeLast (s : State) : Prop := ∀ ops, s.seq = .running ops → effectsLast ops = true

/-- Accepted statements with their effects last, cut after `k` of their micro-steps, go on to the same end. -/
theorem State.run_runFor_accept (k : Nat) {ops : List SeqOp} {s : State} (ho : effectsLast ops = true)
    (hl : s.pollLimit ≠ 0#32) (hs : s.slice = none) :
    (State.runFor k (s.accept ops)).run = (s.accept ops).run :=
  State.run_runFor (I := State.effectsComeLast)
    (fun t _ _ h hq _ hq' => State.perform_effectsLast (h _ hq) hq')
    (fun _ _ _ h hq he => SeqOp.quiet_of_effectsLast (h _ hq) he)
    k (fun _ hq => by cases hq; exact ho) (.inl hl) hs

/-! ### A turn that grants nothing -/

theorem requestOps_eq_cons (s : State) (i : Instr) : ∃ op ops, requestOps s i = op :: ops := by
  cases i <;> simp only [requestOps] <;> (repeat' split) <;> exact ⟨_, _, rfl⟩

/-- In a turn that grants no micro-step a request is accepted and no more (20_memory.md R78). -/
theorem State.execute_of_slice_zero {s : State} (h : s.slice = some 0) (ops : List SeqOp) :
    s.execute ops = s.accept ops := by
  have hg : (s.accept ops).slice = some 0 := h
  rw [State.execute_eq_run, State.run, hg]
  rfl

/-! ### The fields of the sideband words -/

theorem DrvState.toNat_code (d : DrvState) : d.code.toNat = d.num := by cases d <;> rfl

theorem ResultCode.toNat_code (r : ResultCode) : r.code.toNat = r.num := by cases r <;> rfl

end Sys2Proof.Machine

namespace Sys2Proof

open Machine

/-- Settles O55: cutting and resuming is a matter of the grant alone, and no check of a request looks at it. -/
theorem resumingARequestEndsAsTheUncutOne : Obligations.ResumingARequestEndsAsTheUncutOne := by
  intro i s t k hl ht
  have exec_grant : ∀ g, exec i (s.grant g) = .next (((s.accept (requestOps s i)).grant g).run) := fun g => by
    rw [exec_eq_execute, requestOps_grant]; rfl
  have hcut : t = (State.runFor k (s.accept (requestOps s i))).grant (some k) := by
    rw [← State.runFor_grant]
    cases ht.symm.trans (exec_grant (some k))
    rfl
  have hresume := State.run_runFor_accept k (s := s.grant none) (effectsLast_requestOps s i) hl rfl
  calc exec i (s.grant none) = .next (((s.accept (requestOps s i)).grant none).run) := exec_grant none
    _ = .next ((State.runFor k ((s.accept (requestOps s i)).grant none)).run) := congrArg _ hresume.symm
    _ = .next ((t.grant none).run) := by rw [hcut, State.runFor_grant]; rfl

/-- Settles O54: acceptance writes OP_BUSY, the micro-state and the beats, and every request has a first statement. -/
theorem everyRequestCanBeSeenInExecution : Obligations.EveryRequestCanBeSeenInExecution := by
  have accepted : ∀ (i : Instr) (s : State), s.slice = some 0 → ∃ op ops, exec i s = .next (s.accept (op :: ops)) := by
    intro i s h
    obtain ⟨op, ops, ho⟩ := requestOps_eq_cons s i
    exact ⟨op, ops, by rw [exec_eq_execute, State.execute_of_slice_zero h, ho]⟩
  refine ⟨accepted, fun s h p rest ts hq ht hr hp => ?_⟩
  have hstep : step s = advance { s with turns := ts, slice := some 0 } := by
    simp [step, State.takeTurn, ht]
  have hfetch := State.fetch_header (s := { s with turns := ts, slice := some 0 }) hq hr
  rw [State.collect_complete (p := p) (rest := rest) rfl (by simpa using hp)] at hfetch
  rw [hstep, advance_fetch (by simp [hq, Sequencer.isRunning]), hfetch]
  cases decodeRequest h ([] ++ p) with
  | request i =>
    obtain ⟨op, ops, he⟩ := accepted i
      { s with turns := ts, slice := some 0, opBusy := true, seq := .idle, requests := rest } rfl
    exact ⟨op, ops, he⟩
  | rejected e => exact ⟨_, _, congrArg _ (State.execute_of_slice_zero rfl _)⟩

/-- Settles O10: the reset table, and no cell is reachable and no byte packed. -/
theorem resetStateHoldsTheResetValues : Obligations.ResetStateHoldsTheResetValues := by
  intro c
  exact ⟨rfl, rfl, rfl, rfl, rfl, rfl, rfl, rfl, rfl, rfl, rfl, rfl, rfl, rfl,
    fun i => if_neg (Nat.not_lt_zero i), fun k => rfl⟩

end Sys2Proof

namespace Sys2Proof.Machine

/-- STATUS, bit by bit (10_state.md R48). -/
theorem State.getLsbD_status (pin : Level) (s : State) (j : Nat) :
    (s.status pin).getLsbD j =
      if j < 3 then s.drv.code.getLsbD j
      else if j < 8 then [s.opBusy, s.attached, s.fbValid, pin, s.pinsConfigured].getD (j - 3) false
      else if j < 12 then s.lastResult.code.getLsbD (j - 8)
      else if j < 16 then false
      else (faultsRead s.faults).getLsbD (j - 16) := by
  simp only [State.status, BitVec.getLsbD_append, BitVec.getLsbD_ofBool]
  by_cases h : j < 16
  · interval_cases j <;> simp
  · iterate 12 rw [if_neg (by omega)]
    rfl

/-- A field of STATUS is what its bits are. -/
theorem State.extractLsb'_status {k n : Nat} {v : BitVec n} {pin : Level} {s : State}
    (h : ∀ j < n, (s.status pin).getLsbD (k + j) = v.getLsbD j) : (s.status pin).extractLsb' k n = v := by
  apply BitVec.eq_of_getLsbD_eq
  intro j hj
  rw [BitVec.getLsbD_extractLsb', h j hj, decide_eq_true hj, Bool.true_and]

theorem State.drv_status (pin : Level) (s : State) : (s.status pin).extractLsb' 0 3 = s.drv.code :=
  State.extractLsb'_status fun j hj => by rw [State.getLsbD_status, if_pos (by omega), Nat.zero_add]

theorem State.lastResult_status (pin : Level) (s : State) : (s.status pin).extractLsb' 8 4 = s.lastResult.code :=
  State.extractLsb'_status fun j hj => by
    rw [State.getLsbD_status, if_neg (by omega), if_neg (by omega), if_pos (by omega), Nat.add_sub_cancel_left]

theorem State.reserved_status (pin : Level) (s : State) : (s.status pin).extractLsb' 12 4 = 0 :=
  State.extractLsb'_status fun j hj => by
    rw [State.getLsbD_status, if_neg (by omega), if_neg (by omega), if_neg (by omega), if_pos (by omega)]
    exact BitVec.getLsbD_zero.symm

/-- "Bits 0 and 9..15 always read 0" (10_state.md R43). -/
theorem getLsbD_faultsRead (f : BitVec 16) {n : Nat} (h : n < 16) :
    (faultsRead f).getLsbD n = (decide (1 ≤ n ∧ n ≤ 8) && f.getLsbD n) := by
  rw [faultsRead, BitVec.getLsbD_and, Bool.and_comm]
  congr 1
  interval_cases n <;> rfl

end Sys2Proof.Machine

namespace Sys2Proof

open Machine

/-- Settles O48: STATUS by its bits, and the other words by their halves. -/
theorem sidebandWordsShowTheState : Obligations.SidebandWordsShowTheState := by
  intro s pin k
  have bit := State.getLsbD_status pin s
  refine ⟨?_, bit 3, bit 4, bit 5, bit 6, bit 7, ?_, State.reserved_status pin s, fun n hn => ?_, ?_, ?_, rfl, ?_, ?_, fun hk => ?_⟩
  · exact (congrArg BitVec.toNat (State.drv_status pin s)).trans (DrvState.toNat_code s.drv)
  · exact (congrArg BitVec.toNat (State.lastResult_status pin s)).trans (ResultCode.toNat_code s.lastResult)
  · refine (bit (16 + n)).trans ?_
    rw [if_neg (by omega), if_neg (by omega), if_neg (by omega), if_neg (by omega), Nat.add_sub_cancel_left,
      getLsbD_faultsRead s.faults hn]
  · exact BitVec.extractLsb'_append_eq_right
  · exact BitVec.extractLsb'_append_eq_left
  · apply BitVec.eq_of_getLsbD_eq
    intro j hj
    simp [State.sideband, hj, show j < 32 by omega]
  · apply BitVec.eq_of_getLsbD_eq
    intro j hj
    simp [State.sideband, show 8 ≤ 8 + j by omega]
  · match k, hk with
    | _ + 4, _ => rfl

end Sys2Proof

end

section
/-! PROOFS. Family 30_encoding.md: a header is its fields, the opcode table has at most one row for a header, the decoder and
the encoder undo each other, and a header without a row is answered with ILLEGAL_OP. -/

namespace Sys2Proof

/-! ### A header is its fields (30_encoding.md R101) -/

/-- A header whose reserved bits are zero is made of its fields. -/
theorem headerXY_of_fields {h : Beat} {op : BitVec 8} {b : Byte} {x y : BitVec 16} (hop : beatOp h = op)
    (hb : beatImm8 h = b) (hr : h.extractLsb' 16 16 = 0) (hx : beatX h = x) (hy : beatY h = y) :
    headerXY op b x y = h := by
  subst hop hb hx hy
  have hc : headerXY (beatOp h) (beatImm8 h) (beatX h) (beatY h) =
      h.extractLsb' 48 16 ++ h.extractLsb' 32 16 ++ h.extractLsb' 16 16 ++ h.extractLsb' 8 8 ++ h.extractLsb' 0 8 := by
    rw [hr]; rfl
  rw [hc]
  iterate 4 rw [BitVec.extractLsb'_append_extractLsb'_eq_extractLsb' (by rfl)]
  exact BitVec.extractLsb'_eq_self

/-- A header of format L or W is made of its opcode and its 32-bit value. -/
theorem headerVal_of_fields {h : Beat} {op : BitVec 8} (hop : beatOp h = op) (hr : h.extractLsb' 8 24 = 0) :
    headerVal op (beatVal32 h) = h := by
  subst hop
  have hc : headerVal (beatOp h) (beatVal32 h) =
      h.extractLsb' 32 32 ++ h.extractLsb' 8 24 ++ h.extractLsb' 0 8 := by
    rw [hr]; rfl
  rw [hc]
  iterate 2 rw [BitVec.extractLsb'_append_extractLsb'_eq_extractLsb' (by rfl)]
  exact BitVec.extractLsb'_eq_self

/-! ### What a mask compares (30_encoding.md R102) -/

theorem OpRow.accepts_iff {r : OpRow} {h : Beat} : r.accepts h = true ↔ h &&& r.format.mask = r.op.setWidth 64 :=
  decide_eq_true_iff

/-- A field that the mask compares in full is that field of the pattern. -/
theorem extractLsb'_of_masked {h m : Beat} {op : BitVec 8} {k n : Nat} (hm : h &&& m = op.setWidth 64)
    (hf : m.extractLsb' k n = BitVec.allOnes n) : h.extractLsb' k n = (op.setWidth 64).extractLsb' k n := by
  rw [← hm, BitVec.extractLsb'_and, hf, BitVec.and_allOnes]

/-- A field above the opcode that the mask compares in full is zero. -/
theorem extractLsb'_eq_zero_of_masked {h m : Beat} {op : BitVec 8} {k n : Nat} (hm : h &&& m = op.setWidth 64)
    (hk : 8 ≤ k) (hf : m.extractLsb' k n = BitVec.allOnes n) : h.extractLsb' k n = 0 := by
  rw [extractLsb'_of_masked hm hf]
  apply BitVec.eq_of_getLsbD_eq
  intro j hj
  simp [BitVec.getLsbD_of_ge op (k + j) (by omega)]

/-- Every format compares the opcode. -/
theorem beatOp_of_masked {h : Beat} {f : Format} {op : BitVec 8} (hm : h &&& f.mask = op.setWidth 64) : beatOp h = op :=
  calc beatOp h = (op.setWidth 64).extractLsb' 0 8 := extractLsb'_of_masked hm (by cases f <;> rfl)
    _ = op := by
      apply BitVec.eq_of_getLsbD_eq
      intro j hj
      simp [hj, show j < 64 by omega]

/-- The header with opcode `op` and those fields of `h` that the format uses. -/
def Format.header (op : BitVec 8) (h : Beat) : Format → Beat
  | .N => headerXY op 0 0 0
  | .B => headerXY op (beatImm8 h) 0 0
  | .L => headerVal op (beatVal32 h)
  | .W => headerVal op (beatVal32 h)
  | .D => headerXY op 0 (beatX h) (beatY h)
  | .P => headerXY op (beatImm8 h) (beatX h) (beatY h)
  | .R => headerXY op 0 (beatX h) (beatY h)

/-- A header that matches under its format's mask has no bit beside its opcode and the fields the format uses. -/
theorem Format.header_of_masked {h : Beat} {f : Format} {op : BitVec 8} (hm : h &&& f.mask = op.setWidth 64) :
    f.header op h = h := by
  have hop := beatOp_of_masked hm
  have zero : ∀ k n, 8 ≤ k → f.mask.extractLsb' k n = BitVec.allOnes n → h.extractLsb' k n = 0 :=
    fun _ _ => extractLsb'_eq_zero_of_masked hm
  cases f with
  | N =>
    exact headerXY_of_fields hop (zero 8 8 (by decide) rfl) (zero 16 16 (by decide) rfl) (zero 32 16 (by decide) rfl)
      (zero 48 16 (by decide) rfl)
  | B =>
    exact headerXY_of_fields hop rfl (zero 16 16 (by decide) rfl) (zero 32 16 (by decide) rfl)
      (zero 48 16 (by decide) rfl)
  | L => exact headerVal_of_fields hop (zero 8 24 (by decide) rfl)
  | W => exact headerVal_of_fields hop (zero 8 24 (by decide) rfl)
  | D => exact headerXY_of_fields hop (zero 8 8 (by decide) rfl) (zero 16 16 (by decide) rfl) rfl rfl
  | P => exact headerXY_of_fields hop rfl (zero 16 16 (by decide) rfl) rfl rfl
  | R => exact headerXY_of_fields hop (zero 8 8 (by decide) rfl) (zero 16 16 (by decide) rfl) rfl rfl

/-! ### The rows of the opcode table (30_encoding.md R103) -/

/-- An opcode names one row. -/
theorem opTable_eq_of_op {r r' : OpRow} (hr : r ∈ opTable) (hr' : r' ∈ opTable) (h : r.op = r'.op) : r = r' :=
  List.inj_on_of_nodup_map (f := OpRow.op) (by decide) hr hr' h

/-- A mnemonic names one row. -/
theorem opTable_eq_of_mnemonic {r r' : OpRow} (hr : r ∈ opTable) (hr' : r' ∈ opTable) (h : r.mnemonic = r'.mnemonic) :
    r = r' :=
  List.inj_on_of_nodup_map (f := OpRow.mnemonic) (by decide) hr hr' h

/-- At most one row accepts a header. -/
theorem opTable_eq_of_accepts {r r' : OpRow} {h : Beat} (hr : r ∈ opTable) (hr' : r' ∈ opTable)
    (ha : r.accepts h = true) (ha' : r'.accepts h = true) : r = r' :=
  opTable_eq_of_op hr hr' <|
    (beatOp_of_masked (OpRow.accepts_iff.1 ha)).symm.trans (beatOp_of_masked (OpRow.accepts_iff.1 ha'))

theorem opTable_find?_op {r : OpRow} (hr : r ∈ opTable) : opTable.find? (fun r' => r'.op == r.op) = some r := by
  cases hf : opTable.find? (fun r' => r'.op == r.op) with
  | none => exact absurd (beq_self_eq_true r.op) (List.find?_eq_none.1 hf r hr)
  | some r' =>
    have hop : (r'.op == r.op) = true := List.find?_some (p := fun r' : OpRow => r'.op == r.op) hf
    rw [opTable_eq_of_op (List.mem_of_find?_eq_some hf) hr (eq_of_beq hop)]

/-! ### The decoder finds the row that accepts the header (30_encoding.md R106) -/

/-- A header that a row accepts decodes to that row's request. -/
theorem decodeRequest_of_mem {r : OpRow} (hr : r ∈ opTable) {h : Beat} (ha : r.accepts h = true) (p : List Beat) :
    decodeRequest h p = .request (r.build h p) :=
  decodeRequest_of_accepts (by rw [beatOp_of_masked (OpRow.accepts_iff.1 ha)]; exact opTable_find?_op hr) ha

/-- A request comes from a row that accepts the header. -/
theorem exists_row_of_decodeRequest {h : Beat} {p : List Beat} {i : Instr} (hd : decodeRequest h p = .request i) :
    ∃ r ∈ opTable, r.accepts h = true ∧ r.build h p = i := by
  unfold decodeRequest at hd
  split at hd
  · cases hd
  · rename_i r hf
    split at hd
    · exact ⟨r, List.mem_of_find?_eq_some hf, ‹_›, Decoded.request.inj hd⟩
    · cases hd

/-- A header that no row accepts is rejected. -/
theorem decodeRequest_rejected {h : Beat} (hn : ∀ r ∈ opTable, h &&& r.format.mask ≠ r.op.setWidth 64)
    (p : List Beat) : ∃ e, decodeRequest h p = .rejected e := by
  cases hd : decodeRequest h p with
  | rejected e => exact ⟨e, rfl⟩
  | request i =>
    obtain ⟨r, hr, ha, -⟩ := exists_row_of_decodeRequest hd
    exact absurd (OpRow.accepts_iff.1 ha) (hn r hr)

/-- Settles O4: a header either has a row, whose opcode is its own, or has none. -/
theorem headerMatchesOneRowOrNone : Obligations.HeaderMatchesOneRowOrNone := by
  intro h p
  by_cases he : ∃ r ∈ opTable, h &&& r.format.mask = r.op.setWidth 64
  · obtain ⟨r, hr, hm⟩ := he
    refine .inl ⟨r, hr, hm, fun r' hr' hm' => ?_, decodeRequest_of_mem hr (OpRow.accepts_iff.2 hm) p⟩
    obtain rfl := opTable_eq_of_accepts hr' hr (OpRow.accepts_iff.2 hm') (OpRow.accepts_iff.2 hm)
    exact ⟨rfl, rfl⟩
  · have hn : ∀ r ∈ opTable, h &&& r.format.mask ≠ r.op.setWidth 64 := fun r hr hm => he ⟨r, hr, hm⟩
    exact .inr ⟨hn, decodeRequest_rejected hn p⟩

/-! ### The header of a row's request -/

@[simp] theorem length_payloadBytes (n : Nat) (p : List Beat) : (payloadBytes n p).length = n := by
  simp [payloadBytes]

/-- The encoder gives a row's request the row's opcode and the fields its format uses. -/
theorem encodeHeader_build {r : OpRow} (hr : r ∈ opTable) (h : Beat) (p : List Beat) :
    encodeHeader (r.build h p) = r.format.header r.op h := by
  have sendBuf : encodeHeader (.sendBuf (payloadBytes (beatVal32 h).toNat p)) = headerVal 0x06 (beatVal32 h) := by
    simp [encodeHeader]
  revert r
  simp only [opTable, List.forall_mem_cons]
  exact ⟨rfl, rfl, rfl, rfl, rfl, rfl, sendBuf, rfl, rfl, rfl, rfl, rfl, rfl, rfl, rfl, rfl, nofun⟩

/-- Settles O3: the row that accepts the header compares every bit its request does not hold. -/
theorem encodeUndoesDecode : Obligations.EncodeUndoesDecode := by
  intro h p i hd
  obtain ⟨r, hr, ha, rfl⟩ := exists_row_of_decodeRequest hd
  rw [encodeHeader_build hr, Format.header_of_masked (OpRow.accepts_iff.1 ha)]

/-! ### Payload bytes and beats (20_memory.md R75) -/

/-- Lane `r` of payload beat `j` holds byte `8j + r`. -/
theorem extractLsb'_payloadBeat (bs : List Byte) (j : Nat) {r : Nat} (hr : r < 8) :
    (payloadBeat bs j).extractLsb' (8 * r) 8 = bs.getD (8 * j + r) 0 := by
  unfold payloadBeat
  change BitVec.extractLsb' (n := 8 + 8 + 8 + 8 + 8 + 8 + 8 + 8) _ _ _ = _
  interval_cases r <;>
    simp (disch := decide) only [BitVec.extractLsb'_append_eq_of_le, BitVec.extractLsb'_append_eq_of_add_le,
      Nat.reduceMul, Nat.reduceSub, Nat.add_zero, BitVec.extractLsb'_eq_self]

theorem payloadByte_encodePayload {bs : List Byte} {m : Nat} (hm : m < bs.length) :
    payloadByte (encodePayload bs) m = bs[m] := by
  have hb : m / 8 < ceil8 bs.length := by unfold ceil8; omega
  have hbeat : (encodePayload bs).getD (m / 8) 0 = payloadBeat bs (m / 8) := by
    simp [encodePayload, hb]
  rw [payloadByte, hbeat, extractLsb'_payloadBeat bs _ (Nat.mod_lt m (by decide)), Nat.div_add_mod,
    List.getD_eq_getElem _ _ hm]

/-- The payload beats of a byte list hold the bytes, and no byte is lost in an unused lane. -/
@[simp] theorem payloadBytes_encodePayload (bs : List Byte) : payloadBytes bs.length (encodePayload bs) = bs := by
  refine List.ext_getElem (length_payloadBytes _ _) fun m _ hm => ?_
  simp [payloadBytes, payloadByte_encodePayload hm]

@[simp] theorem length_encodePayload (bs : List Byte) : (encodePayload bs).length = ceil8 bs.length := by
  simp [encodePayload]

/-- LEN32 holds the length of a well-formed payload. -/
theorem toNat_ofNat_length_of_wellFormed {bs : List Byte} (hw : (Instr.sendBuf bs).wellFormed = true) :
    (BitVec.ofNat 32 bs.length).toNat = bs.length :=
  Nat.mod_eq_of_lt (of_decide_eq_true hw)

/-- The header announces as many payload beats as the encoder lays out (30_encoding.md R105). -/
theorem payloadBeats_encodeHeader {i : Instr} (hw : i.wellFormed = true) :
    payloadBeats (encodeHeader i) = (encodePayload (instrPayload i)).length := by
  cases i with
  | sendBuf bs => simp [payloadBeats, encodeHeader, instrPayload, toNat_ofNat_length_of_wellFormed hw]
  | _ => simp [payloadBeats, encodeHeader, instrPayload, ceil8]

/-! ### The row of a request (30_encoding.md R103, R104) -/

open Laws.EncodedHeaderMatchesRow in
/-- The law of `Laws/PerInstr.lean` for every request. -/
theorem exists_row_accepts_encodeHeader (i : Instr) : Statement i :=
  match i with
  | .nop            => nop
  | .init           => init
  | .hardReset      => hardReset
  | .waitBusy       => waitBusy
  | .sendCmd b      => sendCmd b
  | .sendData b     => sendData b
  | .sendBuf bs     => sendBuf bs
  | .setPollLimit v => setPollLimit v
  | .fbCreate w h   => fbCreate w h
  | .fbDestroy      => fbDestroy
  | .fbClear c      => fbClear c
  | .fbPixel x y c  => fbPixel x y c
  | .fbRead x y     => fbRead x y
  | .attach         => attach
  | .detach         => detach
  | .update         => update

/-- The row of a request's mnemonic reads its operands back from its beats. -/
theorem build_encode {r : OpRow} (hr : r ∈ opTable) {i : Instr} (hm : r.mnemonic = i.mnemonic)
    (hw : i.wellFormed = true) : r.build (encodeHeader i) (encodePayload (instrPayload i)) = i := by
  have row : ∀ k : Fin 16, opTable[k].mnemonic = i.mnemonic → r = opTable[k] :=
    fun k hk => opTable_eq_of_mnemonic hr (List.getElem_mem _) (hm.trans hk.symm)
  cases i with
  | nop            => rw [row 0 rfl]; rfl
  | init           => rw [row 1 rfl]; rfl
  | hardReset      => rw [row 2 rfl]; rfl
  | waitBusy       => rw [row 3 rfl]; rfl
  | sendCmd b      => rw [row 4 rfl]; simp [opTable, encodeHeader]
  | sendData b     => rw [row 5 rfl]; simp [opTable, encodeHeader]
  | sendBuf bs     =>
    rw [row 6 rfl]; simp [opTable, encodeHeader, instrPayload, toNat_ofNat_length_of_wellFormed hw]
  | setPollLimit v => rw [row 7 rfl]; simp [opTable, encodeHeader]
  | fbCreate w h   => rw [row 8 rfl]; simp [opTable, encodeHeader]
  | fbDestroy      => rw [row 9 rfl]; rfl
  | fbClear c      => rw [row 10 rfl]; simp [opTable, encodeHeader]
  | fbPixel x y c  => rw [row 11 rfl]; simp [opTable, encodeHeader]
  | fbRead x y     => rw [row 12 rfl]; simp [opTable, encodeHeader]
  | attach         => rw [row 13 rfl]; rfl
  | detach         => rw [row 14 rfl]; rfl
  | update         => rw [row 15 rfl]; rfl

theorem decodeRequest_encode {i : Instr} (hw : i.wellFormed = true) :
    decodeRequest (encodeHeader i) (encodePayload (instrPayload i)) = .request i := by
  obtain ⟨r, hr, hm, ha⟩ := exists_row_accepts_encodeHeader i hw
  rw [decodeRequest_of_mem hr ha, build_encode hr hm hw]

/-- A header with its payload beats is decoded, and the beats after them are left (30_encoding.md R105). -/
theorem decodeBeats_append {h : Beat} {p : List Beat} (hp : payloadBeats h = p.length) (rest : List Beat) :
    decodeBeats (h :: (p ++ rest)) = (decodeRequest h p, rest) := by
  simp [decodeBeats, hp]

/-- Settles O2: the header announces its payload beats, and the row of the request reads every operand back. -/
theorem decodeUndoesEncode : Obligations.DecodeUndoesEncode := by
  intro i rest hw
  rw [encode, List.cons_append, decodeBeats_append (payloadBeats_encodeHeader hw), decodeRequest_encode hw]

/-- Settles O1: the words of the table. -/
theorem specExampleWordsDecode : Obligations.SpecExampleWordsDecode := by
  unfold Obligations.SpecExampleWordsDecode
  decide

end Sys2Proof

namespace Sys2Proof.Machine

open Claims

/-- A header that no row accepts is answered where it stands, and the beats after its payload are left. -/
theorem advance_illegal {s : State} {h : Beat} {p rest : List Beat} (hg : 1 ≤ s.slice.getD 1) (hs : s.seq = .idle)
    (hr : s.requests = h :: (p ++ rest)) (hp : p.length = payloadBeats h)
    (hn : ∀ r ∈ opTable, h &&& r.format.mask ≠ r.op.setWidth 64) :
    advance s = .next (failed { s with requests := rest } .illegalOp) := by
  obtain ⟨e, he⟩ := decodeRequest_rejected hn p
  have hfetch : s.fetch = .illegal { s with opBusy := true, seq := .idle, requests := rest } := by
    rw [State.fetch_header hs hr, State.collect_complete (p := p) (rest := rest) rfl (by simpa using hp),
      List.nil_append, he]
  have hanswer := State.execute_raise (s := { s with opBusy := true, seq := .idle, requests := rest }) hg .illegalOp
  rw [advance_fetch (by rw [hs]; rfl), hfetch]
  exact congrArg Host.Outcome.next hanswer

end Sys2Proof.Machine

namespace Sys2Proof

open Machine

/-- Settles O6: an illegal header's one statement is `raise ILLEGAL_OP`, which either turn grants. -/
theorem illegalHeaderIsAnsweredAndItsPayloadConsumed : Obligations.IllegalHeaderIsAnsweredAndItsPayloadConsumed := by
  intro s h p rest hs hr hp hn
  constructor
  · intro ht
    have hstep : step s = advance { s with slice := none } := by simp [step, State.takeTurn, ht]
    exact hstep.trans (advance_illegal (s := { s with slice := none }) le_rfl hs hr hp hn)
  · intro k ts ht
    have hstep : step s = advance { s with turns := ts, slice := some (k + 1) } := by simp [step, State.takeTurn, ht]
    exact hstep.trans
      (advance_illegal (s := { s with turns := ts, slice := some (k + 1) }) (Nat.le_add_left 1 k) hs hr hp hn)

end Sys2Proof

end

section
/-! PROOFS. Family 41_framebuffer.md: the store's fill as a loop, the cells of a state after each effect, a request that moves no
byte as its one answer, and what each framebuffer request answers and leaves unchanged. -/

namespace Sys2Proof.Machine

/-! ### The fill is the loop of single-cell writes (41_framebuffer.md R141, R143) -/

/-- A fill leaves the cells from `n` on alone. -/
theorem Memory.read_fill_high {m : Memory} (h : Memory.wf m = true) {n i : Nat} (v : BitVec 2) (hi : n ≤ i) :
    Memory.read (Memory.fill m n v) i = Memory.read m i := by
  by_cases hl : ∃ e ∈ m, e.1 = i
  · obtain ⟨e, he, rfl⟩ := hl
    rw [Memory.read_of_mem h he, Memory.read_of_mem (Memory.fill_wf h n v) (Memory.mem_fill.2 (.inr ⟨he, hi⟩))]
  · have hm : ∀ e ∈ m, e.1 ≠ i := fun e he hei => hl ⟨e, he, hei⟩
    rw [Memory.read_of_not_mem hm, Memory.read_of_not_mem]
    intro e he
    obtain ⟨-, hlt, -⟩ | ⟨hem, -⟩ := Memory.mem_fill.1 he
    · exact (Nat.lt_of_lt_of_le hlt hi).ne
    · exact hm e hem

/-- Filling one cell more is one more write. -/
theorem Memory.fill_succ {m : Memory} (h : Memory.wf m = true) (n : Nat) (v : BitVec 2) :
    Memory.fill m (n + 1) v = Memory.write (Memory.fill m n v) n v := by
  have hn := Memory.fill_wf h n v
  refine Memory.ext_of_read (Memory.fill_wf h _ v) (Memory.write_wf hn n v) fun i => ?_
  obtain hi | rfl | hi := Nat.lt_trichotomy i n
  · rw [Memory.read_write_other v hi.ne, Memory.read_fill_low h v hi, Memory.read_fill_low h v (by omega)]
  · rw [Memory.read_write_same hn, Memory.read_fill_low h v (Nat.lt_succ_self i)]
  · rw [Memory.read_write_other v hi.ne', Memory.read_fill_high h v hi.le, Memory.read_fill_high h v hi]

theorem Memory.fill_zero (m : Memory) (v : BitVec 2) : Memory.fill m 0 v = m := by
  simp [Memory.fill]

theorem Memory.fillLoop_succ (m : Memory) (n : Nat) (v : BitVec 2) :
    Memory.fillLoop m (n + 1) v = Memory.write (Memory.fillLoop m n v) n v := by
  simp [Memory.fillLoop, List.range_succ]

/-! ### The cells of a state after an effect -/

/-- Cells of the framebuffer read the store; other cells are free values. -/
theorem State.fbCell_of_lt {s : State} {i : Nat} (h : i < s.fbCells) : s.fbCell i = Memory.read s.fb i := if_pos h

theorem State.fbCell_of_ge {s : State} {i : Nat} (h : s.fbCells ≤ i) : s.fbCell i = Config.freeCell s.unspec i :=
  if_neg (Nat.not_lt.2 h)

theorem State.fbCell_createFb_low {s : State} (hm : Memory.wf s.fb = true) {w h : BitVec 16} {i : Nat}
    (hi : i < w.toNat * h.toNat) : (s.apply (.createFb w h)).fbCell i = 0#2 :=
  (State.fbCell_of_lt hi).trans (Memory.read_fill_low hm 0#2 hi)

/-- Without a framebuffer before it, FB_CREATE leaves the cells above the new one as unspecified as they were. -/
theorem State.fbCell_createFb_high {s : State} (hs : s.fbCells = 0) {w h : BitVec 16} {i : Nat}
    (hi : w.toNat * h.toNat ≤ i) : (s.apply (.createFb w h)).fbCell i = s.fbCell i :=
  (State.fbCell_of_ge hi).trans (State.fbCell_of_ge (hs ▸ Nat.zero_le i)).symm

theorem State.fbCell_destroyFb (s : State) (i : Nat) :
    (s.apply .destroyFb).fbCell i = Config.freeCell (s.unspec + 1) i :=
  State.fbCell_of_ge (Nat.zero_le i)

theorem State.fbCell_fillFb_low {s : State} (hm : Memory.wf s.fb = true) (c : BitVec 2) {i : Nat} (hi : i < s.fbCells) :
    (s.apply (.fillFb c)).fbCell i = c :=
  (State.fbCell_of_lt (s := s.apply (.fillFb c)) hi).trans (Memory.read_fill_low hm c hi)

theorem State.fbCell_fillFb_high {s : State} (c : BitVec 2) {i : Nat} (hi : s.fbCells ≤ i) :
    (s.apply (.fillFb c)).fbCell i = s.fbCell i :=
  (State.fbCell_of_ge (s := s.apply (.fillFb c)) hi).trans (State.fbCell_of_ge hi).symm

theorem State.fbCell_writeCell_same {s : State} (hm : Memory.wf s.fb = true) (c : BitVec 2) {k : Nat} (hk : k < s.fbCells) :
    (s.apply (.writeCell k c)).fbCell k = c :=
  (State.fbCell_of_lt (s := s.apply (.writeCell k c)) hk).trans (Memory.read_write_same hm k c)

theorem State.fbCell_writeCell_other (s : State) (c : BitVec 2) {i k : Nat} (hi : i ≠ k) :
    (s.apply (.writeCell k c)).fbCell i = s.fbCell i := by
  change (if i < s.fbCells then Memory.read (Memory.write s.fb k c) i else Config.freeCell s.unspec i) = _
  rw [Memory.read_write_other c hi]
  rfl

/-! ### Operand checks and color codes -/

theorem legalColor_iff {c : Byte} : legalColor c = true ↔ c = 0x00 ∨ c = 0x01 ∨ c = 0x02 := by
  simp [legalColor, or_assoc]

theorem legalColor_eq_false {c : Byte} (h0 : c ≠ 0x00) (h1 : c ≠ 0x01) (h2 : c ≠ 0x02) : legalColor c = false :=
  Bool.eq_false_iff.2 fun h => (legalColor_iff.1 h).elim h0 fun h => h.elim h1 h2

/-- A legal color byte is its code zero-extended (20_memory.md R72). -/
theorem setWidth_colorCode {c : Byte} (h : legalColor c = true) : (colorCode c).setWidth 8 = c := by
  obtain rfl | rfl | rfl := legalColor_iff.1 h <;> rfl

/-- After FB_CLEAR the cells of the framebuffer read as the color byte. -/
theorem State.setWidth_fbCell_fillFb {s : State} (hm : Memory.wf s.fb = true) {c : Byte} (hc : legalColor c = true) {i : Nat}
    (hi : i < s.fbCells) : ((s.apply (.fillFb (colorCode c))).fbCell i).setWidth 8 = c := by
  rw [State.fbCell_fillFb_low hm _ hi, setWidth_colorCode hc]

/-- After FB_PIXEL the cell written reads as the color byte. -/
theorem State.setWidth_fbCell_writeCell {s : State} (hm : Memory.wf s.fb = true) {c : Byte} (hc : legalColor c = true)
    {k : Nat} (hk : k < s.fbCells) : ((s.apply (.writeCell k (colorCode c))).fbCell k).setWidth 8 = c := by
  rw [State.fbCell_writeCell_same hm _ hk, setWidth_colorCode hc]

theorem State.inBounds_iff {x y : BitVec 16} {s : State} :
    s.inBounds x y = true ↔ x.toNat < s.fbW.toNat ∧ y.toNat < s.fbH.toNat := by
  simp [State.inBounds]

theorem State.inBounds_eq_false {x y : BitVec 16} {s : State} (h : s.fbW.toNat ≤ x.toNat ∨ s.fbH.toNat ≤ y.toNat) :
    s.inBounds x y = false := by
  rw [← Bool.not_eq_true, State.inBounds_iff]
  omega

/-! ### A request that moves no byte is its one answer -/

open Claims

section Answers

variable {s : State} {i : Instr}

theorem granted_one (hg : granted s 2) : granted s 1 := by
  unfold granted at *
  cases hs : s.slice with
  | none => exact le_rfl
  | some k => rw [hs] at hg; exact Nat.le_of_succ_le hg

theorem exec_of_raise (hg : granted s 1) {e : ResultCode} (h : requestOps s i = [.raise e]) :
    exec i s = .next (failed s e) := by
  rw [exec_eq_execute, h, State.execute_raise hg]
  rfl

theorem exec_of_complete (hg : granted s 1) (h : requestOps s i = [.complete]) :
    exec i s = .next (answered s .ok 0x00) := by
  rw [exec_eq_execute, h, State.execute_complete hg]
  rfl

theorem exec_of_effect (hg : granted s 2) {e : Effect} (h : requestOps s i = [.effect e, .complete]) :
    exec i s = .next (answered (s.apply e) .ok 0x00) := by
  rw [exec_eq_execute, h, State.execute_effect hg]
  rfl

theorem exec_of_read (hg : granted s 2) {k : Nat} (h : requestOps s i = [.effect (.readCell k), .completeRead]) :
    exec i s = .next (answered (s.apply (.readCell k)) .ok ((s.fbCell k).setWidth 8)) := by
  rw [exec_eq_execute, h, State.execute_read hg]
  rfl

/-- A request has one answer: what holds of the one known holds of all. -/
theorem forall_exec_next {u : State} {P : State → Prop} (h : exec i s = .next u) (hu : P u) :
    ∀ t, exec i s = .next t → P t := fun _ ht => Host.Outcome.next.inj (h.symm.trans ht) ▸ hu

end Answers

/-! ### The framebuffer requests where their checks pass -/

theorem exec_fbClear_legal {s : State} (hg : granted s 2) {c : Byte} (hc : legalColor c = true) :
    exec (.fbClear c) s = .next (answered (s.apply (.fillFb (colorCode c))) .ok 0x00) :=
  exec_of_effect hg (by simp [requestOps, hc])

theorem exec_fbRead_inBounds {s : State} (hg : granted s 2) {x y : BitVec 16} (hb : s.inBounds x y = true) :
    exec (.fbRead x y) s =
      .next (answered (s.apply (.readCell (s.fbIdx x.toNat y.toNat))) .ok
        ((s.fbCell (s.fbIdx x.toNat y.toNat)).setWidth 8)) :=
  exec_of_read hg (by simp [requestOps, hb])

/-! ### The statements of the framebuffer requests -/

/-- One of the five framebuffer requests (41_framebuffer.md R140). -/
def FramebufferRequest (i : Instr) : Prop :=
  (∃ w h, i = .fbCreate w h) ∨ i = .fbDestroy ∨ (∃ c, i = .fbClear c) ∨ (∃ x y c, i = .fbPixel x y c) ∨
    ∃ x y, i = .fbRead x y

/-- The effect writes neither ATTACHED nor POLL_LIMIT. -/
def Effect.onFramebuffer : Effect → Prop
  | .setAttached _ | .setPollLimit _ => False
  | .createFb _ _ | .destroyFb | .fillFb _ | .writeCell _ _ | .readCell _ => True

/-- What a framebuffer request comes to: a failed check, nothing to do, or one effect on the framebuffer or RDATA. -/
inductive FramebufferOps : List SeqOp → Prop
  | raise (e : ResultCode) (he : e ≠ .ok) : FramebufferOps [.raise e]
  | complete : FramebufferOps [.complete]
  | effect (e : Effect) (he : e.onFramebuffer) : FramebufferOps [.effect e, .complete]
  | read (k : Nat) : FramebufferOps [.effect (.readCell k), .completeRead]

theorem FramebufferOps.ite {p : Prop} [Decidable p] {a b : List SeqOp} (ha : FramebufferOps a) (hb : FramebufferOps b) :
    FramebufferOps (if p then a else b) := by
  split
  · exact ha
  · exact hb

theorem framebufferOps_requestOps (s : State) {i : Instr} (hi : FramebufferRequest i) : FramebufferOps (requestOps s i) := by
  have raises : ∀ e : ResultCode, e ≠ .ok → FramebufferOps [.raise e] := .raise
  obtain ⟨w, h, rfl⟩ | rfl | ⟨c, rfl⟩ | ⟨x, y, c, rfl⟩ | ⟨x, y, rfl⟩ := hi
  · exact .ite (raises _ nofun) (.ite (raises _ nofun) (.effect _ trivial))
  · exact .ite (raises _ nofun) (.ite (raises _ nofun) (.effect _ trivial))
  · exact .ite (raises _ nofun) (.effect _ trivial)
  · exact .ite (raises _ nofun) (.ite (.effect _ trivial) .complete)
  · exact .ite (raises _ nofun) (.read _)

/-- A framebuffer request answers with a raise that changes nothing else, or with OK after at most one effect. -/
theorem exec_framebuffer_cases {s : State} (hg : granted s 2) {i : Instr} (hi : FramebufferRequest i) :
    (∃ e, e ≠ .ok ∧ exec i s = .next (failed s e)) ∨ exec i s = .next (answered s .ok 0x00) ∨
      ∃ e d, Effect.onFramebuffer e ∧ exec i s = .next (answered (s.apply e) .ok d) := by
  generalize ho : requestOps s i = ops
  cases ho ▸ framebufferOps_requestOps s hi with
  | raise e he => exact .inl ⟨e, he, exec_of_raise (granted_one hg) ho⟩
  | complete => exact .inr (.inl (exec_of_complete (granted_one hg) ho))
  | effect e he => exact .inr (.inr ⟨e, _, he, exec_of_effect hg ho⟩)
  | read k => exact .inr (.inr ⟨.readCell k, _, trivial, exec_of_read hg ho⟩)

theorem State.apply_attached_of_onFramebuffer {e : Effect} (he : e.onFramebuffer) (s : State) :
    (s.apply e).attached = s.attached := by
  cases e with
  | setAttached b => exact he.elim
  | _ => rfl

theorem State.apply_pollLimit_of_onFramebuffer {e : Effect} (he : e.onFramebuffer) (s : State) :
    (s.apply e).pollLimit = s.pollLimit := by
  cases e with
  | setPollLimit v => exact he.elim
  | _ => rfl

theorem State.apply_pbByte (e : Effect) (s : State) (k : Nat) : (s.apply e).pbByte k = s.pbByte k := by
  simp [State.pbByte]

end Sys2Proof.Machine

namespace Sys2Proof

open Machine Claims

/-! ### The headers of the framebuffer requests (30_encoding.md R103, R111) -/

/-- The header of a request without a payload decodes to it. -/
theorem decodeBeats_header {i : Instr} (hw : i.wellFormed = true) (hp : instrPayload i = []) :
    decodeBeats [encodeHeader i] = (.request i, []) := by
  have henc : encode i = [encodeHeader i] := by rw [encode, hp]; rfl
  simpa [henc] using decodeUndoesEncode i [] hw

/-- Settles O12: without a framebuffer every cell is unspecified before, and only those the fill reaches are not after. -/
theorem fbCreateResult : Obligations.FbCreateResult := by
  intro s w h hg
  have hg1 := granted_one hg
  refine ⟨?_, fun hv => exec_of_raise hg1 (by simp [requestOps, hv]),
    fun hv hd => exec_of_raise hg1 (by rw [requestOps, if_neg (by simp [hv]), if_pos hd]),
    fun hv hw0 _ hm hw hwm hh hhm => ?_⟩
  · simpa [encodeHeader, headerXY_eq] using decodeBeats_header (i := .fbCreate w h) rfl rfl
  · have hd : ¬ (w = 0 ∨ h = 0 ∨ s.cfg.fbMaxW < w.toNat ∨ s.cfg.fbMaxH < h.toNat) := by
      rintro (rfl | rfl | hlt | hlt)
      · exact absurd hw (by decide)
      · exact absurd hh (by decide)
      · omega
      · omega
    have he := exec_of_effect (i := .fbCreate w h) (e := .createFb w h) hg
      (by rw [requestOps, if_neg (by simp [hv]), if_neg hd])
    have hs : s.fbCells = 0 := by simp [State.fbCells, hw0]
    exact ⟨_, he, forall_exec_next he ⟨fun i => State.fbCell_createFb_low hm, fun i => State.fbCell_createFb_high hs⟩⟩

/-- Settles O13: both refusals are one error, and a framebuffer without cells leaves every cell unspecified. -/
theorem fbDestroyResult : Obligations.FbDestroyResult := by
  intro s hg
  have hg1 := granted_one hg
  refine ⟨fun hr => exec_of_raise hg1 ?_, fun hv ha => ?_⟩
  · obtain hv | ha := hr
    · simp [requestOps, hv]
    · simp [requestOps, ha]
  · have he := exec_of_effect (i := .fbDestroy) (e := .destroyFb) hg (by simp [requestOps, hv, ha])
    exact ⟨he, forall_exec_next he (State.fbCell_destroyFb s)⟩

/-- Settles O14: the fill reaches exactly the cells of the framebuffer. -/
theorem fbClearResult : Obligations.FbClearResult := by
  intro s c hg
  have hg1 := granted_one hg
  refine ⟨fun h0 h1 h2 => exec_of_raise hg1 (by simp [requestOps, legalColor_eq_false h0 h1 h2]), fun hc hm => ?_⟩
  have hl := legalColor_iff.2 hc
  have he := exec_fbClear_legal hg hl
  exact ⟨_, he, forall_exec_next he
    ⟨fun i => State.setWidth_fbCell_fillFb hm hl, fun i => State.fbCell_fillFb_high _⟩⟩

/-- Settles O15: a pixel in bounds is a cell of the framebuffer, the only one written. -/
theorem fbPixelResult : Obligations.FbPixelResult := by
  intro s x y c hg
  have hg1 := granted_one hg
  refine ⟨?_, fun h0 h1 h2 => exec_of_raise hg1 (by simp [requestOps, legalColor_eq_false h0 h1 h2]),
    fun hc ho => exec_of_complete hg1 (by simp [requestOps, legalColor_iff.2 hc, State.inBounds_eq_false ho]),
    fun hc hx hy hm => ?_⟩
  · simpa [encodeHeader, headerXY_eq] using decodeBeats_header (i := .fbPixel x y c) rfl rfl
  · have hl := legalColor_iff.2 hc
    have hb : s.inBounds x y = true := State.inBounds_iff.2 ⟨hx, hy⟩
    have he := exec_of_effect (i := .fbPixel x y c) (e := .writeCell (s.fbIdx x.toNat y.toNat) (colorCode c)) hg
      (by simp [requestOps, hl, hb])
    exact ⟨_, he, forall_exec_next he
      ⟨State.setWidth_fbCell_writeCell hm hl (State.fbIdx_lt hb), fun i => State.fbCell_writeCell_other s _⟩⟩

/-- Settles O16: RDATA and the response are the cell read, and the read keeps the invariant's clause on RDATA. -/
theorem fbReadResult : Obligations.FbReadResult := by
  intro s x y hg
  have hg1 := granted_one hg
  refine ⟨?_, fun ho => exec_of_raise hg1 (by simp [requestOps, State.inBounds_eq_false ho]),
    fun hx hy => exec_fbRead_inBounds hg (State.inBounds_iff.2 ⟨hx, hy⟩), fun hi hx hy => ?_⟩
  · simpa [encodeHeader, headerXY_eq] using decodeBeats_header (i := .fbRead x y) rfl rfl
  · have hb : s.inBounds x y = true := State.inBounds_iff.2 ⟨hx, hy⟩
    have hread : ArchInv (s.apply (.readCell (s.fbIdx x.toNat y.toNat))) :=
      hi.toArchInv.apply (decide_eq_true (State.fbIdx_lt hb))
    exact forall_exec_next (exec_fbRead_inBounds hg hb) (legalColor_iff.1 hread.readData)

/-- Settles O17: the cell read is one the fill reached. -/
theorem clearThenReadGivesTheColor : Obligations.ClearThenReadGivesTheColor := by
  intro s c x y hg hc hm hx hy
  have hl := legalColor_iff.2 hc
  have hb : s.inBounds x y = true := State.inBounds_iff.2 ⟨hx, hy⟩
  have hread : ((s.apply (.fillFb (colorCode c))).fbCell (s.fbIdx x.toNat y.toNat)).setWidth 8 = c :=
    State.setWidth_fbCell_fillFb hm hl (State.fbIdx_lt hb)
  refine ⟨_, _, exec_fbClear_legal hg hl,
    exec_fbRead_inBounds (s := answered (s.apply (.fillFb (colorCode c))) .ok 0x00) hg hb, hread, ?_⟩
  calc (s.responses ++ [⟨.ok, 0x00⟩]) ++
        [⟨.ok, ((s.apply (.fillFb (colorCode c))).fbCell (s.fbIdx x.toNat y.toNat)).setWidth 8⟩]
      = (s.responses ++ [⟨.ok, 0x00⟩]) ++ [⟨.ok, c⟩] := by rw [hread]
    _ = s.responses ++ [⟨.ok, 0x00⟩, ⟨.ok, c⟩] := List.append_assoc ..

/-- Settles O18: a raise and a completion write no element but the answer, and an effect on the framebuffer none of these. -/
theorem framebufferRequestsFrame : Obligations.FramebufferRequestsFrame := by
  intro s i hg hi
  obtain ⟨e, hne, he⟩ | he | ⟨e, d, hf, he⟩ := exec_framebuffer_cases hg hi
  · exact ⟨_, he, rfl, rfl, fun _ => rfl, rfl, rfl, rfl, rfl, rfl, rfl, rfl, rfl, rfl, rfl, .inr ⟨e, hne, rfl⟩⟩
  · exact ⟨_, he, rfl, rfl, fun _ => rfl, rfl, rfl, rfl, rfl, rfl, rfl, rfl, rfl, rfl, rfl, .inl ⟨rfl, rfl⟩⟩
  · exact ⟨_, he, s.apply_drv e, State.apply_attached_of_onFramebuffer hf s, s.apply_pbByte e,
      State.apply_pollLimit_of_onFramebuffer hf s, s.apply_pinsConfigured e, s.apply_rstOut e, s.apply_dcOut e,
      s.apply_cfg e, s.apply_requests e, s.apply_trace e, s.apply_env e, s.apply_drawn e, s.apply_turns e,
      .inl ⟨rfl, s.apply_faults e⟩⟩

/-- Settles O19, by induction on the number of cells: filling one cell more is one more write. -/
theorem fillIsTheLoopOfCellWrites : Obligations.FillIsTheLoopOfCellWrites := by
  intro m n v h
  induction n with
  | zero => exact Memory.fill_zero m v
  | succ n ih => rw [Memory.fill_succ h, ih, Memory.fillLoop_succ]

end Sys2Proof

end

section
/-! PROOFS. Family 42_renderer.md: the packing of a plane as a bijection of pixels and buffer bits, the packing loop, ATTACH,
DETACH and the guards of UPDATE, and what an UPDATE transmits, whatever the transport answers. -/

namespace Sys2Proof.Machine

/-! ### The bit of a pixel (20_memory.md R73) -/

/-- A row of pixels fits its `S` bytes. -/
theorem State.fbW_le_stride (s : State) : s.fbW.toNat ≤ 8 * s.stride := by
  unfold State.stride ceil8
  omega

/-- The byte of a pixel lies in its row. -/
theorem State.pbIdx_div_mod {s : State} {i : Nat} (hi : i < 8 * s.stride) (j : Nat) :
    s.pbIdx i j / s.stride = j ∧ s.pbIdx i j % s.stride = i / 8 := by
  have hq : i / 8 < s.stride := Nat.div_lt_of_lt_mul hi
  rw [State.pbIdx, Nat.mul_comm, Nat.mul_add_div (Nat.zero_lt_of_lt hq), Nat.mul_add_mod, Nat.div_eq_of_lt hq,
    Nat.mod_eq_of_lt hq]
  exact ⟨rfl, rfl⟩

theorem State.pbIdx_lt {s : State} {i j : Nat} (hi : i < 8 * s.stride) (hj : j < s.fbH.toNat) :
    s.pbIdx i j < s.planeSize := by
  have hq : i / 8 < s.stride := Nat.div_lt_of_lt_mul hi
  calc j * s.stride + i / 8 < (j + 1) * s.stride := by rw [Nat.succ_mul]; omega
    _ ≤ s.fbH.toNat * s.stride := Nat.mul_le_mul_right _ hj
    _ = s.planeSize := Nat.mul_comm _ _

/-- Each bit of a plane is that of one pixel or padding position (i, j). -/
theorem State.exists_pixel {s : State} {k b : Nat} (hk : k < s.planeSize) (hb : b < 8) :
    ∃ i j, i < 8 * s.stride ∧ j < s.fbH.toNat ∧ k = s.pbIdx i j ∧ b = 7 - i % 8 := by
  have hS : 0 < s.stride := Nat.pos_of_mul_pos_right (Nat.zero_lt_of_lt hk)
  have hq : k % s.stride < s.stride := Nat.mod_lt _ hS
  refine ⟨8 * (k % s.stride) + (7 - b), k / s.stride, by omega, Nat.div_lt_of_lt_mul hk, ?_, by omega⟩
  rw [State.pbIdx, show (8 * (k % s.stride) + (7 - b)) / 8 = k % s.stride by omega, Nat.mul_comm, Nat.div_add_mod]

/-- No two pixels share a bit. -/
theorem State.pixel_injective {s : State} {i j i' j' : Nat} (hi : i < 8 * s.stride) (hi' : i' < 8 * s.stride)
    (hk : s.pbIdx i j = s.pbIdx i' j') (hb : 7 - i % 8 = 7 - i' % 8) : i = i' ∧ j = j' := by
  obtain ⟨hj, hq⟩ := State.pbIdx_div_mod hi j
  obtain ⟨hj', hq'⟩ := State.pbIdx_div_mod hi' j'
  rw [hk, hj'] at hj
  rw [hk, hq'] at hq
  exact ⟨by omega, hj.symm⟩

/-! ### The closed form, bit by bit (42_renderer.md R172) -/

/-- The plane bit is a bit of the color code (42_renderer.md R173). -/
theorem planeBit_eq_getLsbD (p : Plane) (c : BitVec 2) :
    planeBit p c = c.getLsbD (match p with | .black => 0 | .red => 1) := by
  revert c
  cases p <;> decide

theorem State.getLsbD_packByte (p : Plane) (j q : Nat) (s : State) {r : Nat} (hr : r < 8) :
    (s.packByte p j q).getLsbD (7 - r) = s.pixelBit p (8 * q + r) j := by
  simp only [State.packByte, BitVec.getLsbD_append, BitVec.getLsbD_ofBool]
  interval_cases r <;> simp

/-- The rows of a plane, one after another, are its bytes in the order of their indexes. -/
theorem State.packPlane_eq_map (p : Plane) (s : State) :
    s.packPlane p = (List.range s.planeSize).map fun k => s.packByte p (k / s.stride) (k % s.stride) := by
  have rows : ∀ n, (List.range n).flatMap (fun j => (List.range s.stride).map fun q => s.packByte p j q) =
      (List.range (s.stride * n)).map fun k => s.packByte p (k / s.stride) (k % s.stride) := by
    intro n
    induction n with
    | zero => rfl
    | succ n ih =>
      rw [List.range_succ, List.flatMap_append, ih, Nat.mul_succ, List.range_add, List.map_append,
        List.flatMap_singleton, List.map_map]
      congr 1
      refine List.map_congr_left fun q hq => ?_
      have hq' := List.mem_range.1 hq
      simp [Nat.mul_add_div (Nat.zero_lt_of_lt hq'), Nat.div_eq_of_lt hq', Nat.mod_eq_of_lt hq']
  exact rows s.fbH.toNat

@[simp] theorem State.length_packPlane (p : Plane) (s : State) : (s.packPlane p).length = s.planeSize := by
  simp [State.packPlane_eq_map]

/-- The bit of a pixel or padding position in the packed plane. -/
theorem State.getLsbD_packPlane (p : Plane) {s : State} {i j : Nat} (hi : i < 8 * s.stride) (hj : j < s.fbH.toNat) :
    ((s.packPlane p).getD (s.pbIdx i j) 0).getLsbD (7 - i % 8) = s.pixelBit p i j := by
  obtain ⟨hdiv, hmod⟩ := State.pbIdx_div_mod hi j
  have hbyte : (s.packPlane p).getD (s.pbIdx i j) 0 = s.packByte p j (i / 8) := by
    simp [State.packPlane_eq_map, State.pbIdx_lt hi hj, hdiv, hmod]
  rw [hbyte, State.getLsbD_packByte p j (i / 8) s (Nat.mod_lt i (by decide)), Nat.div_add_mod]

/-! ### The packing loop (42_renderer.md R172) -/

/-- A loop whose steps only set bits sets the bits its steps set. -/
theorem getLsbD_foldl_of_step {α : Type} {step : List Byte → α → List Byte} {sets : α → Prop} {k b : Nat}
    (length : ∀ buf x, (step buf x).length = buf.length)
    (bit : ∀ buf x, k < buf.length →
      (((step buf x).getD k 0).getLsbD b = true ↔ (buf.getD k 0).getLsbD b = true ∨ sets x))
    (l : List α) {buf : List Byte} (hk : k < buf.length) :
    ((l.foldl step buf).getD k 0).getLsbD b = true ↔ (buf.getD k 0).getLsbD b = true ∨ ∃ x ∈ l, sets x := by
  induction l generalizing buf with
  | nil => simp
  | cons x l ih =>
    rw [List.foldl_cons, ih (by rwa [length]), bit buf x hk, List.exists_mem_cons_iff, or_assoc]

theorem length_foldl_of_step {α : Type} {step : List Byte → α → List Byte}
    (length : ∀ buf x, (step buf x).length = buf.length) (l : List α) (buf : List Byte) :
    (l.foldl step buf).length = buf.length := by
  induction l generalizing buf with
  | nil => rfl
  | cons x l ih => rw [List.foldl_cons, ih, length]

theorem State.length_packPixel (p : Plane) (j : Nat) (s : State) (buf : List Byte) (i : Nat) :
    (s.packPixel p j buf i).length = buf.length := by
  unfold State.packPixel
  split <;> simp

/-- The inner statement of the loop sets the bit of its pixel, where the pixel's plane bit is 1. -/
theorem State.getLsbD_packPixel (p : Plane) (j : Nat) (s : State) {k b : Nat} (hb : b < 8) (buf : List Byte) (i : Nat)
    (hk : k < buf.length) :
    ((s.packPixel p j buf i).getD k 0).getLsbD b = true ↔
      (buf.getD k 0).getLsbD b = true ∨
        (planeBit p (s.fbCell (s.fbIdx i j)) = true ∧ k = s.pbIdx i j ∧ b = 7 - i % 8) := by
  have hone : (1#8 <<< (7 - i % 8)).getLsbD b = true ↔ b = 7 - i % 8 := by
    simp only [BitVec.getLsbD_shiftLeft, BitVec.getLsbD_one, Bool.and_eq_true, Bool.not_eq_true', decide_eq_true_eq,
      decide_eq_false_iff_not]
    omega
  have hlen : k < (s.packPixel p j buf i).length := (State.length_packPixel p j s buf i).symm ▸ hk
  rw [List.getD_eq_getElem _ 0 hlen, List.getD_eq_getElem _ 0 hk]
  unfold State.packPixel
  by_cases hc : planeBit p (s.fbCell (s.fbIdx i j)) = true
  · by_cases hki : s.pbIdx i j = k
    · simp only [hc, if_true, hki, List.getElem_modify, BitVec.getLsbD_or, Bool.or_eq_true, hone, true_and]
    · simp only [hc, if_true, List.getElem_modify, hki, if_false, Ne.symm hki, false_and, and_false, or_false]
  · simp only [hc, Bool.false_eq_true, if_false, false_and, or_false]

/-- The bits the loop has set. -/
theorem State.getLsbD_packPlaneLoop (p : Plane) {s : State} {k b : Nat} (hk : k < s.planeSize) (hb : b < 8) :
    ((s.packPlaneLoop p).getD k 0).getLsbD b = true ↔
      ∃ j < s.fbH.toNat, ∃ i < s.fbW.toNat,
        planeBit p (s.fbCell (s.fbIdx i j)) = true ∧ k = s.pbIdx i j ∧ b = 7 - i % 8 := by
  rw [State.packPlaneLoop, getLsbD_foldl_of_step (fun buf j => length_foldl_of_step (s.length_packPixel p j) _ buf)
    (fun buf j hl => getLsbD_foldl_of_step (s.length_packPixel p j) (s.getLsbD_packPixel p j hb) _ hl) _ (by simpa using hk)]
  simp [hk]

theorem State.length_packPlaneLoop (p : Plane) (s : State) : (s.packPlaneLoop p).length = s.planeSize := by
  rw [State.packPlaneLoop, length_foldl_of_step fun buf j => length_foldl_of_step (s.length_packPixel p j) _ buf]
  exact List.length_replicate

/-- The loop and the closed form give each pixel the same bit. -/
theorem State.getLsbD_packPlaneLoop_pbIdx (p : Plane) {s : State} {i j : Nat} (hi : i < 8 * s.stride) (hj : j < s.fbH.toNat) :
    ((s.packPlaneLoop p).getD (s.pbIdx i j) 0).getLsbD (7 - i % 8) = s.pixelBit p i j := by
  rw [Bool.eq_iff_iff, State.getLsbD_packPlaneLoop p (State.pbIdx_lt hi hj) (by omega)]
  simp only [State.pixelBit, Bool.and_eq_true, decide_eq_true_eq]
  constructor
  · rintro ⟨j', -, i', hi', hbit, hk, hb⟩
    obtain ⟨rfl, rfl⟩ := State.pixel_injective hi (Nat.lt_of_lt_of_le hi' s.fbW_le_stride) hk hb
    exact ⟨hi', hbit⟩
  · rintro ⟨hi', hbit⟩
    exact ⟨j, hj, i, hi', hbit, rfl, rfl⟩

/-- Under the invariant a cell of the framebuffer holds a legal code (10_state.md R36). -/
theorem ArchInv.legalCode_fbCell {s : State} (h : ArchInv s) {i : Nat} (hi : i < s.fbCells) :
    legalCode (s.fbCell i) = true := by
  rw [State.fbCell_of_lt hi]
  obtain h0 | hm := Memory.read_eq_zero_or_mem s.fb i
  · rw [h0]; rfl
  · exact h.codes _ hm

/-- A legal code is in one plane at most (42_renderer.md R173). -/
theorem planeBit_of_legalCode {c : BitVec 2} (h : legalCode c = true) :
    ¬ (planeBit .black c = true ∧ planeBit .red c = true) := by
  revert c
  decide

end Sys2Proof.Machine

namespace Sys2Proof

open Machine

/-- Settles O22: the bit at a pixel's position is the one `State.pixelBit` gives it. -/
theorem planeUnpacksToThePixels : Obligations.PlaneUnpacksToThePixels := by
  intro s p
  refine ⟨State.length_packPlane p s, fun i j hi hj => ?_⟩
  refine (State.getLsbD_packPlane p (Nat.lt_of_lt_of_le hi s.fbW_le_stride) hj).trans ?_
  rw [State.pixelBit, decide_eq_true hi, Bool.true_and]
  exact planeBit_eq_getLsbD p _

/-- Settles O23: the low bits of a row's last byte are those of positions at or beyond FB_W. -/
theorem planePaddingIsZero : Obligations.PlanePaddingIsZero := by
  intro s p j b hj hw hb
  have hS : s.stride = (s.fbW.toNat + 7) / 8 := rfl
  have hpad : ¬ 8 * (s.stride - 1) + (7 - b) < s.fbW.toNat := by omega
  have hbit := State.getLsbD_packPlane p (s := s) (i := 8 * (s.stride - 1) + (7 - b)) (by omega) hj
  rw [State.pbIdx, State.pixelBit, decide_eq_false hpad, Bool.false_and,
    show (8 * (s.stride - 1) + (7 - b)) / 8 = s.stride - 1 by omega,
    show 7 - (8 * (s.stride - 1) + (7 - b)) % 8 = b by omega] at hbit
  exact hbit

/-- Settles O24: both buffers have the same length and the same bit at each pixel's position. -/
theorem packPlaneIsItsPseudocode : Obligations.PackPlaneIsItsPseudocode := by
  intro s p
  refine List.ext_getElem (by rw [State.length_packPlane, State.length_packPlaneLoop]) fun k hk hk' => ?_
  refine BitVec.eq_of_getLsbD_eq fun b hb => ?_
  obtain ⟨i, j, hi, hj, rfl, rfl⟩ := State.exists_pixel (s.length_packPlane p ▸ hk) hb
  rw [← List.getD_eq_getElem _ 0 hk, ← List.getD_eq_getElem _ 0 hk', State.getLsbD_packPlane p hi hj,
    State.getLsbD_packPlaneLoop_pbIdx p hi hj]

/-- Settles O25: the cells the invariant lets the framebuffer hold are legal codes. -/
theorem noPixelIsInBothPlanes : Obligations.NoPixelIsInBothPlanes :=
  fun _ _ hi h => planeBit_of_legalCode (hi.toArchInv.legalCode_fbCell h)

end Sys2Proof

namespace Sys2Proof.Machine

/-! ### What keeps the framebuffer keeps its planes, and what UPDATE comes to -/

theorem DriverFrame.fbCell {s t : State} (h : DriverFrame s t) (i : Nat) : t.fbCell i = s.fbCell i := by
  unfold State.fbCell State.fbCells
  rw [h.fbW, h.fbH, h.fb, h.unspec]

theorem DriverFrame.packPlane {s t : State} (h : DriverFrame s t) (p : Plane) : t.packPlane p = s.packPlane p := by
  have hb : ∀ i j, t.pixelBit p i j = s.pixelBit p i j := fun i j => by
    simp only [State.pixelBit, State.fbIdx, h.fbW, h.fbCell]
  simp only [State.packPlane, State.packByte, State.stride, h.fbW, h.fbH, hb]

theorem DriverFrame.cost {s t : State} (h : DriverFrame s t) : t.cost = s.cost :=
  State.cost_congr h.fbW h.fbH h.pollLimit

/-- Where UPDATE's checks pass, it comes to its statements (42_renderer.md R176). -/
theorem requestOps_update {s : State} (ha : s.attached = true) (hd : 3 ≤ s.drv.num) :
    requestOps s .update = updateOps s.cfg := by
  have hb : s.drv.below .initApplied = false := decide_eq_false (Nat.not_lt.2 hd)
  simp [requestOps, ha, hb]

end Sys2Proof.Machine

namespace Sys2Proof

open Machine Claims

/-! ### ATTACH, DETACH, SET_POLL_LIMIT and NOP -/

/-- Settles O20: ATTACH is one check and one effect. -/
theorem attachResult : Obligations.AttachResult := by
  intro s hg
  exact ⟨decodeBeats_header (i := .attach) rfl rfl,
    fun hv => exec_of_raise (granted_one hg) (by simp [requestOps, hv]),
    fun hv => exec_of_effect (e := .setAttached true) hg (by simp [requestOps, hv])⟩

/-- Settles O21: DETACH and SET_POLL_LIMIT are one effect, NOP is none. -/
theorem detachSetPollLimitAndNopResults : Obligations.DetachSetPollLimitAndNopResults := by
  intro s v hg
  refine ⟨decodeBeats_header (i := .detach) rfl rfl, ?_, decodeBeats_header (i := .nop) rfl rfl,
    exec_of_effect (e := .setAttached false) hg rfl, exec_of_effect (e := .setPollLimit v) hg rfl,
    exec_of_complete (granted_one hg) rfl⟩
  have hd := decodeBeats_header (i := .setPollLimit v) rfl rfl
  rwa [encodeHeader, headerVal_eq] at hd

/-- Settles O26: each guard that fails is UPDATE's one statement. -/
theorem updateGuards : Obligations.UpdateGuards := by
  intro s hg
  refine ⟨fun ha => exec_of_complete hg (by simp [requestOps, ha]), fun ha hd => exec_of_raise hg ?_⟩
  have hb : s.drv.below .initApplied = true := decide_eq_true hd
  simp [requestOps, ha, hb]

/-- Settles O28: no statement of UPDATE is an effect. -/
theorem updateNeverWritesTheFramebuffer : Obligations.UpdateNeverWritesTheFramebuffer := by
  intro s t ht
  have hf : DriverFrame s t := by
    rw [exec_eq_execute] at ht
    cases ht
    refine State.execute_frame (List.all_eq_true.2 ?_) s
    have noEffect : ∀ op ∈ requestOps s .update, op.isEffect = false :=
      forall_mem_ite (fun _ => forall_of_plain SeqOp.isEffect_of_plain rfl) fun _ =>
        forall_mem_ite (fun _ => forall_of_plain SeqOp.isEffect_of_plain rfl) fun _ =>
          forall_updateOps SeqOp.isEffect_of_plain (fun _ => rfl) (fun _ => rfl) _
    exact fun op ho => by rw [noEffect op ho]; rfl
  exact ⟨hf.fb, hf.fbW, hf.fbH, hf.fbValid, hf.attached, hf.fbCell⟩

end Sys2Proof

namespace Sys2Proof.Machine

/-! ### A packed plane on its way (42_renderer.md R172, R176) -/

/-- PB holds the bytes written to it last. -/
theorem State.map_pbByte_writePb (bytes : List Byte) (s : State) :
    (List.range bytes.length).map (s.writePb bytes).pbByte = bytes := by
  refine List.ext_getElem (by simp) fun k hk hk' => ?_
  simp [State.pbByte, State.writePb, List.getElem?_append_left hk', List.getElem?_eq_getElem hk']

/-- The statements of a plane come to the transfer of its packed bytes. -/
theorem State.runFor_sendPackedPlane {p : Plane} {rest : List SeqOp} {s : State}
    (h : s.seq = .running (sendPackedPlane p ++ rest)) :
    State.runFor 3 s =
      State.goto (.xfer dcDataLevel (s.packPlane p) :: rest) { s.writePb (s.packPlane p) with dcOut := .high } := by
  have hpb := State.map_pbByte_writePb (s.packPlane p) s
  rw [State.length_packPlane] at hpb
  rw [State.runFor_cons (op := .packPlane p) (rest := .driveDc dcDataLevel :: .sendPlane :: rest) h,
    State.runFor_cons (op := .driveDc dcDataLevel) (rest := .sendPlane :: rest) rfl,
    State.runFor_cons (op := .sendPlane) (rest := rest) rfl]
  exact congrArg (fun bs => State.goto (.xfer dcDataLevel bs :: rest) { s.writePb (s.packPlane p) with dcOut := .high }) hpb

/-! ### An UPDATE whose transfers succeed -/

/-- The state after statements whose transfers moved: the DC pin, PB, the events, and the answers and statements left. -/
def State.moved (dc : PinLevel) (pb : List Byte) (es : List Event) (xs : List XferAnswer) (rest : List SeqOp) (s : State) :
    State :=
  { s with
    dcOut := dc
    pb := pb
    trace := s.trace ++ es
    env := { s.env with xfers := xs }
    seq := .running rest }

section Moved

variable (dc : PinLevel) (pb : List Byte) (es : List Event) (xs : List XferAnswer) (rest : List SeqOp) (s : State)

theorem State.moved_frame : DriverFrame s (s.moved dc pb es xs rest) :=
  ⟨rfl, rfl, rfl, rfl, rfl, rfl, rfl, rfl, rfl, rfl, rfl, rfl, rfl⟩

@[simp] theorem State.moved_packPlane (p : Plane) : (s.moved dc pb es xs rest).packPlane p = s.packPlane p :=
  (State.moved_frame dc pb es xs rest s).packPlane p

@[simp] theorem State.moved_planeSize : (s.moved dc pb es xs rest).planeSize = s.planeSize := rfl

@[simp] theorem State.moved_pb : (s.moved dc pb es xs rest).pb = pb := rfl

@[simp] theorem State.moved_moved (dc' : PinLevel) (pb' : List Byte) (es' : List Event) (xs' : List XferAnswer)
    (rest' : List SeqOp) : (s.moved dc pb es xs rest).moved dc' pb' es' xs' rest' = s.moved dc' pb' (es ++ es') xs' rest' := by
  simp [State.moved]

end Moved

section Transfers

variable {s : State} {b : Byte} {p : Plane} {rest : List SeqOp} {xs : List XferAnswer}

theorem State.runFor_xfer_moved {dc : Level} {bs : List Byte} (hb : bs ≠ []) (h : s.seq = .running (.xfer dc bs :: rest))
    (hx : s.env.xfers = .ok :: xs) :
    State.runFor (bs.length + 1) s = s.moved s.dcOut s.pb (bs.map (Event.byte dc)) xs rest := by
  rw [State.runFor_xfer_ok hb h (State.xferAnswer_of_cons hx), State.drawXfer_of_cons hx]
  rfl

theorem State.runFor_sendCommand_moved (h : s.seq = .running (sendCommand b ++ rest)) (hx : s.env.xfers = .ok :: xs) :
    State.runFor 3 s = s.moved .low s.pb [.byte dcCommandLevel b] xs rest := by
  rw [State.runFor_sendCommand h (State.xferAnswer_of_cons hx), State.drawXfer_of_cons hx]
  rfl

theorem State.runFor_sendPackedPlane_moved (hp : 0 < s.planeSize) (h : s.seq = .running (sendPackedPlane p ++ rest))
    (hx : s.env.xfers = .ok :: xs) :
    State.runFor (3 + (s.planeSize + 1)) s =
      s.moved .high (s.packPlane p ++ s.pb.drop s.planeSize) (dataTrace (s.packPlane p)) xs rest := by
  have hne : s.packPlane p ≠ [] := List.ne_nil_of_length_pos (by rwa [State.length_packPlane])
  rw [State.runFor_add, State.runFor_sendPackedPlane h, ← State.length_packPlane p s]
  exact State.runFor_xfer_moved (s := State.goto _ { s.writePb (s.packPlane p) with dcOut := .high }) hne rfl hx

/-- A start command and its plane. -/
theorem State.runFor_framedPlane_moved (hp : 0 < s.planeSize)
    (h : s.seq = .running (sendCommand b ++ (sendPackedPlane p ++ rest))) (hx : s.env.xfers = .ok :: .ok :: xs) :
    State.runFor (s.planeSize + 7) s =
      s.moved .high (s.packPlane p ++ s.pb.drop s.planeSize)
        (.byte dcCommandLevel b :: dataTrace (s.packPlane p)) xs rest := by
  have hplane := State.runFor_sendPackedPlane_moved (p := p) (rest := rest) (xs := xs)
    (s := s.moved .low s.pb [.byte dcCommandLevel b] (.ok :: xs) (sendPackedPlane p ++ rest)) hp rfl rfl
  rw [show s.planeSize + 7 = 3 + (3 + (s.planeSize + 1)) by omega, State.runFor_add, State.runFor_sendCommand_moved h hx]
  simpa using hplane

end Transfers

/-- What UPDATE does once both planes have moved, but for its completion: a refresh whose handshake polls busy `n` times. -/
def refreshPieces (c : Config) (n : Nat) : List Piece :=
  [.send dcCommandLevel [c.cmdRefresh], .say [.wait .refreshSettle], .shake n, .reach .ready]

theorem piecesTransfers_refreshPieces (c : Config) (n : Nat) : piecesTransfers (refreshPieces c n) = n + 2 := by
  simp [piecesTransfers, refreshPieces, Piece.transfers]
  omega

theorem piecesSamples_refreshPieces (c : Config) (n : Nat) :
    piecesSamples c (refreshPieces c n) = List.replicate n c.busyActiveLevel ++ [!c.busyActiveLevel] := by
  simp [piecesSamples, refreshPieces, Piece.samples]

/-- UPDATE's statements, plane by plane. -/
theorem updateOps_eq (c : Config) (n : Nat) :
    updateOps c = sendCommand c.cmdStartBw ++ (sendPackedPlane .black ++ (sendCommand c.cmdStartRed ++
      (sendPackedPlane .red ++ (piecesOps (refreshPieces c n) ++ [.complete])))) := rfl

theorem refreshPieces_ok {s : State} {n : Nat} (hn : n < 4294967296 ∧ (s.pollLimit ≠ 0#32 → n < s.pollLimit.toNat)) :
    ∀ q ∈ refreshPieces s.cfg n, q.ok s := by
  simp only [refreshPieces, List.forall_mem_cons]
  exact ⟨List.cons_ne_nil _ _, ⟨_, rfl⟩, hn, trivial, nofun⟩

open Claims

/-- Both framed planes on their way, every transfer moving. -/
theorem State.runFor_planes {s : State} {rest : List SeqOp} {xs : List XferAnswer} (hp : 0 < s.planeSize) {b r : Byte}
    (h : s.seq = .running (sendCommand b ++ (sendPackedPlane .black ++ (sendCommand r ++ (sendPackedPlane .red ++ rest)))))
    (hx : s.env.xfers = .ok :: .ok :: .ok :: .ok :: xs) :
    State.runFor ((s.planeSize + 7) + (s.planeSize + 7)) s =
      s.moved .high (s.packPlane .red ++ s.pb.drop s.planeSize)
        (.byte dcCommandLevel b :: dataTrace (s.packPlane .black) ++
          .byte dcCommandLevel r :: dataTrace (s.packPlane .red)) xs rest := by
  have hred := State.runFor_framedPlane_moved (xs := xs)
    (s := s.moved .high (s.packPlane .black ++ s.pb.drop s.planeSize)
      (.byte dcCommandLevel b :: dataTrace (s.packPlane .black)) (.ok :: .ok :: xs)
      (sendCommand r ++ (sendPackedPlane .red ++ rest))) hp rfl rfl
  rw [State.runFor_add, State.runFor_framedPlane_moved hp h hx]
  simpa using hred

theorem State.cost_updateOps (s : State) (n : Nat) :
    ((updateOps s.cfg).map s.cost).sum =
      (s.planeSize + 9) + (s.planeSize + 9) + ((piecesOps (refreshPieces s.cfg n)).map s.cost).sum + 1 := by
  rw [updateOps_eq s.cfg n]
  simp only [List.map_append, List.sum_append]
  simp [sendCommand, sendPackedPlane, State.cost]
  omega

/-- UPDATE's statements up to its completion, every transfer moving and the handshake within the limit. -/
theorem State.runFor_updateOps {s : State} {n : Nat} {xs : List XferAnswer} {vs : List Level} (hp : 0 < s.planeSize)
    (h : s.seq = .running (updateOps s.cfg)) (hn : withinLimit s n) (hc : calm s (6 + n) n xs vs) :
    ∃ m, m + 1 ≤ ((updateOps s.cfg).map s.cost).sum ∧ State.runFor m s =
      { s with
        drv := .ready
        dcOut := .low
        pb := s.packPlane .red ++ s.pb.drop s.planeSize
        trace := s.trace ++ refreshTrace s.cfg (s.packPlane .black) (s.packPlane .red) n
        env := { s.env with xfers := xs, samples := vs }
        seq := .running [.complete] } := by
  obtain ⟨hx, hv⟩ := hc
  rw [show 6 + n = 4 + (n + 2) by omega, ← piecesTransfers_refreshPieces s.cfg, List.replicate_add, List.append_assoc] at hx
  rw [List.append_cons, ← piecesSamples_refreshPieces] at hv
  have hplanes := State.runFor_planes hp (h.trans (congrArg _ (updateOps_eq s.cfg n))) hx
  generalize hu : s.moved _ _ _ _ _ = u at hplanes
  obtain ⟨m, hm, hrefresh⟩ := State.runFor_pieces (refreshPieces s.cfg n) (s := u) (rest := [.complete])
    (xs := xs) (vs := vs) (by subst hu; exact refreshPieces_ok hn) (by subst hu; rfl) (by subst hu; rfl)
    (by subst hu; exact hv)
  refine ⟨(s.planeSize + 7) + (s.planeSize + 7) + m, ?_, ?_⟩
  · have hcost : u.cost = s.cost := by subst hu; exact (State.moved_frame ..).cost
    rw [State.cost_updateOps s n, ← hcost]
    omega
  · rw [State.runFor_add, hplanes, hrefresh]
    subst hu
    simp [State.moved, piecesDc, piecesReach, piecesTrace, refreshPieces, Piece.trace, refreshTrace, planesTrace]

end Sys2Proof.Machine

namespace Sys2Proof

open Machine

/-- Settles O27: both framed planes, then the refresh, then the completion. -/
theorem updateRendersBothPlanes : Obligations.UpdateRendersBothPlanes := by
  intro s n xs vs hs ha hd hw hh hn hc
  have hp : 0 < s.planeSize := Nat.mul_pos (by rw [State.stride, ceil8]; omega) hh
  obtain ⟨m, hm, hrun⟩ := State.runFor_updateOps (s := s.accept (updateOps s.cfg)) hp rfl hn hc
  rw [exec_eq_execute, requestOps_update ha hd]
  refine congrArg _ (State.execute_eq (n := m + 1) hs ?_ rfl hm)
  refine (State.runFor_add m 1 (s.accept (updateOps s.cfg))).trans ?_
  rw [hrun]
  rfl

end Sys2Proof

namespace Sys2Proof.Machine

/-! ### Transfers, whatever the transport answers (43_panel_driver.md R203, 42_renderer.md R177) -/

/-- From `s` to `t`, statements were performed whose transfers all moved: `es` was emitted and `rest` is left. -/
structure Moved (es : List Event) (rest : List SeqOp) (s t : State) : Prop extends DriverFrame s t where
  seq   : t.seq = .running rest
  trace : t.trace = s.trace ++ es
  drv   : t.drv = s.drv

/-- From `s` to `t`, the request ended in a transfer error after a beginning of the events `es`. -/
structure Stopped (es : List Event) (s t : State) : Prop where
  seq        : t.seq = .idle
  trace      : ∃ k ≤ es.length, t.trace = s.trace ++ (es.take k ++ [.xferErr])
  lastResult : t.lastResult = .transferError
  drv        : t.drv = s.drv

theorem Moved.trans {es es' : List Event} {rest rest' : List SeqOp} {s t u : State} (h : Moved es rest s t)
    (k : Moved es' rest' t u) : Moved (es ++ es') rest' s u :=
  ⟨h.toDriverFrame.trans k.toDriverFrame, k.seq, by rw [k.trace, h.trace, List.append_assoc], k.drv.trans h.drv⟩

/-- Events that moved before the failing transfer's. -/
theorem Moved.stopped {es es' : List Event} {rest : List SeqOp} {s t u : State} (h : Moved es rest s t)
    (k : Stopped es' t u) : Stopped (es ++ es') s u := by
  obtain ⟨n, hn, htr⟩ := k.trace
  refine ⟨k.seq, ⟨es.length + n, by rw [List.length_append]; omega, ?_⟩, k.lastResult, k.drv.trans h.drv⟩
  rw [htr, h.trace, List.take_length_add_append, List.append_assoc, List.append_assoc]

/-- Events that come after the failing transfer's. -/
theorem Stopped.append {es : List Event} {s t : State} (h : Stopped es s t) (es' : List Event) :
    Stopped (es ++ es') s t := by
  obtain ⟨n, hn, htr⟩ := h.trace
  exact ⟨h.seq, ⟨n, by rw [List.length_append]; omega, by rw [List.take_append_of_le_length hn, htr]⟩,
    h.lastResult, h.drv⟩

/-- With the framebuffer of `s`, the statements emit `es` and go on, or stop in a transfer error on the way, within their
cost. -/
def Sends (s : State) (ops : List SeqOp) (es : List Event) : Prop :=
  ∀ t rest, DriverFrame s t → t.seq = .running (ops ++ rest) →
    ∃ n ≤ (ops.map s.cost).sum, Moved es rest t (State.runFor n t) ∨ Stopped es t (State.runFor n t)

theorem Sends.append {s : State} {ops ops' : List SeqOp} {es es' : List Event} (h : Sends s ops es)
    (h' : Sends s ops' es') : Sends s (ops ++ ops') (es ++ es') := by
  intro t rest hf hq
  rw [List.append_assoc] at hq
  obtain ⟨n, hn, hm | hs⟩ := h t (ops' ++ rest) hf hq
  · obtain ⟨n', hn', h''⟩ := h' (State.runFor n t) rest (hf.trans hm.toDriverFrame) hm.seq
    refine ⟨n + n', by rw [List.map_append, List.sum_append]; omega, ?_⟩
    rw [State.runFor_add]
    exact h''.imp hm.trans hm.stopped
  · exact ⟨n, by rw [List.map_append, List.sum_append]; omega, .inr (hs.append es')⟩

theorem sends_driveDc (s : State) (v : Level) : Sends s [.driveDc v] [] := by
  intro t rest _ hq
  refine ⟨1, le_rfl, .inl ?_⟩
  rw [State.runFor_cons (op := .driveDc v) (rest := rest) hq]
  exact ⟨State.perform_frame rfl rest t, rfl, (List.append_nil _).symm, rfl⟩

theorem sends_xfer (s : State) (dc : Level) (bs : List Byte) : Sends s [.xfer dc bs] (bs.map (Event.byte dc)) := by
  intro t rest _ hq
  have hcost : ([SeqOp.xfer dc bs].map s.cost).sum = bs.length + 2 := rfl
  by_cases hb : bs = []
  · subst hb
    refine ⟨1, by omega, .inl ?_⟩
    rw [State.runFor_cons (op := .xfer dc []) (rest := rest) hq]
    exact ⟨State.perform_frame rfl rest t, rfl, (List.append_nil _).symm, rfl⟩
  · cases ha : t.xferAnswer with
    | ok =>
      refine ⟨bs.length + 1, by omega, .inl ?_⟩
      rw [State.runFor_xfer_ok hb hq ha]
      exact ⟨⟨rfl, rfl, rfl, rfl, rfl, rfl, rfl, rfl, rfl, rfl, rfl, rfl, rfl⟩, rfl, rfl, rfl⟩
    | err k =>
      have hk : (bs.take k).length ≤ bs.length := List.length_take_le' k bs
      refine ⟨(bs.take k).length + 2, by omega, .inr ?_⟩
      rw [State.runFor_xfer_err hb hq ha]
      refine ⟨rfl, ⟨(bs.take k).length, by simp, ?_⟩, rfl, rfl⟩
      simp

theorem sends_sendCommand (s : State) (b : Byte) : Sends s (sendCommand b) [.byte dcCommandLevel b] :=
  (sends_driveDc s _).append (sends_xfer s _ [b])

theorem sends_sendPackedPlane (s : State) (p : Plane) : Sends s (sendPackedPlane p) (dataTrace (s.packPlane p)) := by
  intro t rest hf hq
  have hcost : ((sendPackedPlane p).map s.cost).sum = s.planeSize + 5 := by
    simp [sendPackedPlane, State.cost]; omega
  have hprep : Moved [] (.xfer dcDataLevel (s.packPlane p) :: rest) t (State.runFor 3 t) := by
    rw [State.runFor_sendPackedPlane hq, ← hf.packPlane]
    exact ⟨⟨rfl, rfl, rfl, rfl, rfl, rfl, rfl, rfl, rfl, rfl, rfl, rfl, rfl⟩, rfl, (List.append_nil _).symm, rfl⟩
  obtain ⟨n, hn, h⟩ :=
    sends_xfer s dcDataLevel (s.packPlane p) (State.runFor 3 t) rest (hf.trans hprep.toDriverFrame) hprep.seq
  have hlen : n ≤ s.planeSize + 2 := (s.length_packPlane p) ▸ hn
  refine ⟨3 + n, by omega, ?_⟩
  rw [State.runFor_add]
  exact h.imp hprep.trans hprep.stopped

/-- UPDATE up to its refresh command (42_renderer.md R176). -/
def transmitOps (c : Config) : List SeqOp :=
  sendCommand c.cmdStartBw ++ sendPackedPlane .black ++ sendCommand c.cmdStartRed ++ sendPackedPlane .red
    ++ sendCommand c.cmdRefresh

/-- UPDATE after its refresh command, but for its end. -/
def settleOps : List SeqOp := .delay .refreshSettle :: waitBusy

theorem updateOps_eq_transmit (c : Config) :
    updateOps c = transmitOps c ++ (settleOps ++ [.setDrv .ready, .complete]) := by
  simp [updateOps, transmitOps, settleOps]

theorem sends_transmitOps (s : State) :
    Sends s (transmitOps s.cfg) (planesTrace s.cfg (s.packPlane .black) (s.packPlane .red)) := by
  have h := ((((sends_sendCommand s s.cfg.cmdStartBw).append (sends_sendPackedPlane s .black)).append
    (sends_sendCommand s s.cfg.cmdStartRed)).append (sends_sendPackedPlane s .red)).append
    (sends_sendCommand s s.cfg.cmdRefresh)
  simpa [planesTrace, transmitOps] using h

/-! ### A run only adds to the trace -/

theorem State.trace_prefix_runFor (n : Nat) (s : State) : s.trace <+: (State.runFor n s).trace :=
  State.runFor_induct (P := fun t => s.trace <+: t.trace)
    (fun t op rest h _ => by rw [State.perform_trace]; exact h.trans (List.prefix_append _ _)) n s (List.prefix_refl _)

/-! ### A request that ends with `DRV_STATE <- d ; complete(0x00)` ends in `d` when it succeeds -/

/-- A statement that is not quiet ends its request only in an error. -/
theorem State.perform_error {op : SeqOp} {rest : List SeqOp} {s : State} (hq : op.quiet = false)
    (h : (s.perform op rest).seq = .idle) : (s.perform op rest).lastResult ≠ .ok := by
  have goes : ∀ ops, (s.perform op rest).seq = .running ops → (s.perform op rest).lastResult ≠ .ok :=
    fun ops hr => by rw [h] at hr; exact absurd hr nofun
  cases op with
  | effect _ | raise _ | complete | completeRead => exact absurd hq.symm Bool.false_ne_true
  | xferFail => exact nofun
  | busSetup =>
    cases ha : s.setupAnswer with
    | ok => exact goes rest (by simp [State.perform, ha])
    | fail => simp [State.perform, ha]
  | xfer dc bs =>
    obtain ⟨ops, ho⟩ : ∃ ops, (s.perform (.xfer dc bs) rest).seq = .running ops := by
      unfold State.perform; dsimp only; split <;> exact ⟨_, rfl⟩
    exact goes ops ho
  | sample n =>
    revert h
    simp only [State.perform, State.afterSample]
    split
    · exact fun h => absurd h nofun
    · split
      · exact fun _ => nofun
      · exact fun h => absurd h nofun
  | _ => exact goes _ rfl

/-- What is left of a request that writes `d` to DRV_STATE right before its completion: statements that are not quiet, and
after them that end, or none of it once a transfer has failed; its completion alone; or nothing. -/
inductive CompletesIn (d : DrvState) (s : State) : Prop
  | going (ops last : List SeqOp) (seq : s.seq = .running (ops ++ last)) (loud : ∀ op ∈ ops, op.quiet = false)
      (tail : last = [] ∨ last = [.setDrv d, .complete])
  | completing (seq : s.seq = .running [.complete]) (drv : s.drv = d)
  | ended (seq : s.seq = .idle) (drv : s.lastResult = .ok → s.drv = d)

theorem CompletesIn.perform {d : DrvState} {s : State} {op : SeqOp} {rest : List SeqOp} (h : CompletesIn d s)
    (hs : s.seq = .running (op :: rest)) : CompletesIn d (s.perform op rest) := by
  have loud_of : ∀ new : List SeqOp, new.all (fun op => !op.isEffect && !op.quiet) = true →
      ∀ op ∈ new, op.quiet = false := by
    intro new hn op ho
    have hop := List.all_eq_true.1 hn op ho
    simp only [Bool.and_eq_true, Bool.not_eq_true'] at hop
    exact hop.2
  cases h with
  | ended seq _ => rw [seq] at hs; exact absurd hs nofun
  | completing seq drv => rw [seq] at hs; cases hs; exact .ended rfl fun _ => drv
  | going ops last seq loud tail =>
    rw [seq] at hs
    cases ops with
    | nil =>
      obtain rfl | rfl := tail
      · exact absurd hs nofun
      · cases hs; exact .completing rfl rfl
    | cons o ops =>
      cases hs
      obtain ⟨hop, hops⟩ := List.forall_mem_cons.1 loud
      obtain h1 | h1 | ⟨new, h1, h2⟩ | ⟨new, h1, h2⟩ := State.perform_left op (ops ++ last) s
      · exact .ended h1 fun hok => absurd hok (State.perform_error hop h1)
      · exact .going ops last h1 hops tail
      · exact .going (new ++ ops) last (by rw [List.append_assoc]; exact h1)
          (List.forall_mem_append.2 ⟨loud_of new h2, hops⟩) tail
      · exact .going (new ++ [.xferFail]) [] (by rw [List.append_nil]; exact h1)
          (List.forall_mem_append.2 ⟨loud_of new h2, List.forall_mem_singleton.2 rfl⟩) (.inl rfl)

theorem CompletesIn.drv_of_ok {d : DrvState} {s : State} (h : CompletesIn d s) (hs : s.seq = .idle)
    (hok : s.lastResult = .ok) : s.drv = d := by
  cases h with
  | going _ _ seq _ _ => rw [seq] at hs; exact absurd hs nofun
  | completing _ drv => exact drv
  | ended _ drv => exact drv hok

theorem completesIn_accept_updateOps (s : State) : CompletesIn .ready (s.accept (updateOps s.cfg)) :=
  .going (transmitOps s.cfg ++ settleOps) _
    (by rw [List.append_assoc, ← updateOps_eq_transmit]; rfl)
    (fun op ho => by
      have hl : (transmitOps s.cfg ++ settleOps).all (fun op => !op.quiet) = true := rfl
      simpa using List.all_eq_true.1 hl op ho)
    (.inr rfl)

end Sys2Proof.Machine

namespace Sys2Proof

open Machine

/-- Settles O29: UPDATE's statements up to its refresh command send the planes or stop in a transfer error, and what follows
them only adds to the trace. -/
theorem updateTransmissionGuarantees : Obligations.UpdateTransmissionGuarantees := by
  intro s t hs ha hd ht
  have hrun : t = State.runFor ((updateOps s.cfg).map s.cost).sum (s.accept (updateOps s.cfg)) := by
    rw [exec_eq_execute, requestOps_update ha hd] at ht
    cases ht
    rw [State.execute_eq_run, State.run, show (s.accept (updateOps s.cfg)).slice = none from hs]
    rfl
  have hend : CompletesIn .ready t := by
    rw [hrun]
    exact State.runFor_induct (fun _ _ _ h hq => h.perform hq) _ _ (completesIn_accept_updateOps s)
  refine ⟨hend.drv_of_ok, ?_⟩
  obtain ⟨n, hn, h⟩ := sends_transmitOps s (s.accept (updateOps s.cfg)) (settleOps ++ [.setDrv .ready, .complete])
    ⟨rfl, rfl, rfl, rfl, rfl, rfl, rfl, rfl, rfl, rfl, rfl, rfl, rfl⟩ (congrArg _ (updateOps_eq_transmit s.cfg))
  obtain ⟨m, hm⟩ : ∃ m, ((updateOps s.cfg).map s.cost).sum = n + m := by
    refine Nat.exists_eq_add_of_le (hn.trans ?_)
    rw [updateOps_eq_transmit, List.map_append, List.sum_append]
    exact Nat.le_add_right _ _
  rw [hm, State.runFor_add] at hrun
  generalize State.runFor n (s.accept (updateOps s.cfg)) = u at h hrun
  obtain hmoved | hstop := h
  · obtain ⟨es, hes⟩ := State.trace_prefix_runFor m u
    rw [← hrun, hmoved.trace, List.append_assoc] at hes
    exact ⟨_, hes.symm, .inr (List.prefix_append _ _)⟩
  · rw [State.runFor_ended (by rw [hstop.seq]; rfl)] at hrun
    subst hrun
    obtain ⟨k, hk, htr⟩ := hstop.trace
    exact ⟨_, htr, .inl ⟨k, hk, rfl, hstop.lastResult, hstop.drv⟩⟩

end Sys2Proof

end

section
/-! PROOFS. Family 43_panel_driver.md: how far a request has come in an unbounded turn, what a framed transfer, a handshake and
the reset recipe make of that, and with it the driver's requests and INIT, also where one of its pieces fails. -/

namespace Sys2Proof.Machine

open Claims

/-! ### How far a request has come -/

/-- In an unbounded turn, the request `i` accepted in `s` comes to `u`, with `rest` left of it and no more micro-steps taken
than its statements cost. -/
structure Reaches (s : State) (i : Instr) (rest : List SeqOp) (u : State) : Prop where
  slice : s.slice = none
  seq   : u.seq = .running rest
  run   : ∃ n, State.runFor n (s.accept (requestOps s i)) = u ∧
    n + (rest.map u.cost).sum ≤ ((requestOps s i).map s.cost).sum

section Reaches

variable {s u v : State} {i : Instr} {ops rest : List SeqOp}

theorem reaches_start (hs : s.slice = none) (ho : requestOps s i = ops) : Reaches s i ops (s.accept ops) := by
  subst ho
  exact ⟨hs, rfl, 0, rfl, (Nat.zero_add _).le⟩

/-- The next statements of the request, when it goes on after them. -/
theorem Reaches.advance (h : Reaches s i (ops ++ rest) u) {m : Nat} (hrun : State.runFor m u = v)
    (hv : v.seq = .running rest) (hcost : v.cost = u.cost) (hm : m ≤ (ops.map u.cost).sum) : Reaches s i rest v := by
  obtain ⟨hs, -, n, hn, hle⟩ := h
  rw [List.map_append, List.sum_append] at hle
  exact ⟨hs, hv, n + m, by rw [State.runFor_add, hn, hrun], by rw [hcost]; omega⟩

/-- The next statements of the request, when it ends with them. -/
theorem Reaches.answer (h : Reaches s i (ops ++ rest) u) {m : Nat} (hrun : State.runFor m u = v)
    (hv : v.seq.isRunning = false) (hm : m ≤ (ops.map u.cost).sum) : exec i s = .next v := by
  obtain ⟨hs, -, n, hn, hle⟩ := h
  rw [List.map_append, List.sum_append] at hle
  rw [exec_eq_execute]
  refine congrArg _ (State.execute_eq (n := n + m) hs ?_ hv (by omega))
  exact (State.runFor_add n m (s.accept (requestOps s i))).trans (by rw [hn, hrun])

/-- A request of which its completion is left (60_exceptions.md R302). -/
theorem Reaches.complete (h : Reaches s i [.complete] u) : exec i s = .next (answered u .ok 0x00) :=
  h.answer (ops := [.complete]) (rest := []) (m := 1) (State.runFor_cons h.seq 0) rfl le_rfl

/-- `DRV_STATE <- d` -/
theorem Reaches.setDrv {d : DrvState} (h : Reaches s i (.setDrv d :: rest) u) :
    Reaches s i rest (State.goto rest { u with drv := d }) :=
  h.advance (ops := [.setDrv d]) (m := 1) (State.runFor_cons h.seq 0) rfl (State.cost_congr rfl rfl rfl) le_rfl

/-- The DC pin before a transfer (43_panel_driver.md R200 to R202). -/
theorem Reaches.driveDc {dc : Level} (h : Reaches s i (.driveDc dc :: rest) u) :
    Reaches s i rest (State.goto rest { u with dcOut := .ofLevel dc }) :=
  h.advance (ops := [.driveDc dc]) (m := 1) (State.runFor_cons h.seq 0) rfl (State.cost_congr rfl rfl rfl) le_rfl

/-! ### A framed transfer (43_panel_driver.md R200 to R203) -/

section Framed

variable {dc : Level} {bs : List Byte}

/-- An empty transfer draws no answer (43_panel_driver.md R203). -/
theorem Reaches.framed_nil (h : Reaches s i (.driveDc dc :: .xfer dc [] :: rest) u) :
    Reaches s i rest { u with dcOut := .ofLevel dc, seq := .running rest } :=
  h.driveDc.advance (ops := [.xfer dc []]) (m := 1) (State.runFor_cons h.driveDc.seq 0) rfl (State.cost_congr rfl rfl rfl)
    (Nat.le_add_left 1 1)

theorem Reaches.framed_ok (h : Reaches s i (.driveDc dc :: .xfer dc bs :: rest) u) (hb : bs ≠ [])
    (ha : u.xferAnswer = .ok) :
    Reaches s i rest
      { u.drawXfer with
        dcOut := .ofLevel dc
        trace := u.trace ++ bs.map (Event.byte dc)
        seq := .running rest } :=
  h.driveDc.advance (ops := [.xfer dc bs]) (State.runFor_xfer_ok hb rfl ha) rfl (State.cost_congr rfl rfl rfl)
    (Nat.le_succ _)

theorem Reaches.framed_err (h : Reaches s i (.driveDc dc :: .xfer dc bs :: rest) u) (hb : bs ≠ []) {k : Nat}
    (ha : u.xferAnswer = .err k) :
    exec i s = .next
      { failed u.drawXfer .transferError with
        dcOut := .ofLevel dc
        trace := u.trace ++ ((bs.take k).map (Event.byte dc) ++ [.xferErr]) } :=
  h.driveDc.answer (ops := [.xfer dc bs]) (State.runFor_xfer_err hb rfl ha) rfl
    (Nat.add_le_add_right (List.length_take_le' k bs) 2)

end Framed

/-! ### A handshake (43_panel_driver.md R205) -/

section Handshake

variable {n : Nat} {xs : List XferAnswer} {vs : List Level}

theorem cost_waitBusy (u : State) : (waitBusy.map u.cost).sum = 7 * u.pollsLeft 0 + 1 := rfl

theorem Reaches.handshake_ok (h : Reaches s i (waitBusy ++ rest) u) (hn : withinLimit u n) (hc : calm u (n + 1) n xs vs) :
    Reaches s i rest
      { u with
        dcOut := .low
        trace := u.trace ++ handshakeTrace u.cfg n
        env := { u.env with xfers := xs, samples := vs }
        seq := .running rest } := by
  have hp := State.pollsLeft_ge hn
  exact h.advance (State.runFor_waitBusy n h.seq hc.1 hc.2 hn.2) rfl (State.cost_congr rfl rfl rfl)
    (by rw [cost_waitBusy]; omega)

theorem Reaches.handshake_notResponding (h : Reaches s i (waitBusy ++ rest) u) (hl : u.pollLimit ≠ 0#32)
    (hx : u.env.xfers = List.replicate u.pollLimit.toNat .ok ++ xs)
    (hv : u.env.samples = List.replicate u.pollLimit.toNat u.cfg.busyActiveLevel ++ vs) :
    exec i s = .next
      { failed u .notResponding with
        dcOut := .low
        trace := u.trace ++ busyPolls u.cfg u.pollLimit.toNat
        env := { u.env with xfers := xs, samples := vs } } := by
  have hp := State.pollsLeft_zero hl
  exact h.answer (State.runFor_waitBusy_notResponding h.seq hl hx hv) rfl (by rw [cost_waitBusy]; omega)

theorem Reaches.handshake_err (h : Reaches s i (waitBusy ++ rest) u) (hn : withinLimit u n) {k : Nat}
    (hx : u.env.xfers = List.replicate n .ok ++ .err k :: xs)
    (hv : u.env.samples = List.replicate n u.cfg.busyActiveLevel ++ vs) :
    exec i s = .next
      { failed u .transferError with
        dcOut := .low
        trace := u.trace ++ (busyPolls u.cfg n ++ ([.byte false u.cfg.cmdGetStatus].take k ++ [.xferErr]))
        env := { u.env with xfers := xs, samples := vs } } := by
  have hp := State.pollsLeft_ge hn
  have hk : ([u.cfg.cmdGetStatus].take k).length ≤ 1 := List.length_take_le' k _
  exact h.answer (State.runFor_waitBusy_err n k h.seq hx hv hn.2) rfl (by rw [cost_waitBusy]; omega)

end Handshake

/-! ### The reset recipe (43_panel_driver.md R206) -/

/-- The recipe's statements, up to its handshake. -/
def recipeOps : List SeqOp :=
  [.driveRst true, .delay .rstHigh1, .driveRst false, .delay .rstLow, .driveRst true, .delay .rstHigh2]

theorem hardReset_eq : hardReset = recipeOps ++ (waitBusy ++ [.setDrv .resetComplete]) := rfl

theorem State.runFor_recipe (h : u.seq = .running (recipeOps ++ rest)) :
    State.runFor 6 u = { u with rstOut := .high, trace := u.trace ++ recipeTrace, seq := .running rest } := by
  rw [State.runFor_cons h]
  simp [State.runFor, State.perform, State.goto, State.emit, recipeTrace, PinLevel.ofLevel]

theorem Reaches.recipe (h : Reaches s i (recipeOps ++ rest) u) :
    Reaches s i rest { u with rstOut := .high, trace := u.trace ++ recipeTrace, seq := .running rest } :=
  h.advance (State.runFor_recipe h.seq) rfl (State.cost_congr rfl rfl rfl) le_rfl

end Reaches

end Sys2Proof.Machine

namespace Sys2Proof

open Machine Claims

/-! ### BusGuard, SEND_CMD, SEND_DATA and SEND_BUF -/

/-- Settles O30: in UNINIT each of the five comes to one raise. -/
theorem busGuardRefusesInUninit : Obligations.BusGuardRefusesInUninit := by
  intro s b bs hg hu
  exact ⟨exec_of_raise hg (if_pos hu), exec_of_raise hg (if_pos hu), exec_of_raise hg (if_pos hu),
    exec_of_raise hg (if_pos hu), exec_of_raise hg (if_pos hu)⟩

/-- Settles O31: two guards, then a framed command byte. -/
theorem sendCmdResult : Obligations.SendCmdResult := by
  intro s b
  refine ⟨?_, fun hg hu => exec_of_raise hg (if_pos hu),
    fun hg hu hb hd => exec_of_raise hg ((if_neg hu).trans (if_pos ⟨hb, decide_eq_true hd⟩)), fun hs hu hb => ?_⟩
  · simpa [encodeHeader, headerXY_eq] using decodeBeats_header (i := .sendCmd b) rfl rfl
  · have hr : ¬ (b = s.cfg.cmdRefresh ∧ s.drv.below .initApplied = true) := by
      rintro ⟨he, hd⟩
      exact hb.elim (absurd he) (Nat.not_le.2 (of_decide_eq_true hd))
    have h := reaches_start hs (show requestOps s (.sendCmd b) = _ from (if_neg hu).trans (if_neg hr))
    exact ⟨fun ha => (h.framed_ok (List.cons_ne_nil b []) ha).complete, fun k ha => by
      rw [h.framed_err (List.cons_ne_nil b []) ha, List.map_take]
      rfl⟩

/-- Settles O32: BusGuard, then a framed data byte. -/
theorem sendDataResult : Obligations.SendDataResult := by
  intro s b
  have reaches (hs : s.slice = none) (hu : s.drv ≠ .uninit) :=
    reaches_start hs (show requestOps s (.sendData b) = _ from if_neg hu)
  refine ⟨?_, fun hg hu => exec_of_raise hg (if_pos hu),
    fun hs hu ha => ((reaches hs hu).framed_ok (List.cons_ne_nil b []) ha).complete, fun hs hu k ha => ?_⟩
  · simpa [encodeHeader, headerXY_eq] using decodeBeats_header (i := .sendData b) rfl rfl
  · rw [(reaches hs hu).framed_err (List.cons_ne_nil b []) ha, List.map_take]
    rfl

/-- Settles O33: the payload is one framed transfer, which draws no answer when it is empty. -/
theorem sendBufResult : Obligations.SendBufResult := by
  intro s bs hs hu
  have h := reaches_start hs (show requestOps s (.sendBuf bs) = _ from if_neg hu)
  refine ⟨?_, fun hb ha => (h.framed_ok hb ha).complete, fun hb k ha => h.framed_err hb ha⟩
  rintro rfl
  exact h.framed_nil.complete

/-! ### WAIT_BUSY and HARD_RESET -/

/-- Settles O34: one handshake. -/
theorem waitBusyResult : Obligations.WaitBusyResult := by
  intro s n xs vs hs hu
  have h := reaches_start hs (show requestOps s .waitBusy = waitBusy ++ [.complete] from if_neg hu)
  exact ⟨fun hn hc => (h.handshake_ok hn hc).complete, h.handshake_notResponding, fun hn k => h.handshake_err hn⟩

/-- Settles O35: the recipe, one handshake, and RESET_COMPLETE after it. -/
theorem hardResetResult : Obligations.HardResetResult := by
  intro s n xs vs hs hu
  have h := (reaches_start hs (show requestOps s .hardReset = recipeOps ++ (waitBusy ++ [.setDrv .resetComplete, .complete])
    from if_neg hu)).recipe
  refine ⟨fun hn hc => ?_, fun hl hx hv => ?_, fun hn k hx hv => ?_⟩
  · rw [(h.handshake_ok hn hc).setDrv.complete, List.append_assoc]
    rfl
  · rw [h.handshake_notResponding hl hx hv, List.append_assoc]
    rfl
  · rw [h.handshake_err hn hx hv, List.append_assoc, List.append_assoc]
    rfl

end Sys2Proof

namespace Sys2Proof.Machine

open Claims

/-! ### INIT up to one of its pieces -/

/-- The pieces of INIT that draw no answer before its first handshake. -/
def initStart : List Piece := [.say [.rst true], .reach .busConfigured, .say recipeTrace]

theorem initPieces_eq_append (c : Config) (ns : Nat → Nat) : initPieces c ns = initStart ++ initTail c ns :=
  initPieces_eq c ns

/-- A piece of INIT that transfers comes after its start. -/
theorem initPieces_split {c : Config} {ns : Nat → Nat} {pre post : List Piece} {p : Piece} (hp : p.transfers ≠ 0)
    (h : initPieces c ns = pre ++ p :: post) : ∃ mid, pre = initStart ++ mid ∧ initTail c ns = mid ++ p :: post := by
  have hcut : ∀ q ∈ initStart, q.transfers = 0 := by decide
  rw [initPieces_eq_append] at h
  obtain ⟨mid, hpre, htail⟩ | ⟨mid, hstart, htail⟩ := List.append_eq_append_iff.1 h
  · exact ⟨mid, hpre, htail⟩
  · cases mid with
    | nil => exact ⟨[], by simpa using hstart.symm, htail.symm⟩
    | cons q mid =>
      obtain ⟨rfl, -⟩ := List.cons.inj htail
      exact absurd (hcut p (by simp [hstart])) hp

theorem requestOps_init {s : State} (hf : s.faults.getLsbD 6 = false) : requestOps s .init = initOps s.cfg :=
  if_neg (by rw [hasFault, ResultCode.num, hf]; exact Bool.false_ne_true)

/-- INIT, accepted in `s`, where its pieces `ps` have succeeded: `env` are the answers and `rest` the statements left. -/
def State.initAt (ps : List Piece) (env : Environment) (rest : List SeqOp) (s : State) : State :=
  { s with
    opBusy := true
    drv := piecesReach .uninit ps
    pinsConfigured := true
    rstOut := .high
    dcOut := piecesDc .low ps
    trace := s.trace ++ ([.cfg, .setup .ok] ++ piecesTrace s.cfg ps)
    env := env
    seq := .running rest }

section Init

variable {s : State} {ns : Nat → Nat} {ss : List SetupAnswer} {xs : List XferAnswer} {vs : List Level}
  (hs : s.slice = none) (hwf : s.cfg.wf = true) (hf : s.faults.getLsbD 6 = false)
  (hw : ∀ j, j < initHandshakes s.cfg → withinLimit s (ns j))

include hs hwf hf hw

theorem reaches_initAt {mid post : List Piece} (hsp : initTail s.cfg ns = mid ++ post)
    (he : s.env = ⟨.ok :: ss, List.replicate (piecesTransfers (initStart ++ mid)) .ok ++ xs,
      piecesSamples s.cfg (initStart ++ mid) ++ vs⟩) :
    Reaches s .init (piecesOps post ++ [.complete])
      (s.initAt (initStart ++ mid) ⟨ss, xs, vs⟩ (piecesOps post ++ [.complete])) := by
  have hT : piecesTransfers (initStart ++ mid) = piecesTransfers mid := by
    simp [piecesTransfers, initStart, Piece.transfers]
  have htr : ([.cfg, .setup .ok] : List Event) ++ piecesTrace s.cfg (initStart ++ mid) =
      [.cfg, .setup .ok, .rst true] ++ recipeTrace ++ piecesTrace s.cfg mid := by
    simp [piecesTrace, initStart, Piece.trace]
  obtain ⟨n, hn, hrun⟩ := State.runFor_init hwf hw hsp (hT ▸ he)
  refine ⟨hs, rfl, n, ?_, ?_⟩
  · rw [requestOps_init hf, State.initAt, htr]
    exact hrun
  · rw [requestOps_init hf, List.map_append, List.sum_append, ← Nat.add_assoc]
    exact hn

/-- INIT comes to each piece that transfers when the ones before it succeed. -/
theorem reaches_initPiece {pre post : List Piece} {p : Piece} (hsp : initPieces s.cfg ns = pre ++ p :: post)
    (hp : p.transfers ≠ 0)
    (he : s.env = ⟨.ok :: ss, List.replicate (piecesTransfers pre) .ok ++ xs, piecesSamples s.cfg pre ++ vs⟩) :
    p.ok s ∧ Reaches s .init (p.ops ++ (piecesOps post ++ [.complete]))
      (s.initAt pre ⟨ss, xs, vs⟩ (p.ops ++ (piecesOps post ++ [.complete]))) := by
  obtain ⟨mid, rfl, htail⟩ := initPieces_split hp hsp
  have hops : piecesOps (p :: post) ++ [.complete] = p.ops ++ (piecesOps post ++ [.complete]) := by simp [piecesOps]
  exact ⟨initTail_ok hwf hw p (htail ▸ List.mem_append_cons_self), hops ▸ reaches_initAt hs hwf hf hw htail he⟩

end Init

/-! ### Where INIT ends -/

theorem piecesReach_append (d : DrvState) (ps qs : List Piece) :
    piecesReach d (ps ++ qs) = piecesReach (piecesReach d ps) qs := by
  induction ps generalizing d with
  | nil => rfl
  | cons p ps ih => cases p <;> exact ih _

theorem piecesDc_append (d : PinLevel) (ps qs : List Piece) : piecesDc d (ps ++ qs) = piecesDc (piecesDc d ps) qs := by
  induction ps generalizing d with
  | nil => rfl
  | cons p ps ih => cases p <;> exact ih _

theorem piecesReach_initPieces (d : DrvState) (c : Config) (ns : Nat → Nat) : piecesReach d (initPieces c ns) = .ready := by
  rw [initPieces, piecesReach_append]
  rfl

theorem piecesDc_initPieces (d : PinLevel) (c : Config) (ns : Nat → Nat) : piecesDc d (initPieces c ns) = .low := by
  rw [initPieces, piecesDc_append]
  rfl

/-! ### The bus setup that fails (43_panel_driver.md R209, R210) -/

section BusSetup

variable {s u : State} {i : Instr} {rest : List SeqOp}

theorem Reaches.configurePins (h : Reaches s i (.configurePins :: rest) u) :
    Reaches s i rest (State.goto rest u.configurePins) :=
  h.advance (ops := [.configurePins]) (m := 1) (State.runFor_cons h.seq 0) rfl (State.cost_congr rfl rfl rfl) le_rfl

theorem State.perform_busSetup_fail (ha : u.setupAnswer = .fail) :
    u.perform .busSetup rest = failed (u.drawSetup.emit (.setup .fail)) .setupError := by
  simp only [State.perform, ha]
  rfl

theorem Reaches.busSetup_fail (h : Reaches s i (.busSetup :: rest) u) (ha : u.setupAnswer = .fail) :
    exec i s = .next (failed (u.drawSetup.emit (.setup .fail)) .setupError) :=
  h.answer (ops := [.busSetup]) (m := 1) ((State.runFor_cons h.seq 0).trans (State.perform_busSetup_fail ha)) rfl le_rfl

end BusSetup

end Sys2Proof.Machine

namespace Sys2Proof

open Machine Claims

/-- Settles O36: the latch is INIT's one check, and a failed bus setup is its third statement. -/
theorem initSetupFailure : Obligations.InitSetupFailure := by
  intro s
  refine ⟨fun hg hf => exec_of_raise hg (if_pos hf), fun hs hf ha => ?_⟩
  have h := (reaches_start hs (requestOps_init hf)).setDrv.configurePins
  rw [h.busSetup_fail ha, List.append_cons s.trace]
  rfl

/-- Settles O37: all of INIT's pieces succeed. -/
theorem initBringsThePanelUp : Obligations.InitBringsThePanelUp := by
  intro s ns ss xs vs hs hwf hf hw he
  rw [initPieces_eq_append] at he
  have h := (reaches_initAt hs hwf hf hw (List.append_nil _).symm he).complete
  rw [← initPieces_eq_append, State.initAt, piecesDc_initPieces, piecesReach_initPieces] at h
  exact h

/-- Settles O56: INIT reaches the piece that fails, and that piece's transfer or handshake ends it. -/
theorem initStopsAtThePieceThatFails : Obligations.InitStopsAtThePieceThatFails := by
  intro s ns pre post p ss xs vs hs hwf hf hw hsp
  refine ⟨?_, ?_, ?_⟩
  · rintro dc bs k rfl he
    obtain ⟨hb, h⟩ := reaches_initPiece hs hwf hf hw hsp Nat.one_ne_zero he
    rw [h.framed_err hb rfl, State.initAt]
    simp only [List.append_assoc]
    rfl
  · rintro m k rfl he
    rw [List.replicate_add, List.append_assoc, List.append_assoc] at he
    obtain ⟨hm, h⟩ := reaches_initPiece hs hwf hf hw hsp (Nat.succ_ne_zero m) he
    rw [h.handshake_err hm rfl rfl, State.initAt]
    simp only [List.append_assoc]
    rfl
  · rintro m rfl hl he
    rw [List.replicate_add, List.append_assoc, List.append_assoc] at he
    obtain ⟨-, h⟩ := reaches_initPiece hs hwf hf hw hsp (Nat.succ_ne_zero m) he
    rw [h.handshake_notResponding hl rfl rfl, State.initAt]
    simp only [List.append_assoc]
    rfl

end Sys2Proof

end

section
/-! PROOFS. Family 44_host_macros.md: executing a list of FB_PIXEL requests paints exactly the cells it names, FILL and BITMAP as
one raster scan of `Plot`s, and the requests of LINE and RECT where their endpoints are in bounds. -/

namespace Sys2Proof.Machine

open Claims

/-! ### Executing pixels paints the cells they name -/

/-- No two pixels of the framebuffer share a cell (20_memory.md R71). -/
theorem State.fbIdx_injective {s : State} {i j i' j' : Nat} (hi : i < s.fbW.toNat) (hi' : i' < s.fbW.toNat)
    (h : s.fbIdx i j = s.fbIdx i' j') : i = i' ∧ j = j' := by
  have hmod := congrArg (· % s.fbW.toNat) h
  have hdiv := congrArg (· / s.fbW.toNat) h
  have hW : 0 < s.fbW.toNat := Nat.zero_lt_of_lt hi
  simp only [State.fbIdx, Nat.mul_comm _ s.fbW.toNat, Nat.mul_add_mod, Nat.mul_add_div hW, Nat.mod_eq_of_lt hi,
    Nat.mod_eq_of_lt hi', Nat.div_eq_of_lt hi, Nat.div_eq_of_lt hi', Nat.add_zero] at hmod hdiv
  exact ⟨hmod, hdiv⟩

/-- The request that names the cell of column `i` and row `j`. -/
def pixelAt (c : Byte) (i j : Nat) : Instr := .fbPixel (BitVec.ofNat 16 i) (BitVec.ofNat 16 j) c

theorem bitVecOfNat_eq_iff {n i : Nat} (hi : i < 2 ^ n) {x : BitVec n} : BitVec.ofNat n i = x ↔ i = x.toNat := by
  rw [← BitVec.toNat_inj, BitVec.toNat_ofNat, Nat.mod_eq_of_lt hi]

theorem pixelAt_eq_iff {c : Byte} {i j : Nat} (hi : i < 2 ^ 16) (hj : j < 2 ^ 16) {x y : BitVec 16} :
    pixelAt c i j = .fbPixel x y c ↔ i = x.toNat ∧ j = y.toNat := by
  simp [pixelAt, bitVecOfNat_eq_iff hi, bitVecOfNat_eq_iff hj]

/-- What the requests `is` leave of the framebuffer of `s` in `t`: its dimensions, the turn and the canonical form are kept,
and the cells that `is` names hold the color `c`. -/
structure Painted (c : Byte) (is : List Instr) (s t : State) : Prop where
  fbW   : t.fbW = s.fbW
  fbH   : t.fbH = s.fbH
  slice : t.slice = s.slice
  wf    : Memory.wf t.fb = true
  cell  : ∀ {i j : Nat}, i < s.fbW.toNat → j < s.fbH.toNat →
    t.fbCell (s.fbIdx i j) = if pixelAt c i j ∈ is then colorCode c else s.fbCell (s.fbIdx i j)

theorem exec_fbPixel_inBounds {s : State} {c : Byte} (hg : granted s 2) (hc : legalColor c = true) {x y : BitVec 16}
    (hb : s.inBounds x y = true) :
    exec (.fbPixel x y c) s =
      .next (answered (s.apply (.writeCell (s.fbIdx x.toNat y.toNat) (colorCode c))) .ok 0x00) :=
  exec_of_effect hg (by simp [requestOps, hc, hb])

/-- One FB_PIXEL of a legal color, in bounds or not (41_framebuffer.md R144). -/
theorem exec_fbPixel_painted {s : State} {c : Byte} (hg : granted s 2) (hc : legalColor c = true)
    (hm : Memory.wf s.fb = true) (x y : BitVec 16) :
    ∃ t, exec (.fbPixel x y c) s = .next t ∧ Painted c [.fbPixel x y c] s t := by
  have mem_iff {i j : Nat} (hi : i < s.fbW.toNat) (hj : j < s.fbH.toNat) :
      pixelAt c i j ∈ [.fbPixel x y c] ↔ i = x.toNat ∧ j = y.toNat :=
    List.mem_singleton.trans (pixelAt_eq_iff (hi.trans s.fbW.isLt) (hj.trans s.fbH.isLt))
  by_cases hb : s.inBounds x y = true
  · refine ⟨_, exec_fbPixel_inBounds hg hc hb, rfl, rfl, rfl, Memory.write_wf hm _ _, fun hi hj => ?_⟩
    split
    · obtain ⟨rfl, rfl⟩ := (mem_iff hi hj).1 ‹_›
      exact State.fbCell_writeCell_same hm _ (State.fbIdx_lt hb)
    · have hne := mt (State.fbIdx_injective hi (State.inBounds_iff.1 hb).1) (mt (mem_iff hi hj).2 ‹_›)
      exact State.fbCell_writeCell_other s _ hne
  · refine ⟨_, exec_of_complete (granted_one hg) (by simp [requestOps, hc, hb]), rfl, rfl, rfl, hm, fun hi hj => ?_⟩
    have hout : ¬ pixelAt c _ _ ∈ [.fbPixel x y c] := fun h => by
      obtain ⟨rfl, rfl⟩ := (mem_iff hi hj).1 h
      exact hb (State.inBounds_iff.2 ⟨hi, hj⟩)
    exact (if_neg hout).symm

theorem Painted.cons {c : Byte} {a : Instr} {is : List Instr} {s t u : State} (h : Painted c [a] s t)
    (h' : Painted c is t u) : Painted c (a :: is) s u where
  fbW := h'.fbW.trans h.fbW
  fbH := h'.fbH.trans h.fbH
  slice := h'.slice.trans h.slice
  wf := h'.wf
  cell := by
    intro i j hi hj
    have hidx : t.fbIdx i j = s.fbIdx i j := by rw [State.fbIdx, h.fbW, State.fbIdx]
    have hu := h'.cell (h.fbW ▸ hi) (h.fbH ▸ hj)
    rw [hidx, h.cell hi hj, ← ite_or] at hu
    exact hu.trans (if_congr (by rw [or_comm, List.mem_singleton, List.mem_cons]) rfl rfl)

/-- The list holds FB_PIXEL requests of the color `c` only. -/
def OnlyPixels (c : Byte) (is : List Instr) : Prop := ∀ a ∈ is, ∃ x y, a = .fbPixel x y c

theorem execAll_cons_of_next {a : Instr} {s t : State} (is : List Instr) (h : exec a s = .next t) :
    execAll (a :: is) s = execAll is t := by
  rw [execAll, h]

/-- By induction on the requests: each completes, and its successor paints in the state it left. -/
theorem execAll_painted {c : Byte} (hc : legalColor c = true) {is : List Instr} (his : OnlyPixels c is) {s : State}
    (hg : granted s 2) (hm : Memory.wf s.fb = true) : ∃ t, execAll is s = .next t ∧ Painted c is s t := by
  induction is generalizing s with
  | nil => exact ⟨s, rfl, rfl, rfl, rfl, hm, fun _ _ => rfl⟩
  | cons a is ih =>
    obtain ⟨⟨x, y, rfl⟩, hrest⟩ := List.forall_mem_cons.1 his
    obtain ⟨t, he, hst⟩ := exec_fbPixel_painted hg hc hm x y
    have hgt : granted t 2 := by rwa [granted, hst.slice]
    obtain ⟨u, hu, htu⟩ := ih hrest hgt hst.wf
    exact ⟨u, (execAll_cons_of_next is he).trans hu, hst.cons htu⟩

/-! ### `Plot` and the raster scan (44_host_macros.md R250, R253, R254) -/

theorem onlyPixels_plot (x y : Int) (c : Byte) : OnlyPixels c (plot x y c) := by
  intro a ha
  rw [plot, List.mem_ite_nil_right] at ha
  exact ⟨_, _, List.mem_singleton.1 ha.2⟩

/-- `Plot` skips no coordinate a framebuffer can hold. -/
theorem pixelAt_mem_plot {x y : Int} {c : Byte} {i j : Nat} (hi : i < 2 ^ 16) (hj : j < 2 ^ 16) :
    pixelAt c i j ∈ plot x y c ↔ x = i ∧ y = j := by
  rw [plot, List.mem_ite_nil_right, List.mem_singleton, pixelAt_eq_iff hi hj, BitVec.toNat_ofInt, BitVec.toNat_ofInt]
  omega

/-- The loops of FILL and BITMAP: the pixels of a `w × h` region that `p` selects by column and row, row by row. -/
def rasterScan (x y : Int) (w h : Nat) (p : Nat → Nat → Bool) (c : Byte) : List Instr :=
  (List.range h).flatMap fun (r : Nat) => (List.range w).flatMap fun (q : Nat) =>
    if p q r then plot (x + q) (y + r) c else []

theorem fillMacro_eq_rasterScan (x y w h : Int) (c : Byte) :
    fillMacro x y w h c = rasterScan x y w.toNat h.toNat (fun _ _ => true) c := rfl

theorem bitmapMacro_of_short {w h : Nat} {data : List Byte} (hl : data.length < ceil8 w * h) (x y : Int) (c : Byte) :
    bitmapMacro x y w h data c = none := if_pos hl

theorem bitmapMacro_eq_rasterScan {w h : Nat} {data : List Byte} (hl : ceil8 w * h ≤ data.length) (x y : Int) (c : Byte) :
    bitmapMacro x y w h data c = some (rasterScan x y w h (bitmapBit w data) c) := if_neg (Nat.not_lt.2 hl)

theorem mem_rasterScan {x y : Int} {w h : Nat} {p : Nat → Nat → Bool} {c : Byte} {a : Instr} :
    a ∈ rasterScan x y w h p c ↔ ∃ r < h, ∃ q < w, p q r = true ∧ a ∈ plot (x + q) (y + r) c := by
  simp only [rasterScan, List.mem_flatMap, List.mem_range, List.mem_ite_nil_right]

theorem onlyPixels_rasterScan (x y : Int) (w h : Nat) (p : Nat → Nat → Bool) (c : Byte) :
    OnlyPixels c (rasterScan x y w h p c) := by
  intro a ha
  obtain ⟨r, -, q, -, -, hp⟩ := mem_rasterScan.1 ha
  exact onlyPixels_plot _ _ c a hp

theorem pixelAt_mem_rasterScan {x y : Int} {w h : Nat} {p : Nat → Nat → Bool} {c : Byte} {i j : Nat} (hi : i < 2 ^ 16)
    (hj : j < 2 ^ 16) :
    pixelAt c i j ∈ rasterScan x y w h p c ↔
      x ≤ i ∧ i < x + w ∧ y ≤ j ∧ j < y + h ∧ p (i - x).toNat (j - y).toNat = true := by
  simp only [mem_rasterScan, pixelAt_mem_plot hi hj]
  constructor
  · rintro ⟨r, hr, q, hq, hp, hxq, hyr⟩
    obtain rfl : q = (i - x).toNat := by omega
    obtain rfl : r = (j - y).toNat := by omega
    exact ⟨by omega, by omega, by omega, by omega, hp⟩
  · rintro ⟨hx, hxw, hy, hyh, hp⟩
    exact ⟨(j - y).toNat, by omega, (i - x).toNat, by omega, hp, by omega, by omega⟩

theorem execAll_rasterScan {s : State} {c : Byte} (hg : granted s 2) (hc : legalColor c = true)
    (hm : Memory.wf s.fb = true) (x y : Int) (w h : Nat) (p : Nat → Nat → Bool) :
    ∃ t, execAll (rasterScan x y w h p c) s = .next t ∧ t.fbW = s.fbW ∧ t.fbH = s.fbH ∧
      ∀ i j : Nat, i < s.fbW.toNat → j < s.fbH.toNat →
        t.fbCell (s.fbIdx i j) =
          if x ≤ i ∧ i < x + w ∧ y ≤ j ∧ j < y + h ∧ p (i - x).toNat (j - y).toNat = true then colorCode c
          else s.fbCell (s.fbIdx i j) := by
  obtain ⟨t, he, ht⟩ := execAll_painted hc (onlyPixels_rasterScan x y w h p c) hg hm
  refine ⟨t, he, ht.fbW, ht.fbH, fun i j hi hj => (ht.cell hi hj).trans ?_⟩
  exact if_congr (pixelAt_mem_rasterScan (hi.trans s.fbW.isLt) (hj.trans s.fbH.isLt)) rfl rfl

/-! ### LINE and RECT (44_host_macros.md R251, R252) -/

theorem cornerInside_iff {d : BitVec 32} {x y : Int} :
    cornerInside d x y = true ↔ 0 ≤ x ∧ x < dimsW d ∧ 0 ≤ y ∧ y < dimsH d := by
  simp [cornerInside, and_assoc]

theorem cornersInside_iff {d : BitVec 32} {x1 y1 x2 y2 : Int} :
    (cornerInside d x1 y1 && cornerInside d x2 y2) = true ↔
      0 ≤ x1 ∧ x1 < dimsW d ∧ 0 ≤ y1 ∧ y1 < dimsH d ∧ 0 ≤ x2 ∧ x2 < dimsW d ∧ 0 ≤ y2 ∧ y2 < dimsH d := by
  simp only [Bool.and_eq_true, cornerInside_iff, and_assoc]

theorem dimsW_lt (d : BitVec 32) : dimsW d < 2 ^ 16 := BitVec.isLt _

theorem dimsH_lt (d : BitVec 32) : dimsH d < 2 ^ 16 := BitVec.isLt _

/-- `Plot` in a column the framebuffer has and at no negative row. -/
theorem plot_of_column {x y : Int} (hx : 0 ≤ x) (hx' : x ≤ 65535) (hy : 0 ≤ y) (c : Byte) :
    plot x y c = (if y ≤ 65535 then some (Instr.fbPixel (BitVec.ofInt 16 x) (BitVec.ofInt 16 y) c) else none).toList := by
  rw [plot, apply_ite Option.toList]
  exact if_congr (by omega) rfl rfl

/-- The request of LINE for its column `k`, none where the row cannot be encoded. -/
def linePoint (x1 y1 x2 y2 : Int) (c : Byte) (k : Nat) : Option Instr :=
  if lineSlope x1 y1 x2 y2 * k + y1 ≤ 65535 then
    some (.fbPixel (BitVec.ofInt 16 (x1 + k)) (BitVec.ofInt 16 (lineSlope x1 y1 x2 y2 * k + y1)) c)
  else none

theorem lineMacro_of_inside {d : BitVec 32} {x1 y1 x2 y2 : Int} (h1 : cornerInside d x1 y1 = true)
    (h2 : cornerInside d x2 y2 = true) (c : Byte) :
    lineMacro d x1 y1 x2 y2 c = (List.range (x2 - x1).toNat).filterMap (linePoint x1 y1 x2 y2 c) := by
  obtain ⟨hx1, -, hy1, -⟩ := cornerInside_iff.1 h1
  obtain ⟨-, hx2, -, -⟩ := cornerInside_iff.1 h2
  have hW := dimsW_lt d
  rw [lineMacro, h1, h2, List.filterMap_eq_flatMap_toList]
  refine List.flatMap_congr fun k hk => ?_
  have hk := List.mem_range.1 hk
  exact plot_of_column (by omega) (by omega) (by positivity) c

theorem lineSlope_mul_horizontal {x1 x2 : Int} {k : Nat} (hk : k < (x2 - x1).toNat) (y : Int) :
    (lineSlope x1 y x2 y : Int) * k = 0 := by
  obtain rfl | hk0 := Nat.eq_zero_or_pos k
  · exact Int.mul_zero _
  · have hdx : 1 < max (x2 - x1).natAbs 1 := by omega
    rw [lineSlope, sub_self, Int.natAbs_zero, Nat.zero_max, Nat.div_eq_of_lt hdx, Nat.cast_zero, zero_mul]

/-- A horizontal LINE is its whole row. -/
theorem lineMacro_horizontal {d : BitVec 32} {x y w : Int} (h1 : cornerInside d x y = true)
    (h2 : cornerInside d (x + w) y = true) (c : Byte) :
    lineMacro d x y (x + w) y c =
      (List.range w.toNat).map fun (k : Nat) => .fbPixel (BitVec.ofInt 16 (x + k)) (BitVec.ofInt 16 y) c := by
  obtain ⟨-, -, -, hyH⟩ := cornerInside_iff.1 h1
  have hH := dimsH_lt d
  have hy : y ≤ 65535 := by omega
  rw [lineMacro_of_inside h1 h2, add_sub_cancel_left]
  refine List.filterMap_eq_map_iff_forall_eq_some.2 fun k hk => ?_
  have hk := List.mem_range.1 hk
  have hslope := lineSlope_mul_horizontal (x1 := x) (x2 := x + w) (k := k) (by omega) y
  rw [linePoint, hslope, zero_add, if_pos hy]

/-- A vertical LINE has no column. -/
theorem lineMacro_vertical (d : BitVec 32) (x y1 y2 : Int) (c : Byte) : lineMacro d x y1 x y2 c = [] := by
  simp [lineMacro]

end Sys2Proof.Machine

namespace Sys2Proof

open Machine

/-- Settles O50: FILL is the raster scan that selects every pixel. -/
theorem fillMacroSetsItsRegionOnly : Obligations.FillMacroSetsItsRegionOnly := by
  intro s x y w h c hg hc hm
  obtain ⟨t, he, hW, hH, hcell⟩ :=
    execAll_rasterScan hg (legalColor_iff.2 hc) hm x y w.toNat h.toNat fun _ _ => true
  refine ⟨t, he, hW, hH, fun i j hi hj => (hcell i j hi hj).trans (if_congr ?_ rfl rfl)⟩
  simp only [and_true]
  omega

/-- Settles O51: the top and bottom LINEs are rows, and the left and right ones draw nothing. -/
theorem rectMacroDrawsItsTopAndBottomRows : Obligations.RectMacroDrawsItsTopAndBottomRows := by
  intro d x y w h c
  refine ⟨fun hout => if_neg (mt cornersInside_iff.1 hout), fun hx hxW hy hyH hx' hxW' hy' hyH' => ?_⟩
  rw [rectMacro, if_pos (cornersInside_iff.2 ⟨hx, hxW, hy, hyH, hx', hxW', hy', hyH'⟩), lineMacro_vertical,
    lineMacro_vertical, List.append_nil, List.append_nil,
    lineMacro_horizontal (cornerInside_iff.2 ⟨hx, hxW, hy, hyH⟩) (cornerInside_iff.2 ⟨hx', hxW', hy, hyH⟩),
    lineMacro_horizontal (cornerInside_iff.2 ⟨hx, hxW, hy', hyH'⟩) (cornerInside_iff.2 ⟨hx', hxW', hy', hyH'⟩)]

/-- Settles O52: in the columns between two endpoints in bounds, `Plot` skips a point for its row alone. -/
theorem lineMacroDrawsOnePointAColumn : Obligations.LineMacroDrawsOnePointAColumn := by
  intro d x1 y1 x2 y2 c
  refine ⟨fun hout => if_neg (mt cornersInside_iff.1 hout), fun hx1 hxW1 hy1 hyH1 hx2 hxW2 hy2 hyH2 => ?_⟩
  exact lineMacro_of_inside (cornerInside_iff.2 ⟨hx1, hxW1, hy1, hyH1⟩) (cornerInside_iff.2 ⟨hx2, hxW2, hy2, hyH2⟩) c

/-- Settles O53: BITMAP is the raster scan that selects the source bits that are 1. -/
theorem bitmapMacroSetsTheSetBits : Obligations.BitmapMacroSetsTheSetBits := by
  intro s x y w h data c
  refine ⟨fun hl => bitmapMacro_of_short hl x y c, fun hg hl hc hm => ?_⟩
  obtain ⟨t, he, -, -, hcell⟩ := execAll_rasterScan hg (legalColor_iff.2 hc) hm x y w h (bitmapBit w data)
  exact ⟨_, t, bitmapMacro_eq_rasterScan hl x y c, he, hcell⟩

end Sys2Proof

end

section
/-! PROOFS. Family 60_exceptions.md: a step in each kind of turn, the request channel where the payload is all there, where it is
not and where there is no header, a run of statements that move no byte, and the one answer of a request whose polls are
bounded. -/

namespace Sys2Proof.Machine

/-! ### A step in each kind of turn -/

theorem step_of_no_turn {s : State} (h : s.turns = []) : step s = advance { s with slice := none } := by
  simp [step, State.takeTurn, h]

theorem step_of_sequencer_turn {s : State} {k : Nat} {ts : List Turn} (h : s.turns = .sequencer k :: ts) :
    step s = advance { s with turns := ts, slice := some k } := by
  simp [step, State.takeTurn, h]

/-! ### The request channel (60_exceptions.md R315) -/

theorem advance_header {s : State} {h : Beat} {p rest : List Beat} {i : Instr} (hs : s.seq = .idle)
    (hr : s.requests = h :: (p ++ rest)) (hp : p.length = payloadBeats h) (hd : decodeRequest h p = .request i) :
    advance s = exec i { s with opBusy := true, requests := rest } := by
  have hfetch : s.fetch = .request i { s with opBusy := true, seq := .idle, requests := rest } := by
    rw [State.fetch_header hs hr, State.collect_complete (p := p) (rest := rest) rfl (by simpa using hp),
      List.nil_append, hd]
  rw [advance_fetch (by rw [hs]; rfl), hfetch, ← hs]

theorem advance_payload {s : State} {h : Beat} {got p rest : List Beat} {i : Instr} (hs : s.seq = .receiving h got)
    (hr : s.requests = p ++ rest) (hp : got.length + p.length = payloadBeats h)
    (hd : decodeRequest h (got ++ p) = .request i) :
    advance s = exec i { s with opBusy := true, seq := .idle, requests := rest } := by
  have hfetch : s.fetch = .request i { s with opBusy := true, seq := .idle, requests := rest } := by
    rw [State.fetch_receiving hs, State.collect_complete hr hp, hd]
  rw [advance_fetch (by rw [hs]; rfl), hfetch]

theorem advance_short_payload {s : State} {h : Beat} {p : List Beat} (hs : s.seq = .idle) (hr : s.requests = h :: p)
    (hp : p.length < payloadBeats h) :
    advance s = .next { s with opBusy := true, seq := .receiving h p, requests := [] } := by
  have hfetch : s.fetch = .waiting { s with opBusy := true, seq := .receiving h p, requests := [] } := by
    rw [State.fetch_header hs hr, State.collect_waiting (by simpa using hp), List.nil_append]
  rw [advance_fetch (by rw [hs]; rfl), hfetch]

theorem advance_no_header {s : State} (hs : s.seq = .idle) (hr : s.requests = []) : advance s = .next s := by
  rw [advance_fetch (by rw [hs]; rfl), State.fetch_waiting hs hr]

/-- No statement takes a beat from the request channel. -/
theorem State.perform_requests (op : SeqOp) (rest : List SeqOp) (s : State) :
    (s.perform op rest).requests = s.requests := by
  rw [(State.perform_write op rest s).requests]
  cases op with
  | effect e => exact State.apply_requests e s
  | _ => rfl

theorem State.runFor_requests (n : Nat) (s : State) : (State.runFor n s).requests = s.requests :=
  State.runFor_induct (P := fun t => t.requests = s.requests)
    (fun t op rest h _ => (State.perform_requests op rest t).trans h) n s rfl

theorem advance_requests_of_running {s t : State} {ops : List SeqOp} (hs : s.seq = .running ops)
    (h : advance s = .next t) : t.requests = s.requests := by
  cases ops with
  | nil => rw [advance, hs] at h; exact absurd h nofun
  | cons op rest =>
    rw [advance_running hs] at h
    cases h
    exact State.runFor_requests _ s

/-! ### Under the setup latch (60_exceptions.md R307) -/

theorem hasFault_setFault_of_hasFault {f : BitVec 16} {e : ResultCode} (h : hasFault f e = true) (e' : ResultCode) :
    hasFault (setFault f e') e = true := by
  rw [hasFault] at h
  rw [hasFault, setFault, BitVec.getLsbD_or, h, Bool.true_or]

/-- From `s` to `t`, nothing has reached the bus, and what is left will not either. -/
structure BusUntouched (s t : State) : Prop where
  trace : t.trace = s.trace
  drv   : t.drv = s.drv
  latch : hasFault s.faults .setupError = true → hasFault t.faults .setupError = true
  quiet : t.seq.quiet = true

theorem BusUntouched.perform {s t : State} {op : SeqOp} {rest : List SeqOp} (h : BusUntouched s t)
    (ht : t.seq = .running (op :: rest)) : BusUntouched s (t.perform op rest) := by
  have hq := h.quiet
  rw [ht, Sequencer.quiet, List.all_cons, Bool.and_eq_true] at hq
  obtain ⟨hop, hrest⟩ := hq
  have hquiet : (t.perform op rest).seq.quiet = true := by
    obtain hs | hs := State.perform_quiet hop rest t <;> rw [hs]
    · rfl
    · exact hrest
  cases op with
  | effect e => exact ⟨by simp [State.perform, h.trace], by simp [State.perform, h.drv],
      by simpa [State.perform] using h.latch, hquiet⟩
  | raise e => exact ⟨h.trace, h.drv, fun hl => hasFault_setFault_of_hasFault (h.latch hl) e, hquiet⟩
  | complete | completeRead => exact ⟨h.trace, h.drv, h.latch, hquiet⟩
  | _ => exact absurd hop Bool.false_ne_true

theorem State.execute_busUntouched {ops : List SeqOp} (h : ops.all SeqOp.quiet = true) (s : State) :
    BusUntouched s (s.execute ops) :=
  State.runFor_induct (P := BusUntouched s) (fun _ _ _ ht hs => ht.perform hs) _ (s.accept ops)
    ⟨rfl, rfl, id, h⟩

theorem requestOps_init_of_latch {s : State} (h : hasFault s.faults .setupError = true) :
    requestOps s .init = [.raise .stateError] :=
  if_pos h

theorem requestOps_quiet_of_uninit_latch {s : State} (hl : hasFault s.faults .setupError = true) (hu : s.drv = .uninit)
    (i : Instr) : (requestOps s i).all SeqOp.quiet = true := by
  by_cases hi : i = .init
  · rw [hi, requestOps_init_of_latch hl]; rfl
  · exact requestOps_quiet_of_uninit hu hi

/-! ### The statements of a request: its last one answers it -/

/-- The statement goes on, or answers with an error that the environment brings about. -/
def SeqOp.inner (op : SeqOp) : Bool := !op.quiet || op.isEffect

/-- The statement answers the request `i`: RDATA is the data of FB_READ alone (60_exceptions.md R316). -/
def SeqOp.answers (i : Instr) : SeqOp → Prop
  | .raise e             => e ≠ .ok
  | .xferFail | .complete => True
  | .completeRead        => ∃ x y, i = .fbRead x y
  | .setDrv _ | .configurePins | .busSetup | .driveRst _ | .driveDc _ | .delay _ | .xfer _ _ | .moveByte _ _ => False
  | .poll _ | .sample _ | .packPlane _ | .sendPlane | .effect _ => False

theorem State.perform_idle_of_answers {i : Instr} {op : SeqOp} (h : op.answers i) (rest : List SeqOp) (s : State) :
    (s.perform op rest).seq = .idle := by
  cases op with
  | raise _ | xferFail | complete | completeRead => rfl
  | _ => exact h.elim

/-- What is left of the request `i` is statements that go on and, last, one that answers it. -/
inductive AnswersLast (i : Instr) : List SeqOp → Prop
  | last {op : SeqOp} (h : op.answers i) : AnswersLast i [op]
  | cons {op : SeqOp} {rest : List SeqOp} (h : op.inner = true) (hr : AnswersLast i rest) : AnswersLast i (op :: rest)

theorem AnswersLast.append {i : Instr} {new ops : List SeqOp} (hn : new.all SeqOp.inner = true) (h : AnswersLast i ops) :
    AnswersLast i (new ++ ops) := by
  induction new with
  | nil => exact h
  | cons op new ih =>
    rw [List.all_cons, Bool.and_eq_true] at hn
    exact .cons hn.1 (ih hn.2)

theorem AnswersLast.complete {i : Instr} {body : List SeqOp} (h : body.all SeqOp.inner = true) :
    AnswersLast i (body ++ [.complete]) :=
  .append h (.last trivial)

theorem AnswersLast.ite {i : Instr} {p : Prop} [Decidable p] {a b : List SeqOp} (ha : AnswersLast i a)
    (hb : AnswersLast i b) : AnswersLast i (if p then a else b) := by
  split
  · exact ha
  · exact hb

theorem inner_replayEntry (e : InitEntry) : (replayEntry e).all SeqOp.inner = true := by
  have hd : ((e.data.take e.count).flatMap sendData).all SeqOp.inner = true := by
    rw [List.all_flatMap, List.all_eq_true]
    exact fun _ _ => rfl
  rw [replayEntry, List.all_append, List.all_append, hd]
  split <;> rfl

theorem answersLast_initOps (i : Instr) (c : Config) : AnswersLast i (initOps c) := by
  have htable : (c.initTable.flatMap replayEntry).all SeqOp.inner = true := by
    rw [List.all_flatMap, List.all_eq_true]
    exact fun e _ => inner_replayEntry e
  refine .complete ?_
  simp only [List.all_append, replayInitTable, htable]
  rfl

theorem answersLast_requestOps (s : State) (i : Instr) : AnswersLast i (requestOps s i) := by
  have raises : ∀ e : ResultCode, e ≠ .ok → AnswersLast i [.raise e] := fun _ he => .last he
  have completes : AnswersLast i [.complete] := .complete (body := []) rfl
  have effects : ∀ e, AnswersLast i [.effect e, .complete] := fun e => .complete (body := [.effect e]) rfl
  have guards : ∀ body : List SeqOp, body.all SeqOp.inner = true →
      AnswersLast i (if s.drv = .uninit then [.raise .stateError] else body ++ [.complete]) :=
    fun _ h => .ite (raises _ nofun) (.complete h)
  cases i with
  | nop => exact completes
  | init => exact .ite (raises _ nofun) (answersLast_initOps _ _)
  | hardReset => exact guards hardReset rfl
  | waitBusy => exact guards waitBusy rfl
  | sendCmd b => exact .ite (raises _ nofun) (.ite (raises _ nofun) (.complete (body := sendCommand b) rfl))
  | sendData b => exact guards (sendData b) rfl
  | sendBuf bs => exact guards (sendDataBuffer bs) rfl
  | setPollLimit v => exact effects _
  | fbCreate w h => exact .ite (raises _ nofun) (.ite (raises _ nofun) (effects _))
  | fbDestroy => exact .ite (raises _ nofun) (.ite (raises _ nofun) (effects _))
  | fbClear c => exact .ite (raises _ nofun) (effects _)
  | fbPixel x y c => exact .ite (raises _ nofun) (.ite (effects _) completes)
  | fbRead x y => exact .ite (raises _ nofun) (.cons rfl (.last ⟨x, y, rfl⟩))
  | attach => exact .ite (raises _ nofun) (effects _)
  | detach => exact effects _
  | update =>
    exact .ite completes (.ite (raises _ nofun)
      (.complete (body := transmitOps s.cfg ++ (settleOps ++ [.setDrv .ready])) rfl))

/-! ### The one answer of a request (60_exceptions.md R308, R316) -/

/-- From `s` to `t`, the request `i` has been answered, once. -/
def AnsweredOnce (i : Instr) (s t : State) : Prop :=
  ∃ d, Ends d s t ∧ (d = 0x00 ∨ (t.lastResult = .ok ∧ ∃ x y, i = .fbRead x y))

/-- A statement of a request goes on or gives the request's answer. -/
theorem State.perform_answeredOnce {i : Instr} {op : SeqOp} (h : op.inner = true ∨ op.answers i) (rest : List SeqOp)
    (s : State) : GoesOn s (s.perform op rest) ∨ AnsweredOnce i s (s.perform op rest) := by
  have hne : op ≠ .raise .ok := by
    rintro rfl
    exact h.elim (fun h => absurd h Bool.false_ne_true) fun h => h rfl
  refine (State.perform_cases hne rest s).imp_right fun he => ⟨_, he, ?_⟩
  cases op with
  | completeRead => exact .inr ⟨rfl, h.resolve_left Bool.false_ne_true⟩
  | _ => exact .inl rfl

/-- From `s` to `t`, the request `i` goes on towards its answer, or has been answered. -/
inductive Answering (i : Instr) (s t : State) : Prop
  | going (ops : List SeqOp) (seq : t.seq = .running ops) (left : AnswersLast i ops) (same : SameAnswers s t)
  | ended (answer : AnsweredOnce i s t)

theorem inner_of_loud {new : List SeqOp} (h : new.all (fun op => !op.isEffect && !op.quiet) = true) :
    new.all SeqOp.inner = true := by
  rw [List.all_eq_true] at h ⊢
  exact fun op ho => Bool.or_eq_true_iff.2 (.inl (Bool.and_eq_true_iff.1 (h op ho)).2)

/-- A request that goes on has its answer before it. -/
theorem AnswersLast.perform {i : Instr} {s : State} {op : SeqOp} {rest : List SeqOp} (h : AnswersLast i (op :: rest))
    (hr : (s.perform op rest).seq.isRunning = true) :
    ∃ ops, (s.perform op rest).seq = .running ops ∧ AnswersLast i ops := by
  have notIdle : (s.perform op rest).seq ≠ .idle := fun h0 => by rw [h0] at hr; exact absurd hr Bool.false_ne_true
  cases h with
  | last ha => exact absurd (State.perform_idle_of_answers ha [] s) notIdle
  | cons _ hrest =>
    obtain h1 | h1 | ⟨new, h1, h2⟩ | ⟨new, h1, h2⟩ := State.perform_left op rest s
    · exact absurd h1 notIdle
    · exact ⟨rest, h1, hrest⟩
    · exact ⟨_, h1, hrest.append (inner_of_loud h2)⟩
    · exact ⟨_, h1, .append (inner_of_loud h2) (.last trivial)⟩

theorem AnswersLast.head {i : Instr} {op : SeqOp} {rest : List SeqOp} (h : AnswersLast i (op :: rest)) :
    op.inner = true ∨ op.answers i := by
  cases h with
  | last ha => exact .inr ha
  | cons ho _ => exact .inl ho

theorem AnswersLast.exists_cons {i : Instr} {ops : List SeqOp} (h : AnswersLast i ops) :
    ∃ op rest, ops = op :: rest := by
  cases h with
  | last _ | cons _ _ => exact ⟨_, _, rfl⟩

theorem AnsweredOnce.of_same {i : Instr} {s t u : State} (h : SameAnswers s t) (k : AnsweredOnce i t u) :
    AnsweredOnce i s u := by
  obtain ⟨d, he, hd⟩ := k
  exact ⟨d, h.ends he, hd⟩

theorem Answering.perform {i : Instr} {s t : State} {op : SeqOp} {rest : List SeqOp} (h : Answering i s t)
    (ht : t.seq = .running (op :: rest)) : Answering i s (t.perform op rest) := by
  cases h with
  | ended answer =>
    obtain ⟨d, he, -⟩ := answer
    rw [he.idle] at ht
    exact absurd ht nofun
  | going ops seq left same =>
    cases seq.symm.trans ht
    obtain hg | ha := State.perform_answeredOnce left.head rest t
    · obtain ⟨ops, hs, hl⟩ := left.perform hg.running
      exact .going ops hs hl (same.trans hg.sameAnswers)
    · exact .ended (ha.of_same same)

/-- A request without work left has been answered. -/
theorem Answering.answeredOnce {i : Instr} {s t : State} (h : Answering i s t) (hw : t.work = 0) :
    AnsweredOnce i s t := by
  cases h with
  | ended answer => exact answer
  | going ops seq left _ =>
    obtain ⟨op, rest, rfl⟩ := left.exists_cons
    rw [State.work_running seq, List.map_cons, List.sum_cons] at hw
    have := State.cost_pos t op
    omega

theorem State.execute_requestOps_answeredOnce {s : State} (hs : s.slice = none) (hl : s.pollLimit ≠ 0#32) (i : Instr) :
    AnsweredOnce i s (s.execute (requestOps s i)) := by
  have hrun : s.execute (requestOps s i) =
      State.runFor (s.accept (requestOps s i)).work (s.accept (requestOps s i)) := by
    have hg : (s.accept (requestOps s i)).slice = none := hs
    rw [State.execute_eq_run, State.run, hg, Option.getD_none]
  have hwork := State.runFor_work _ (s.accept (requestOps s i)) hl
    (fun ops ho => by cases ho; exact effectsLast_requestOps s i) le_rfl
  have hanswering := State.runFor_induct (P := Answering i s) (fun _ _ _ h ht => h.perform ht)
    (s.accept (requestOps s i)).work (s.accept (requestOps s i))
    (.going _ rfl (answersLast_requestOps s i) ⟨rfl, rfl, rfl⟩)
  exact hrun ▸ hanswering.answeredOnce hwork

end Sys2Proof.Machine

namespace Sys2Proof

open Machine

/-- Settles O38: under the latch every request comes to statements that move no byte, INIT to `raise STATE_ERROR`. -/
theorem setupLatchBlocksTheBus : Obligations.SetupLatchBlocksTheBus := by
  intro s t i hl hu ht
  have hrun : t = s.execute (requestOps s i) := Host.Outcome.next.inj (ht.symm.trans (exec_eq_execute i s))
  obtain ⟨htrace, hdrv, hlatch, -⟩ := State.execute_busUntouched (requestOps_quiet_of_uninit_latch hl hu i) s
  rw [← hrun] at htrace hdrv hlatch
  refine ⟨htrace, hdrv.trans hu, hlatch hl, fun hg hi => ?_⟩
  subst hi
  exact forall_exec_next (P := fun u => u.lastResult = .stateError)
    (exec_of_raise hg (requestOps_init_of_latch hl)) rfl t ht

/-- Settles O39: without a bound, busy polls are followed by the next poll. -/
theorem unboundedHandshakeKeepsPolling : Obligations.UnboundedHandshakeKeepsPolling := by
  intro s m c rest xs vs hl hs hx hv
  rw [State.runFor_busyPolls m hs hx hv (absurd hl)]
  exact ⟨rfl, rfl, rfl, rfl⟩

/-- Settles O44: by the statements of the request, of which the last answers, and the work that each micro-step lessens. -/
theorem everyRequestCompletes : Obligations.EveryRequestCompletes := by
  intro i s hs hl
  obtain ⟨d, he, hd⟩ := State.execute_requestOps_answeredOnce hs hl i
  exact ⟨_, _, d, exec_eq_execute i s, he.idle, he.opBusy, rfl, he.responses, hd⟩

/-- Settles O5: the channel's request is executed in the state in which its last beat is accepted. -/
theorem stepRunsTheDecodedRequest : Obligations.StepRunsTheDecodedRequest := by
  refine ⟨fun s h p rest i hs hr hp hd => ⟨fun ht => ?_, fun k ts ht => ?_⟩,
    fun s h got p rest i hs hr hp hd => ⟨fun ht => ?_, fun k ts ht => ?_⟩⟩
  · exact (step_of_no_turn ht).trans (advance_header (s := { s with slice := none }) hs hr hp hd)
  · exact (step_of_sequencer_turn ht).trans
      (advance_header (s := { s with turns := ts, slice := some k }) hs hr hp hd)
  · exact (step_of_no_turn ht).trans (advance_payload (s := { s with slice := none }) hs hr hp hd)
  · exact (step_of_sequencer_turn ht).trans
      (advance_payload (s := { s with turns := ts, slice := some k }) hs hr hp hd)

/-- Settles O7: a payload that is not all there is received, and an empty channel is waited for. -/
theorem blockWaitsForHeaderAndPayload : Obligations.BlockWaitsForHeaderAndPayload :=
  ⟨fun s _ _ ht hs hr hp =>
    (step_of_no_turn ht).trans (advance_short_payload (s := { s with slice := none }) hs hr hp),
   fun s ht hs hr => (step_of_no_turn ht).trans (advance_no_header (s := { s with slice := none }) hs hr)⟩

/-- Settles O8: neither a block reset nor a run of statements takes a beat. -/
theorem noBeatIsAcceptedWhileARequestExecutes : Obligations.NoBeatIsAcceptedWhileARequestExecutes := by
  intro s t ops hs hst
  obtain ⟨ts, -, hstep⟩ | ⟨-, hstep⟩ := step_cases s
  · cases hst.symm.trans hstep; rfl
  · have h := advance_requests_of_running ((State.takeTurn_seq s).trans hs) (hstep.symm.trans hst)
    exact h.trans (State.takeTurn_requests s)

end Sys2Proof

end

section
/-! PROOFS. Family 70_reset_and_hazards.md: what a block reset leaves, and the delays and samples that a request's statements
are due, which the events of a request that completes with OK add up to. -/

namespace Sys2Proof.Machine

theorem step_of_blockReset_turn {s : State} {ts : List Turn} (h : s.turns = .blockReset :: ts) :
    step s = .next { s with turns := ts, slice := none }.blockReset := by
  simp [step, State.takeTurn, h]

end Sys2Proof.Machine

namespace Sys2Proof

open Machine

/-- Settles O9: the step is `State.blockReset`, after which no cell is reachable and no byte packed. -/
theorem blockResetTakesEveryElementToItsResetValue : Obligations.BlockResetTakesEveryElementToItsResetValue := by
  intro s ts hts
  exact ⟨_, step_of_blockReset_turn hts,
    rfl, rfl, rfl, rfl, rfl, rfl, rfl, rfl, rfl, rfl, rfl, rfl, rfl, rfl, rfl, rfl, rfl, rfl, rfl,
    fun i => if_neg (Nat.not_lt_zero i), fun k => rfl⟩

end Sys2Proof

namespace Sys2Proof.Machine

/-! ### The delays and the samples of events -/

@[simp] theorem traceDelay_nil (c : Config) : traceDelay c [] = 0 := rfl

@[simp] theorem traceDelay_append (c : Config) (es es' : List Event) :
    traceDelay c (es ++ es') = traceDelay c es + traceDelay c es' := by
  simp [traceDelay]

@[simp] theorem sampleCount_nil : sampleCount [] = 0 := rfl

@[simp] theorem sampleCount_append (es es' : List Event) :
    sampleCount (es ++ es') = sampleCount es + sampleCount es' :=
  List.countP_append

/-! ### The delays and the samples that statements are due -/

/-- The delay a statement makes when its request goes on: a poll makes one (43_panel_driver.md R205). -/
def SeqOp.delayDue (c : Config) : SeqOp → Nat
  | .delay t => c.duration t
  | .poll _  => c.tPoll
  | .setDrv _ | .configurePins | .busSetup | .driveRst _ | .driveDc _ | .xfer _ _ | .moveByte _ _ | .xferFail => 0
  | .sample _ | .packPlane _ | .sendPlane | .effect _ | .raise _ | .complete | .completeRead => 0

/-- The statement takes a sample of the busy pin: a poll does (43_panel_driver.md R205). -/
def SeqOp.samples : SeqOp → Bool
  | .poll _ | .sample _ => true
  | .setDrv _ | .configurePins | .busSetup | .driveRst _ | .driveDc _ | .delay _ | .xfer _ _ | .moveByte _ _ => false
  | .xferFail | .packPlane _ | .sendPlane | .effect _ | .raise _ | .complete | .completeRead => false

/-- The delays that statements make, with one poll in each handshake. -/
def delaysDue (c : Config) (ops : List SeqOp) : Nat := (ops.map (SeqOp.delayDue c)).sum

/-- The samples that statements take, with one poll in each handshake. -/
def samplesDue (ops : List SeqOp) : Nat := ops.countP SeqOp.samples

@[simp] theorem delaysDue_nil (c : Config) : delaysDue c [] = 0 := rfl

@[simp] theorem delaysDue_cons (c : Config) (op : SeqOp) (ops : List SeqOp) :
    delaysDue c (op :: ops) = op.delayDue c + delaysDue c ops := by
  simp [delaysDue]

@[simp] theorem delaysDue_append (c : Config) (ops ops' : List SeqOp) :
    delaysDue c (ops ++ ops') = delaysDue c ops + delaysDue c ops' := by
  simp [delaysDue]

@[simp] theorem samplesDue_nil : samplesDue [] = 0 := rfl

@[simp] theorem samplesDue_cons (op : SeqOp) (ops : List SeqOp) :
    samplesDue (op :: ops) = (if op.samples then 1 else 0) + samplesDue ops := by
  rw [samplesDue, List.countP_cons, Nat.add_comm]
  rfl

@[simp] theorem samplesDue_append (ops ops' : List SeqOp) :
    samplesDue (ops ++ ops') = samplesDue ops + samplesDue ops' :=
  List.countP_append

/-- Bytes that move are due neither. -/
theorem due_moveBytes (c : Config) (dc : Level) (bs : List Byte) :
    delaysDue c (bs.map (SeqOp.moveByte dc)) = 0 ∧ samplesDue (bs.map (SeqOp.moveByte dc)) = 0 := by
  induction bs with
  | nil => exact ⟨rfl, rfl⟩
  | cons b bs ih => simpa [SeqOp.delayDue, SeqOp.samples] using ih

/-- The statements `ops` have emitted `es` and come to `left`: what the events make and what is still due add up to what was
due and `k` polls, the ones beyond the first of each handshake. -/
def Balance (c : Config) (ops : List SeqOp) (es : List Event) (left : List SeqOp) : Prop :=
  ∃ k, sampleCount es + samplesDue left = samplesDue ops + k ∧
    traceDelay c es + delaysDue c left = delaysDue c ops + k * c.tPoll

/-- No poll is added. -/
theorem Balance.of_eq {c : Config} {ops left : List SeqOp} {es : List Event}
    (hs : sampleCount es + samplesDue left = samplesDue ops)
    (hd : traceDelay c es + delaysDue c left = delaysDue c ops) : Balance c ops es left :=
  ⟨0, hs, by simpa using hd⟩

theorem Balance.refl (c : Config) (ops : List SeqOp) : Balance c ops [] ops :=
  .of_eq (Nat.zero_add _) (Nat.zero_add _)

/-- The first statement that is left emits `ev` and comes to `new`. -/
theorem Balance.step {c : Config} {ops rest new : List SeqOp} {op : SeqOp} {es ev : List Event}
    (h : Balance c ops es (op :: rest)) (h' : Balance c [op] ev new) : Balance c ops (es ++ ev) (new ++ rest) := by
  obtain ⟨k, hs, hd⟩ := h
  obtain ⟨k', hs', hd'⟩ := h'
  simp only [samplesDue_cons, samplesDue_nil, delaysDue_cons, delaysDue_nil] at hs hd hs' hd'
  refine ⟨k + k', ?_, ?_⟩
  · rw [sampleCount_append, samplesDue_append]
    omega
  · rw [traceDelay_append, delaysDue_append, Nat.add_mul]
    omega

/-! ### A request that can only fail -/

/-- The statement ends its request in nothing but an error. -/
def SeqOp.onlyFails (op : SeqOp) : Prop :=
  ∀ (rest : List SeqOp) (s : State), (s.perform op rest).seq = .idle → (s.perform op rest).lastResult ≠ .ok

theorem SeqOp.onlyFails_of_inner {op : SeqOp} (h : op.inner = true) : op.onlyFails := by
  intro rest s hs
  cases op with
  | effect e => exact absurd hs nofun
  | raise _ | complete | completeRead => exact absurd h Bool.false_ne_true
  | _ => exact State.perform_error rfl hs

theorem onlyFails_of_inner {ops : List SeqOp} (h : ops.all SeqOp.inner = true) : ∀ op ∈ ops, op.onlyFails :=
  fun op ho => SeqOp.onlyFails_of_inner (List.all_eq_true.1 h op ho)

/-- What is left of the request ends it in nothing but an error, or it has ended in one. -/
inductive OnlyFails (t : State) : Prop
  | going (ops : List SeqOp) (seq : t.seq = .running ops) (left : ∀ op ∈ ops, op.onlyFails)
  | ended (seq : t.seq = .idle) (error : t.lastResult ≠ .ok)

theorem OnlyFails.perform {t : State} {op : SeqOp} {rest : List SeqOp} (h : OnlyFails t)
    (ht : t.seq = .running (op :: rest)) : OnlyFails (t.perform op rest) := by
  cases h with
  | ended seq _ => rw [seq] at ht; exact absurd ht nofun
  | going ops seq left =>
    cases seq.symm.trans ht
    obtain ⟨hop, hrest⟩ := List.forall_mem_cons.1 left
    obtain h1 | h1 | ⟨new, h1, h2⟩ | ⟨new, h1, h2⟩ := State.perform_left op rest t
    · exact .ended h1 (hop rest t h1)
    · exact .going rest h1 hrest
    · exact .going _ h1 (List.forall_mem_append.2 ⟨onlyFails_of_inner (inner_of_loud h2), hrest⟩)
    · exact .going _ h1 (List.forall_mem_append.2
        ⟨onlyFails_of_inner (inner_of_loud h2), onlyFails_of_inner (ops := [.xferFail]) rfl⟩)

/-! ### One statement, balanced -/

/-- A statement ends its request, leaves only what fails, or goes on with the balance kept: a transfer makes no delay, a poll
comes to its own, and a busy sample below the limit adds a poll (43_panel_driver.md R203, R205). -/
theorem State.perform_balance (c : Config) (op : SeqOp) (rest : List SeqOp) (s : State) :
    (s.perform op rest).seq = .idle ∨ OnlyFails (s.perform op rest) ∨
    ∃ new, (s.perform op rest).seq = .running (new ++ rest) ∧ new.all SeqOp.inner = true ∧
      Balance c [op] (op.event s).toList new := by
  have moves (dc : Level) (bs : List Byte) : (bs.map (SeqOp.moveByte dc)).all SeqOp.inner = true :=
    List.all_eq_true.2 fun op ho => by obtain ⟨b, -, rfl⟩ := List.mem_map.1 ho; rfl
  cases op with
  | raise _ | complete | completeRead | xferFail => exact .inl rfl
  | busSetup =>
    cases ha : s.setupAnswer with
    | ok => exact .inr (.inr ⟨[], by simp [State.perform, ha], rfl, .of_eq rfl rfl⟩)
    | fail => exact .inl (by simp [State.perform, ha])
  | xfer dc bs =>
    by_cases hb : bs.isEmpty = true
    · exact .inr (.inr ⟨[], by simp [State.perform, hb], rfl, .of_eq rfl rfl⟩)
    · have hseq : (s.perform (.xfer dc bs) rest).seq = .running (transferOps dc bs rest s.xferAnswer) := by
        simp [State.perform, hb]
      cases ha : s.xferAnswer with
      | ok =>
        obtain ⟨hd, hs⟩ := due_moveBytes c dc bs
        exact .inr (.inr ⟨_, hseq.trans (by rw [ha]; rfl), moves dc bs, .of_eq (hs ▸ rfl) (hd ▸ rfl)⟩)
      | err k =>
        refine .inr (.inl (.going ((bs.take k).map (SeqOp.moveByte dc) ++ [.xferFail]) (by rw [hseq, ha]; rfl)
          (onlyFails_of_inner ?_)))
        rw [List.all_append, moves]
        rfl
  | poll n =>
    exact .inr (.inr ⟨sendCommand s.cfg.cmdGetStatus ++ [.delay .poll, .sample n], rfl, rfl,
      .of_eq rfl (by simp [sendCommand, SeqOp.delayDue, SeqOp.event, Config.duration])⟩)
  | sample n =>
    simp only [State.perform, State.afterSample]
    split
    · exact .inr (.inr ⟨[], rfl, rfl, .of_eq rfl rfl⟩)
    · split
      · exact .inl rfl
      · exact .inr (.inr ⟨[.poll (n + 1)], rfl, rfl, 1, rfl, by simp [SeqOp.delayDue, SeqOp.event, traceDelay]⟩)
  | sendPlane => exact .inr (.inr ⟨[.xfer dcDataLevel _], rfl, rfl, .of_eq rfl rfl⟩)
  | _ => exact .inr (.inr ⟨[], rfl, rfl, .of_eq rfl rfl⟩)

/-! ### A request, balanced -/

/-- From `s` to `t`, the request that was accepted with `ops` before its completion goes on with its balance kept, can only
fail, or has completed. -/
inductive Delaying (c : Config) (ops : List SeqOp) (s t : State) : Prop
  | going (left : List SeqOp) (es : List Event) (seq : t.seq = .running (left ++ [.complete]))
      (inner : left.all SeqOp.inner = true) (trace : t.trace = s.trace ++ es) (balance : Balance c ops es left)
  | failing (h : OnlyFails t)
  | completed (es : List Event) (seq : t.seq = .idle) (trace : t.trace = s.trace ++ es) (balance : Balance c ops es [])

theorem Delaying.perform {c : Config} {ops : List SeqOp} {s t : State} {op : SeqOp} {rest : List SeqOp}
    (h : Delaying c ops s t) (ht : t.seq = .running (op :: rest)) : Delaying c ops s (t.perform op rest) := by
  cases h with
  | failing h => exact .failing (h.perform ht)
  | completed es seq _ _ => rw [seq] at ht; exact absurd ht nofun
  | going left es seq inner trace balance =>
    rw [seq] at ht
    cases left with
    | nil => cases ht; exact .completed es rfl trace balance
    | cons o left =>
      rw [List.cons_append] at ht
      cases ht
      rw [List.all_cons, Bool.and_eq_true] at inner
      obtain ⟨hop, hleft⟩ := inner
      obtain h1 | h1 | ⟨new, h1, h2, h3⟩ := State.perform_balance c op (left ++ [.complete]) t
      · exact .failing (.ended h1 (SeqOp.onlyFails_of_inner hop _ _ h1))
      · exact .failing h1
      · refine .going (new ++ left) (es ++ (op.event t).toList) (by rw [h1, List.append_assoc]) ?_ ?_ (balance.step h3)
        · rw [List.all_append, h2, hleft]; rfl
        · rw [State.perform_trace, trace, List.append_assoc]

theorem Delaying.balance {c : Config} {ops : List SeqOp} {s t : State} (h : Delaying c ops s t) (hs : t.seq = .idle)
    (hok : t.lastResult = .ok) : ∃ es, t.trace = s.trace ++ es ∧ Balance c ops es [] := by
  cases h with
  | going left _ seq _ _ _ => rw [seq] at hs; exact absurd hs nofun
  | failing h =>
    cases h with
    | going _ seq _ => rw [seq] at hs; exact absurd hs nofun
    | ended _ error => exact absurd hok error
  | completed es _ trace balance => exact ⟨es, trace, balance⟩

/-- All but the last statement of a request go on. -/
theorem AnswersLast.inner_of_append {i : Instr} {body : List SeqOp} {op : SeqOp} (h : AnswersLast i (body ++ [op])) :
    body.all SeqOp.inner = true := by
  induction body with
  | nil => rfl
  | cons o body ih =>
    generalize hl : body ++ [op] = l at ih
    rw [List.cons_append, hl] at h
    cases h with
    | last _ => exact absurd hl (by simp)
    | cons ho hr => rw [List.all_cons, ho, ih hr]; rfl

/-- A request with one check that completes with OK has emitted what its statements were due, and `k` polls more. -/
theorem exec_ok_balance {i : Instr} {s t : State} {p : Prop} [Decidable p] {ops : List SeqOp}
    (ho : requestOps s i = if p then [.raise .stateError] else ops ++ [.complete]) (h : exec i s = .next t)
    (hs : t.seq = .idle) (hok : t.lastResult = .ok) :
    ∃ es k, t.trace = s.trace ++ es ∧ sampleCount es = samplesDue ops + k ∧
      traceDelay s.cfg es = delaysDue s.cfg ops + k * s.cfg.tPoll := by
  have hrun : t = (s.accept (requestOps s i)).run := Host.Outcome.next.inj (h.symm.trans (exec_eq_execute i s))
  have hstart : Delaying s.cfg ops s (s.accept (requestOps s i)) := by
    have ha := answersLast_requestOps s i
    by_cases hp : p
    · rw [ho, if_pos hp]
      exact .failing (.going _ rfl (List.forall_mem_singleton.2 fun _ _ _ => ResultCode.noConfusion))
    · rw [ho, if_neg hp] at ha ⊢
      exact .going ops [] rfl ha.inner_of_append (List.append_nil _).symm (.refl _ _)
  have hend : Delaying s.cfg ops s t :=
    hrun ▸ State.runFor_induct (P := Delaying s.cfg ops s) (fun _ _ _ h ht => h.perform ht) _ _ hstart
  obtain ⟨es, htr, k, hsc, hd⟩ := hend.balance hs hok
  exact ⟨es, k, htr, hsc, hd⟩

/-! ### What the procedures are due (70_reset_and_hazards.md R361) -/

theorem delaysDue_hardReset (c : Config) :
    delaysDue c hardReset = c.tRstHigh1 + c.tRstLow + c.tRstHigh2 + c.tPoll + c.tBusySettle := by
  simp [hardReset, waitBusy, SeqOp.delayDue, Config.duration]
  omega

/-- UPDATE but for its completion. -/
def updateBody (c : Config) : List SeqOp := transmitOps c ++ (settleOps ++ [.setDrv .ready])

theorem updateOps_eq_body (c : Config) : updateOps c = updateBody c ++ [.complete] := by
  simp [updateOps_eq_transmit, updateBody]

theorem delaysDue_updateBody (c : Config) :
    delaysDue c (updateBody c) = c.tRefreshSettle + c.tPoll + c.tBusySettle := by
  simp [updateBody, transmitOps, settleOps, sendCommand, sendPackedPlane, waitBusy, SeqOp.delayDue, Config.duration]
  omega

/-- The data bytes of an entry wait for nothing. -/
theorem delaysDue_sendData (c : Config) (bs : List Byte) : delaysDue c (bs.flatMap sendData) = 0 := by
  induction bs with
  | nil => rfl
  | cons b bs ih => simp [sendData, SeqOp.delayDue, ih]

/-- An entry with a wait flag is due a handshake. -/
theorem delaysDue_replayEntry (c : Config) (e : InitEntry) :
    delaysDue c (replayEntry e) = if e.wait then c.tPoll + c.tBusySettle else 0 := by
  cases hw : e.wait <;>
    simp [replayEntry, hw, delaysDue_sendData, sendCommand, waitBusy, SeqOp.delayDue, Config.duration]

theorem delaysDue_table (c : Config) (es : List InitEntry) :
    delaysDue c (es.flatMap replayEntry) = es.countP (fun e => e.wait) * (c.tPoll + c.tBusySettle) := by
  induction es with
  | nil => simp
  | cons e es ih =>
    rw [List.flatMap_cons, delaysDue_append, delaysDue_replayEntry, ih, List.countP_cons, Nat.add_mul, Nat.add_comm]
    split <;> simp

theorem delaysDue_replayInitTable (c : Config) :
    delaysDue c (replayInitTable c) = (1 + waitEntries c) * (c.tPoll + c.tBusySettle) := by
  simp [replayInitTable, delaysDue_table, waitBusy, SeqOp.delayDue, Config.duration, waitEntries, Nat.add_mul]
  omega

theorem delaysDue_clearPanelWhite (c : Config) :
    delaysDue c (clearPanelWhite c) = c.tRefreshSettle + c.tPoll + c.tBusySettle := by
  simp [clearPanelWhite, sendCommand, sendDataBuffer, waitBusy, SeqOp.delayDue, Config.duration]
  omega

/-- INIT after its latch check, but for its completion (43_panel_driver.md R210). -/
def initBody (c : Config) : List SeqOp :=
  [.setDrv .uninit, .configurePins] ++ bringUpBus ++ hardReset ++ [.delay .initSettle] ++ replayInitTable c
    ++ clearPanelWhite c

theorem initOps_eq_body (c : Config) : initOps c = initBody c ++ [.complete] := rfl

theorem delaysDue_initBody (c : Config) :
    delaysDue c (initBody c) =
      c.tRstHigh1 + c.tRstLow + c.tRstHigh2 + c.tPoll + c.tBusySettle + c.tInitSettle
        + (1 + waitEntries c) * (c.tPoll + c.tBusySettle) + c.tRefreshSettle + c.tPoll + c.tBusySettle := by
  simp [initBody, bringUpBus, delaysDue_hardReset, delaysDue_replayInitTable, delaysDue_clearPanelWhite, SeqOp.delayDue,
    Config.duration]
  omega

theorem requestOps_update_attached {s : State} (ha : s.attached = true) :
    requestOps s .update = if s.drv.below .initApplied then [.raise .stateError] else updateBody s.cfg ++ [.complete] := by
  simp [requestOps, ha, updateOps_eq_body]

/-- The delays that the statements of a request are due bound those of its events. -/
theorem exec_ok_delays {i : Instr} {s t : State} {p : Prop} [Decidable p] {ops : List SeqOp} {d : Nat}
    (ho : requestOps s i = if p then [.raise .stateError] else ops ++ [.complete]) (hd : delaysDue s.cfg ops = d)
    (h : exec i s = .next t) (hs : t.seq = .idle) (hok : t.lastResult = .ok) :
    ∃ es, t.trace = s.trace ++ es ∧ d ≤ traceDelay s.cfg es := by
  obtain ⟨es, k, htr, -, hdelay⟩ := exec_ok_balance ho h hs hok
  exact ⟨es, htr, by omega⟩

end Sys2Proof.Machine

namespace Sys2Proof

open Machine

/-- Settles O49: what each request's statements are due; WAIT_BUSY's one sample and `k` more are those of its polls. -/
theorem delaysAddUpToTheLatencyBounds : Obligations.DelaysAddUpToTheLatencyBounds := by
  intro s t
  refine ⟨fun h hs hok => ?_, exec_ok_delays rfl (delaysDue_hardReset _),
    fun ha => exec_ok_delays (requestOps_update_attached ha) (delaysDue_updateBody _),
    exec_ok_delays (ops := initBody s.cfg) rfl (delaysDue_initBody _)⟩
  obtain ⟨es, k, htr, hsamples, hdelay⟩ := exec_ok_balance (ops := waitBusy) rfl h hs hok
  have hsc : sampleCount es = 1 + k := hsamples
  have hd : traceDelay s.cfg es = s.cfg.tPoll + s.cfg.tBusySettle + k * s.cfg.tPoll := hdelay
  refine ⟨es, htr, by omega, ?_⟩
  rw [hd, hsc, Nat.add_mul, Nat.one_mul]
  omega

end Sys2Proof

end
